-- ==== Sys2Proof/Word.lean ====
section
/-! DEFINITION. The word types of the core: the 8-bit data path, the 16-bit instruction word, the 12-bit data
address and the 21-bit program address (spec/00_scope.md R6, spec/20_memory.md R80). -/

namespace Sys2Proof

/-- The 8-bit data path (spec/00_scope.md R1, R6). -/
abbrev Byte := BitVec 8

/-- A 16-bit instruction word (spec/30_encoding.md R130). -/
abbrev Word := BitVec 16

/-- A 12-bit data-memory address (spec/10_state.md R42). -/
abbrev DataAddr := BitVec 12

/-- A 21-bit byte address of program memory, the width of the pc and of the table pointer
(spec/10_state.md R29, R40). -/
abbrev ProgAddr := BitVec 21

end Sys2Proof
end

