-- ==== Sys2Proof/Config.lean ====
section
/-! DEFINITION. What a device fixes (the parameters of spec/00_scope.md R6 and spec/92_eei_decisions.md P1 to P7, as
plain data that every State carries) and the free values: what the spec leaves unspecified while the machine goes on. -/

namespace Sys2Proof

/-- The three indirect address registers (spec/10_state.md R27). -/
inductive Fsr where
  | fsr0 | fsr1 | fsr2
  deriving DecidableEq, Repr

/-- The five ways an INDF-family address reaches memory (spec/20_memory.md R86). -/
inductive IndMode where
  | indf | postinc | postdec | preinc | plusw
  deriving DecidableEq, Repr

/-- The core registers that are mapped in data memory (spec/10_state.md R45); `ind n m` is one of the fifteen
INDF-family addresses, which hold no state (spec/10_state.md R28). -/
inductive Sfr where
  | tosu | tosh | tosl | stkptr | pclatu | pclath | pcl
  | tblptru | tblptrh | tblptrl | tablat | prodh | prodl
  | ind (n : Fsr) (m : IndMode)
  | fsrh (n : Fsr) | fsrl (n : Fsr)
  | wreg | bsr | status
  deriving DecidableEq, Repr

/-- The five program memory modes (spec/20_memory.md R107). -/
inductive PmMode where
  | mp | emc | pemc | mc | pmc
  deriving DecidableEq, Repr

/-- What a data address outside the core registers is (spec/10_state.md R42); an address in no region of the
device's map is unimplemented. -/
inductive RegionKind where
  | gpr | peripheral
  deriving DecidableEq, Repr

/-- An inclusive range of data addresses of one kind. -/
structure DataRegion where
  lo : Nat
  hi : Nat
  kind : RegionKind
  deriving DecidableEq, Repr

/-- An inclusive range of program-memory byte addresses. -/
structure ProgRegion where
  lo : Nat
  hi : Nat
  deriving DecidableEq, Repr

/-- The device parameters of spec/00_scope.md R6 that a rule of the model reads. They are fixed for a machine
(spec/10_state.md R50) and stand in State as plain data, so that a statement about every state is a statement
about every device. -/
structure Device where
  /-- `SFR_MAP` (spec/10_state.md R45, parameter P5). -/
  sfrMap : List (DataAddr × Sfr)
  /-- `GIE_REG`: the byte that holds the two global interrupt enables (spec/60_exceptions.md R411, P7). -/
  gieReg : DataAddr
  /-- `DM_IMPLEMENTED` and the peripheral SFR areas (spec/10_state.md R42 to R44, P4). -/
  dataMap : List DataRegion
  /-- `PM_IMPLEMENTED`: on-chip program memory (spec/20_memory.md R109, P1). -/
  pmImplemented : List ProgRegion
  /-- `PM_WRITABLE`: where a table write changes a byte (spec/20_memory.md R112, P3). -/
  pmWritable : List ProgRegion
  /-- `PM_MODE` (spec/20_memory.md R107, P2). -/
  pmMode : PmMode
  /-- `STVRE`: a stack error resets the device (spec/10_state.md R38, P6). -/
  stvre : Bool
  deriving DecidableEq, Repr

/-- The default `SFR_MAP`, row by row as spec/10_state.md R45 prints it. -/
def Config.sfrMap : List (DataAddr × Sfr) :=
  [(0xFFF#12, .tosu), (0xFFE#12, .tosh), (0xFFD#12, .tosl), (0xFFC#12, .stkptr),
   (0xFFB#12, .pclatu), (0xFFA#12, .pclath), (0xFF9#12, .pcl),
   (0xFF8#12, .tblptru), (0xFF7#12, .tblptrh), (0xFF6#12, .tblptrl), (0xFF5#12, .tablat),
   (0xFF4#12, .prodh), (0xFF3#12, .prodl),
   (0xFEF#12, .ind .fsr0 .indf), (0xFEE#12, .ind .fsr0 .postinc), (0xFED#12, .ind .fsr0 .postdec),
   (0xFEC#12, .ind .fsr0 .preinc), (0xFEB#12, .ind .fsr0 .plusw),
   (0xFEA#12, .fsrh .fsr0), (0xFE9#12, .fsrl .fsr0), (0xFE8#12, .wreg),
   (0xFE7#12, .ind .fsr1 .indf), (0xFE6#12, .ind .fsr1 .postinc), (0xFE5#12, .ind .fsr1 .postdec),
   (0xFE4#12, .ind .fsr1 .preinc), (0xFE3#12, .ind .fsr1 .plusw),
   (0xFE2#12, .fsrh .fsr1), (0xFE1#12, .fsrl .fsr1), (0xFE0#12, .bsr),
   (0xFDF#12, .ind .fsr2 .indf), (0xFDE#12, .ind .fsr2 .postinc), (0xFDD#12, .ind .fsr2 .postdec),
   (0xFDC#12, .ind .fsr2 .preinc), (0xFDB#12, .ind .fsr2 .plusw),
   (0xFDA#12, .fsrh .fsr2), (0xFD9#12, .fsrl .fsr2), (0xFD8#12, .status)]

/-- The device State.reset carries: every parameter at the default of spec/00_scope.md R6. DESIGN CHOICE (log entry
2): the spec leaves the data map and the extent of program memory open. -/
def Config.device : Device where
  sfrMap := Config.sfrMap
  gieReg := 0xFF2#12
  dataMap := [{ lo := 0x000, hi := 0xFD7, kind := .gpr }]
  pmImplemented := [{ lo := 0x000000, hi := 0x1FFFFF }]
  pmWritable := []
  pmMode := .mc
  stvre := false

/-- The pieces of state to which a reset gives no value (spec/70_reset_and_hazards.md R450). -/
inductive ResetSlot where
  | w | status | bsr | fsr (n : Fsr) | pclath | pclatu | prodh | prodl | tblptr | tablat
  | ws | statuss | bsrs | stackWord (i : Nat) | gpr (a : Nat)
  deriving DecidableEq, Repr

/-- FREE VALUE: what the piece of state `slot` holds after the reset that is the `draw`-th draw of a free value
(spec/70_reset_and_hazards.md R450: "every other piece of state <- unspecified"). Log entry 4. -/
opaque Config.resetValue (draw : Nat) (slot : ResetSlot) : BitVec 21

/-- FREE VALUE: the byte the environment presents when a peripheral SFR is read and the sampled inputs name none
(spec/20_memory.md R99: "a fresh environment input"). Log entry 5. -/
opaque Config.peripheralByte (draw : Nat) : Byte

/-- FREE VALUE: what a table read of internal program memory returns in PEMC mode
(spec/20_memory.md R110: "the model returns an unspecified byte"). Log entry 6. -/
opaque Config.protectedByte (draw : Nat) : Byte

end Sys2Proof
end

