-- ==== Sys2Proof/Syntax.lean ====
section
/-! DEFINITION. The instructions: one constructor of `Instr` per row of spec/opcode_table.json, in the table's order
(79 rows, NOP having two; spec/30_encoding.md R138). Operands are decoded fields, not encoded words. -/

namespace Sys2Proof

/-- The destination designator `d` (spec/00_scope.md R10): `w` is 0, `file` is 1. -/
inductive Dest where
  | w | file
  deriving DecidableEq, Repr

/-- The virtual bank select bit `a` (spec/00_scope.md R10): `virt` is 0 (the BSR is overridden), `banked` is 1. -/
inductive Access where
  | virt | banked
  deriving DecidableEq, Repr

/-- The 79 rows of spec/opcode_table.json. `f` is the 8-bit file field (12 bits in MOVFF), `b` a bit number, `k` a
literal, `n` a signed word offset, `s` the fast call/return select bit (spec/30_encoding.md R133, R134). -/
inductive Instr where
  /-- ADDWF: add W to f (R202). -/
  | addwf (f : Byte) (d : Dest) (a : Access)
  /-- ADDWFC: add W and carry to f (R203). -/
  | addwfc (f : Byte) (d : Dest) (a : Access)
  /-- ANDWF: AND W with f (R204). -/
  | andwf (f : Byte) (d : Dest) (a : Access)
  /-- COMF: complement f (R205). -/
  | comf (f : Byte) (d : Dest) (a : Access)
  /-- DECF: decrement f (R206). -/
  | decf (f : Byte) (d : Dest) (a : Access)
  /-- INCF: increment f (R207). -/
  | incf (f : Byte) (d : Dest) (a : Access)
  /-- IORWF: inclusive OR W with f (R208). -/
  | iorwf (f : Byte) (d : Dest) (a : Access)
  /-- MOVF: move f (R209). -/
  | movf (f : Byte) (d : Dest) (a : Access)
  /-- RLCF: rotate f left through carry (R210). -/
  | rlcf (f : Byte) (d : Dest) (a : Access)
  /-- RLNCF: rotate f left, no carry (R211). -/
  | rlncf (f : Byte) (d : Dest) (a : Access)
  /-- RRCF: rotate f right through carry (R212). -/
  | rrcf (f : Byte) (d : Dest) (a : Access)
  /-- RRNCF: rotate f right, no carry (R213). -/
  | rrncf (f : Byte) (d : Dest) (a : Access)
  /-- SUBFWB: subtract f from W with borrow (R214). -/
  | subfwb (f : Byte) (d : Dest) (a : Access)
  /-- SUBWF: subtract W from f (R215). -/
  | subwf (f : Byte) (d : Dest) (a : Access)
  /-- SUBWFB: subtract W from f with borrow (R216). -/
  | subwfb (f : Byte) (d : Dest) (a : Access)
  /-- SWAPF: swap the nibbles of f (R217). -/
  | swapf (f : Byte) (d : Dest) (a : Access)
  /-- XORWF: exclusive OR W with f (R218). -/
  | xorwf (f : Byte) (d : Dest) (a : Access)
  /-- MOVWF: move W to f (R219). -/
  | movwf (f : Byte) (a : Access)
  /-- CLRF: clear f (R220). -/
  | clrf (f : Byte) (a : Access)
  /-- NEGF: negate f (R221). -/
  | negf (f : Byte) (a : Access)
  /-- SETF: set f to FFh (R222). -/
  | setf (f : Byte) (a : Access)
  /-- DECFSZ: decrement f, skip if zero (R240). -/
  | decfsz (f : Byte) (d : Dest) (a : Access)
  /-- DCFSNZ: decrement f, skip if not zero (R241). -/
  | dcfsnz (f : Byte) (d : Dest) (a : Access)
  /-- INCFSZ: increment f, skip if zero (R242). -/
  | incfsz (f : Byte) (d : Dest) (a : Access)
  /-- ICFSNZ: increment f, skip if not zero (R243). -/
  | icfsnz (f : Byte) (d : Dest) (a : Access)
  /-- CPFSEQ: compare f with W, skip if equal (R244). -/
  | cpfseq (f : Byte) (a : Access)
  /-- CPFSGT: compare f with W, skip if f is greater (R245). -/
  | cpfsgt (f : Byte) (a : Access)
  /-- CPFSLT: compare f with W, skip if f is less (R246). -/
  | cpfslt (f : Byte) (a : Access)
  /-- TSTFSZ: test f, skip if zero (R247). -/
  | tstfsz (f : Byte) (a : Access)
  /-- MULWF: multiply W by f, unsigned (R248). -/
  | mulwf (f : Byte) (a : Access)
  /-- MOVFF: move file register to file register (R250). -/
  | movff (f g : DataAddr)
  /-- BCF: clear bit b of f (R261). -/
  | bcf (f : Byte) (b : BitVec 3) (a : Access)
  /-- BSF: set bit b of f (R262). -/
  | bsf (f : Byte) (b : BitVec 3) (a : Access)
  /-- BTG: toggle bit b of f (R263). -/
  | btg (f : Byte) (b : BitVec 3) (a : Access)
  /-- BTFSC: test bit b of f, skip if clear (R264). -/
  | btfsc (f : Byte) (b : BitVec 3) (a : Access)
  /-- BTFSS: test bit b of f, skip if set (R265). -/
  | btfss (f : Byte) (b : BitVec 3) (a : Access)
  /-- ADDLW: add literal to W (R270). -/
  | addlw (k : Byte)
  /-- ANDLW: AND literal with W (R271). -/
  | andlw (k : Byte)
  /-- IORLW: inclusive OR literal with W (R272). -/
  | iorlw (k : Byte)
  /-- MOVLW: move literal to W (R273). -/
  | movlw (k : Byte)
  /-- SUBLW: subtract W from literal (R274). -/
  | sublw (k : Byte)
  /-- XORLW: exclusive OR literal with W (R275). -/
  | xorlw (k : Byte)
  /-- MULLW: multiply W by literal, unsigned (R278). -/
  | mullw (k : Byte)
  /-- MOVLB: move literal to BSR (R280). -/
  | movlb (k : Byte)
  /-- LFSR: load a 12-bit literal into an FSR; `ff` = 3 names none (R276). -/
  | lfsr (ff : BitVec 2) (k : DataAddr)
  /-- DAW: decimal adjust W (R277). -/
  | daw
  /-- NOP: no operation (R290). -/
  | nop
  /-- NOP: no operation, second form; `x` is ignored (R290). -/
  | nopx (x : BitVec 12)
  /-- CLRWDT: clear the watchdog timer (R291). -/
  | clrwdt
  /-- HALT: halt execution (R292). -/
  | halt
  /-- RESET: software reset (R293). -/
  | reset
  /-- SLEEP: enter power-down mode (R294). -/
  | sleep
  /-- TRAP: debugger trap (R295). -/
  | trap
  /-- TRET: return from debugger trap (R296). -/
  | tret
  /-- BC: branch if carry (R301). -/
  | bc (n : Byte)
  /-- BN: branch if negative (R302). -/
  | bn (n : Byte)
  /-- BNC: branch if not carry (R303). -/
  | bnc (n : Byte)
  /-- BNN: branch if not negative (R304). -/
  | bnn (n : Byte)
  /-- BNV: branch if not overflow (R305). -/
  | bnv (n : Byte)
  /-- BNZ: branch if not zero (R306). -/
  | bnz (n : Byte)
  /-- BV: branch if overflow (R307). -/
  | bv (n : Byte)
  /-- BZ: branch if zero (R308). -/
  | bz (n : Byte)
  /-- BRA: branch always (R309). -/
  | bra (n : BitVec 11)
  /-- RCALL: relative call (R310). -/
  | rcall (n : BitVec 11)
  /-- PUSH: push the address of the next instruction (R311). -/
  | push
  /-- POP: discard the top of the return stack (R312). -/
  | pop
  /-- RETURN: return from subroutine (R313). -/
  | ret (s : Bool)
  /-- RETFIE: return from interrupt (R314). -/
  | retfie (s : Bool)
  /-- RETLW: return with literal in W (R315). -/
  | retlw (k : Byte)
  /-- CALL: call a subroutine anywhere in program memory (R320). -/
  | call (k : BitVec 20) (s : Bool)
  /-- GOTO: jump anywhere in program memory (R321). -/
  | goto (k : BitVec 20)
  /-- TBLRD*: table read, pointer unchanged (R331). -/
  | tblrd
  /-- TBLRD*+: table read with post-increment (R332). -/
  | tblrdPostInc
  /-- TBLRD*-: table read with post-decrement (R333). -/
  | tblrdPostDec
  /-- TBLRD+*: table read with pre-increment (R334). -/
  | tblrdPreInc
  /-- TBLWT*: table write, pointer unchanged (R336). -/
  | tblwt
  /-- TBLWT*+: table write with post-increment (R337). -/
  | tblwtPostInc
  /-- TBLWT*-: table write with post-decrement (R338). -/
  | tblwtPostDec
  /-- TBLWT+*: table write with pre-increment (R339). -/
  | tblwtPreInc
  deriving DecidableEq, Repr

end Sys2Proof
end

