-- ==== Sys2Proof/WellFormed.lean ====
section
/-! DEFINITION. Which instruction terms are instructions. Every operand's width is in its type; the one reserved field
value is `ff` = 3 of LFSR (spec/30_encoding.md R143). -/

namespace Sys2Proof

/-- The term names an instruction the machine has (spec/30_encoding.md R143: "No other field has a reserved value"). -/
def Instr.wf : Instr → Bool
  | .addwf _ _ _ => true
  | .addwfc _ _ _ => true
  | .andwf _ _ _ => true
  | .comf _ _ _ => true
  | .decf _ _ _ => true
  | .incf _ _ _ => true
  | .iorwf _ _ _ => true
  | .movf _ _ _ => true
  | .rlcf _ _ _ => true
  | .rlncf _ _ _ => true
  | .rrcf _ _ _ => true
  | .rrncf _ _ _ => true
  | .subfwb _ _ _ => true
  | .subwf _ _ _ => true
  | .subwfb _ _ _ => true
  | .swapf _ _ _ => true
  | .xorwf _ _ _ => true
  | .movwf _ _ => true
  | .clrf _ _ => true
  | .negf _ _ => true
  | .setf _ _ => true
  | .decfsz _ _ _ => true
  | .dcfsnz _ _ _ => true
  | .incfsz _ _ _ => true
  | .icfsnz _ _ _ => true
  | .cpfseq _ _ => true
  | .cpfsgt _ _ => true
  | .cpfslt _ _ => true
  | .tstfsz _ _ => true
  | .mulwf _ _ => true
  | .movff _ _ => true
  | .bcf _ _ _ => true
  | .bsf _ _ _ => true
  | .btg _ _ _ => true
  | .btfsc _ _ _ => true
  | .btfss _ _ _ => true
  | .addlw _ => true
  | .andlw _ => true
  | .iorlw _ => true
  | .movlw _ => true
  | .sublw _ => true
  | .xorlw _ => true
  | .mullw _ => true
  | .movlb _ => true
  | .lfsr ff _ => ff != 3#2
  | .daw => true
  | .nop => true
  | .nopx _ => true
  | .clrwdt => true
  | .halt => true
  | .reset => true
  | .sleep => true
  | .trap => true
  | .tret => true
  | .bc _ => true
  | .bn _ => true
  | .bnc _ => true
  | .bnn _ => true
  | .bnv _ => true
  | .bnz _ => true
  | .bv _ => true
  | .bz _ => true
  | .bra _ => true
  | .rcall _ => true
  | .push => true
  | .pop => true
  | .ret _ => true
  | .retfie _ => true
  | .retlw _ => true
  | .call _ _ => true
  | .goto _ => true
  | .tblrd => true
  | .tblrdPostInc => true
  | .tblrdPostDec => true
  | .tblrdPreInc => true
  | .tblwt => true
  | .tblwtPostInc => true
  | .tblwtPostDec => true
  | .tblwtPreInc => true

/-- How many 16-bit words the instruction takes (spec/30_encoding.md R130). -/
def Instr.words : Instr → Nat
  | .addwf _ _ _ => 1
  | .addwfc _ _ _ => 1
  | .andwf _ _ _ => 1
  | .comf _ _ _ => 1
  | .decf _ _ _ => 1
  | .incf _ _ _ => 1
  | .iorwf _ _ _ => 1
  | .movf _ _ _ => 1
  | .rlcf _ _ _ => 1
  | .rlncf _ _ _ => 1
  | .rrcf _ _ _ => 1
  | .rrncf _ _ _ => 1
  | .subfwb _ _ _ => 1
  | .subwf _ _ _ => 1
  | .subwfb _ _ _ => 1
  | .swapf _ _ _ => 1
  | .xorwf _ _ _ => 1
  | .movwf _ _ => 1
  | .clrf _ _ => 1
  | .negf _ _ => 1
  | .setf _ _ => 1
  | .decfsz _ _ _ => 1
  | .dcfsnz _ _ _ => 1
  | .incfsz _ _ _ => 1
  | .icfsnz _ _ _ => 1
  | .cpfseq _ _ => 1
  | .cpfsgt _ _ => 1
  | .cpfslt _ _ => 1
  | .tstfsz _ _ => 1
  | .mulwf _ _ => 1
  | .movff _ _ => 2
  | .bcf _ _ _ => 1
  | .bsf _ _ _ => 1
  | .btg _ _ _ => 1
  | .btfsc _ _ _ => 1
  | .btfss _ _ _ => 1
  | .addlw _ => 1
  | .andlw _ => 1
  | .iorlw _ => 1
  | .movlw _ => 1
  | .sublw _ => 1
  | .xorlw _ => 1
  | .mullw _ => 1
  | .movlb _ => 1
  | .lfsr _ _ => 2
  | .daw => 1
  | .nop => 1
  | .nopx _ => 1
  | .clrwdt => 1
  | .halt => 1
  | .reset => 1
  | .sleep => 1
  | .trap => 1
  | .tret => 1
  | .bc _ => 1
  | .bn _ => 1
  | .bnc _ => 1
  | .bnn _ => 1
  | .bnv _ => 1
  | .bnz _ => 1
  | .bv _ => 1
  | .bz _ => 1
  | .bra _ => 1
  | .rcall _ => 1
  | .push => 1
  | .pop => 1
  | .ret _ => 1
  | .retfie _ => 1
  | .retlw _ => 1
  | .call _ _ => 2
  | .goto _ => 2
  | .tblrd => 1
  | .tblrdPostInc => 1
  | .tblrdPostDec => 1
  | .tblrdPreInc => 1
  | .tblwt => 1
  | .tblwtPostInc => 1
  | .tblwtPostDec => 1
  | .tblwtPreInc => 1

end Sys2Proof
end

