-- ==== Sys2Proof/Decode.lean ====
section
/-! DEFINITION. The decoder (spec/30_encoding.md R130 to R143, the decode map of R135 and R136), total on any words and
any bytes and rejecting by name, and after it the encoder, written from the same encodings. -/

namespace Sys2Proof

/-- Why words are no instruction. -/
inductive DecodeError where
  /-- The first word matches no row (spec/30_encoding.md R142). -/
  | undefinedOpcode
  /-- The word after a two-word first word has not the claimed form (spec/30_encoding.md R141). -/
  | badSecondWord
  /-- LFSR with `ff` = 3 (spec/30_encoding.md R143). -/
  | reservedFsr
  /-- The bytes end inside an instruction. -/
  | truncated
  deriving DecidableEq, Repr

/-! ### Fields (spec/30_encoding.md R132, R133) -/

/-- `w[7:0]`: the file field, a literal or a word offset. -/
def Word.low (w : Word) : Byte := w.extractLsb' 0 8

/-- `d` = bit 9. -/
def Word.dest (w : Word) : Dest := if w.getLsbD 9 then .file else .w

/-- `a` = bit 8. -/
def Word.access (w : Word) : Access := if w.getLsbD 8 then .banked else .virt

/-- `b` = bits 11:9. -/
def Word.bitNumber (w : Word) : BitVec 3 := w.extractLsb' 9 3

/-- Bits 11:0. -/
def Word.low12 (w : Word) : BitVec 12 := w.extractLsb' 0 12

/-! ### The decode map -/

/-- The `CTRL` group by its low byte (spec/30_encoding.md R136). -/
def decodeCtrl (w : Word) : Except DecodeError Instr :=
  match w.low.toNat with
  | 0x00 => .ok .nop
  | 0x01 => .ok .halt
  | 0x03 => .ok .sleep
  | 0x04 => .ok .clrwdt
  | 0x05 => .ok .push
  | 0x06 => .ok .pop
  | 0x07 => .ok .daw
  | 0x08 => .ok .tblrd
  | 0x09 => .ok .tblrdPostInc
  | 0x0A => .ok .tblrdPostDec
  | 0x0B => .ok .tblrdPreInc
  | 0x0C => .ok .tblwt
  | 0x0D => .ok .tblwtPostInc
  | 0x0E => .ok .tblwtPostDec
  | 0x0F => .ok .tblwtPreInc
  | 0x10 => .ok (.retfie false)
  | 0x11 => .ok (.retfie true)
  | 0x12 => .ok (.ret false)
  | 0x13 => .ok (.ret true)
  | 0xE0 => .ok .trap
  | 0xE1 => .ok .tret
  | 0xFF => .ok .reset
  | _ => .error .undefinedOpcode

/-- The row `0000 xxxx` of the decode map, by bits 11:8 (spec/30_encoding.md R135). -/
def decodeRow0 (w : Word) : Except DecodeError Instr :=
  match (w.extractLsb' 8 4).toNat with
  | 0x0 => decodeCtrl w
  | 0x1 => .ok (.movlb w.low)
  | 0x2 => .ok (.mulwf w.low w.access)
  | 0x3 => .ok (.mulwf w.low w.access)
  | 0x4 => .ok (.decf w.low w.dest w.access)
  | 0x5 => .ok (.decf w.low w.dest w.access)
  | 0x6 => .ok (.decf w.low w.dest w.access)
  | 0x7 => .ok (.decf w.low w.dest w.access)
  | 0x8 => .ok (.sublw w.low)
  | 0x9 => .ok (.iorlw w.low)
  | 0xA => .ok (.xorlw w.low)
  | 0xB => .ok (.andlw w.low)
  | 0xC => .ok (.retlw w.low)
  | 0xD => .ok (.mullw w.low)
  | 0xE => .ok (.movlw w.low)
  | _ => .ok (.addlw w.low)

/-- A row of four `BYTE_DA` instructions, by bits 11:10 (spec/30_encoding.md R135). -/
def decodeByteRow (w : Word) (i0 i1 i2 i3 : Byte → Dest → Access → Instr) : Except DecodeError Instr :=
  match (w.extractLsb' 10 2).toNat with
  | 0 => .ok (i0 w.low w.dest w.access)
  | 1 => .ok (i1 w.low w.dest w.access)
  | 2 => .ok (i2 w.low w.dest w.access)
  | _ => .ok (i3 w.low w.dest w.access)

/-- The row `0110 xxxx` of the decode map, by bits 11:9 (spec/30_encoding.md R135). -/
def decodeRow6 (w : Word) : Except DecodeError Instr :=
  match (w.extractLsb' 9 3).toNat with
  | 0 => .ok (.cpfslt w.low w.access)
  | 1 => .ok (.cpfseq w.low w.access)
  | 2 => .ok (.cpfsgt w.low w.access)
  | 3 => .ok (.tstfsz w.low w.access)
  | 4 => .ok (.setf w.low w.access)
  | 5 => .ok (.clrf w.low w.access)
  | 6 => .ok (.negf w.low w.access)
  | _ => .ok (.movwf w.low w.access)

/-- A second word of the form `1111 ....` (spec/30_encoding.md R141). -/
def secondWordOk (w2 : Word) : Bool := w2.extractLsb' 12 4 == 0xF#4

/-- The word address of CALL and GOTO: `k = w2[11:0] : w1[7:0]` (spec/30_encoding.md R134). -/
def joinWordAddr (w1 w2 : Word) : BitVec 20 := (w2.low12 ++ w1.low).setWidth 20

/-- LFSR: `1110 1110 00ff kkkk` then `1111 0000 kkkk kkkk` (spec/30_encoding.md R132, R141 to R143). -/
def decodeLfsr (w1 w2 : Word) : Except DecodeError Instr :=
  if w1.extractLsb' 6 2 != 0#2 then .error .undefinedOpcode
  else if w1.extractLsb' 4 2 == 3#2 then .error .reservedFsr
  else if w2.extractLsb' 8 8 != 0xF0#8 then .error .badSecondWord
  else .ok (.lfsr (w1.extractLsb' 4 2) ((w1.extractLsb' 0 4 ++ w2.low).setWidth 12))

/-- The row `1110 xxxx` of the decode map, by bits 11:8 (spec/30_encoding.md R135). -/
def decodeRow14 (w1 w2 : Word) : Except DecodeError Instr :=
  match (w1.extractLsb' 8 4).toNat with
  | 0x0 => .ok (.bz w1.low)
  | 0x1 => .ok (.bnz w1.low)
  | 0x2 => .ok (.bc w1.low)
  | 0x3 => .ok (.bnc w1.low)
  | 0x4 => .ok (.bv w1.low)
  | 0x5 => .ok (.bnv w1.low)
  | 0x6 => .ok (.bn w1.low)
  | 0x7 => .ok (.bnn w1.low)
  | 0xC => if secondWordOk w2 then .ok (.call (joinWordAddr w1 w2) false) else .error .badSecondWord
  | 0xD => if secondWordOk w2 then .ok (.call (joinWordAddr w1 w2) true) else .error .badSecondWord
  | 0xE => decodeLfsr w1 w2
  | 0xF => if secondWordOk w2 then .ok (.goto (joinWordAddr w1 w2)) else .error .badSecondWord
  | _ => .error .undefinedOpcode

/-- The decode map, by bits 15:12 of the first word (spec/30_encoding.md R135, R139). `w2` is the word after it, which
only a two-word instruction reads. -/
def decode (w1 w2 : Word) : Except DecodeError Instr :=
  match (w1.extractLsb' 12 4).toNat with
  | 0x0 => decodeRow0 w1
  | 0x1 => decodeByteRow w1 .iorwf .andwf .xorwf .comf
  | 0x2 => decodeByteRow w1 .addwfc .addwf .incf .decfsz
  | 0x3 => decodeByteRow w1 .rrcf .rlcf .swapf .incfsz
  | 0x4 => decodeByteRow w1 .rrncf .rlncf .icfsnz .dcfsnz
  | 0x5 => decodeByteRow w1 .movf .subfwb .subwfb .subwf
  | 0x6 => decodeRow6 w1
  | 0x7 => .ok (.btg w1.low w1.bitNumber w1.access)
  | 0x8 => .ok (.bsf w1.low w1.bitNumber w1.access)
  | 0x9 => .ok (.bcf w1.low w1.bitNumber w1.access)
  | 0xA => .ok (.btfss w1.low w1.bitNumber w1.access)
  | 0xB => .ok (.btfsc w1.low w1.bitNumber w1.access)
  | 0xC => if secondWordOk w2 then .ok (.movff w1.low12 w2.low12) else .error .badSecondWord
  | 0xD => .ok (if w1.getLsbD 11 then .rcall (w1.extractLsb' 0 11) else .bra (w1.extractLsb' 0 11))
  | 0xE => decodeRow14 w1 w2
  | _ => .ok (.nopx w1.low12)

/-- The first word announces a second: MOVFF, CALL, LFSR, GOTO (spec/30_encoding.md R130). -/
def isTwoWord (w1 : Word) : Bool :=
  w1.extractLsb' 12 4 == 0xC#4 || w1.extractLsb' 10 6 == 0b111011#6

/-- The word at an even address: the byte at the higher address is its high byte (spec/20_memory.md R81). -/
def wordOfBytes (lo hi : Byte) : Word := (hi ++ lo).setWidth 16

/-- The bytes of a word, the one at the lower address first (spec/20_memory.md R81). -/
def bytesOfWord (w : Word) : List Byte := [w.extractLsb' 0 8, w.extractLsb' 8 8]

/-- The instruction at the head of `bytes` and the bytes after it. -/
def decodeBytes (bytes : List Byte) : Except DecodeError (Instr × List Byte) :=
  match bytes with
  | b0 :: b1 :: rest =>
    if isTwoWord (wordOfBytes b0 b1) then
      match rest with
      | b2 :: b3 :: rest2 =>
        match decode (wordOfBytes b0 b1) (wordOfBytes b2 b3) with
        | .ok i => .ok (i, rest2)
        | .error e => .error e
      | _ => .error .truncated
    else
      match decode (wordOfBytes b0 b1) 0#16 with
      | .ok i => .ok (i, rest)
      | .error e => .error e
  | _ => .error .truncated

/-! ### The encoder -/

/-- The bit of `d`. -/
def Dest.bit : Dest → BitVec 1
  | .w => 0#1
  | .file => 1#1

/-- The bit of `a`. -/
def Access.bit : Access → BitVec 1
  | .virt => 0#1
  | .banked => 1#1

/-- Format `BYTE_DA`: `oooo ooda ffff ffff` (spec/30_encoding.md R132). -/
def encByteDA (op : BitVec 6) (f : Byte) (d : Dest) (a : Access) : Word :=
  (op ++ d.bit ++ a.bit ++ f).setWidth 16

/-- Format `BYTE_A`: `oooo oooa ffff ffff`. -/
def encByteA (op : BitVec 7) (f : Byte) (a : Access) : Word := (op ++ a.bit ++ f).setWidth 16

/-- Format `BIT`: `oooo bbba ffff ffff`. -/
def encBit (op : BitVec 4) (f : Byte) (b : BitVec 3) (a : Access) : Word :=
  (op ++ b ++ a.bit ++ f).setWidth 16

/-- Formats `LIT8` and `BR8`: eight opcode bits and eight operand bits. -/
def encLit (op : Byte) (k : Byte) : Word := (op ++ k).setWidth 16

/-- Format `BR11`: `1101 onnn nnnn nnnn`. -/
def encBr11 (op : BitVec 5) (n : BitVec 11) : Word := (op ++ n).setWidth 16

/-- Four fixed bits and twelve operand bits: `NOP2`, both words of `MOVFF2`, the second words of `CALL2`, `GOTO2`. -/
def encLow12 (op : BitVec 4) (x : BitVec 12) : Word := (op ++ x).setWidth 16

/-- Format `CTRL_S`: fifteen fixed bits and `s`. -/
def encCtrlS (op : BitVec 15) (s : Bool) : Word := (op ++ BitVec.ofBool s).setWidth 16

/-- The words of an instruction (the encodings of spec/opcode_table.json and spec/30_encoding.md R132). -/
def encode : Instr → List Word
  | .addwf f d a => [encByteDA 0b001001#6 f d a]
  | .addwfc f d a => [encByteDA 0b001000#6 f d a]
  | .andwf f d a => [encByteDA 0b000101#6 f d a]
  | .comf f d a => [encByteDA 0b000111#6 f d a]
  | .decf f d a => [encByteDA 0b000001#6 f d a]
  | .incf f d a => [encByteDA 0b001010#6 f d a]
  | .iorwf f d a => [encByteDA 0b000100#6 f d a]
  | .movf f d a => [encByteDA 0b010100#6 f d a]
  | .rlcf f d a => [encByteDA 0b001101#6 f d a]
  | .rlncf f d a => [encByteDA 0b010001#6 f d a]
  | .rrcf f d a => [encByteDA 0b001100#6 f d a]
  | .rrncf f d a => [encByteDA 0b010000#6 f d a]
  | .subfwb f d a => [encByteDA 0b010101#6 f d a]
  | .subwf f d a => [encByteDA 0b010111#6 f d a]
  | .subwfb f d a => [encByteDA 0b010110#6 f d a]
  | .swapf f d a => [encByteDA 0b001110#6 f d a]
  | .xorwf f d a => [encByteDA 0b000110#6 f d a]
  | .movwf f a => [encByteA 0b0110111#7 f a]
  | .clrf f a => [encByteA 0b0110101#7 f a]
  | .negf f a => [encByteA 0b0110110#7 f a]
  | .setf f a => [encByteA 0b0110100#7 f a]
  | .decfsz f d a => [encByteDA 0b001011#6 f d a]
  | .dcfsnz f d a => [encByteDA 0b010011#6 f d a]
  | .incfsz f d a => [encByteDA 0b001111#6 f d a]
  | .icfsnz f d a => [encByteDA 0b010010#6 f d a]
  | .cpfseq f a => [encByteA 0b0110001#7 f a]
  | .cpfsgt f a => [encByteA 0b0110010#7 f a]
  | .cpfslt f a => [encByteA 0b0110000#7 f a]
  | .tstfsz f a => [encByteA 0b0110011#7 f a]
  | .mulwf f a => [encByteA 0b0000001#7 f a]
  | .movff f g => [encLow12 0b1100#4 f, encLow12 0b1111#4 g]
  | .bcf f b a => [encBit 0b1001#4 f b a]
  | .bsf f b a => [encBit 0b1000#4 f b a]
  | .btg f b a => [encBit 0b0111#4 f b a]
  | .btfsc f b a => [encBit 0b1011#4 f b a]
  | .btfss f b a => [encBit 0b1010#4 f b a]
  | .addlw k => [encLit 0b00001111#8 k]
  | .andlw k => [encLit 0b00001011#8 k]
  | .iorlw k => [encLit 0b00001001#8 k]
  | .movlw k => [encLit 0b00001110#8 k]
  | .sublw k => [encLit 0b00001000#8 k]
  | .xorlw k => [encLit 0b00001010#8 k]
  | .mullw k => [encLit 0b00001101#8 k]
  | .movlb k => [encLit 0b00000001#8 k]
  | .lfsr ff k => [(0b1110111000#10 ++ ff ++ k.extractLsb' 8 4).setWidth 16, encLit 0b11110000#8 (k.extractLsb' 0 8)]
  | .daw => [0x0007#16]
  | .nop => [0x0000#16]
  | .nopx x => [encLow12 0b1111#4 x]
  | .clrwdt => [0x0004#16]
  | .halt => [0x0001#16]
  | .reset => [0x00FF#16]
  | .sleep => [0x0003#16]
  | .trap => [0x00E0#16]
  | .tret => [0x00E1#16]
  | .bc n => [encLit 0b11100010#8 n]
  | .bn n => [encLit 0b11100110#8 n]
  | .bnc n => [encLit 0b11100011#8 n]
  | .bnn n => [encLit 0b11100111#8 n]
  | .bnv n => [encLit 0b11100101#8 n]
  | .bnz n => [encLit 0b11100001#8 n]
  | .bv n => [encLit 0b11100100#8 n]
  | .bz n => [encLit 0b11100000#8 n]
  | .bra n => [encBr11 0b11010#5 n]
  | .rcall n => [encBr11 0b11011#5 n]
  | .push => [0x0005#16]
  | .pop => [0x0006#16]
  | .ret fast => [encCtrlS 0b000000000001001#15 fast]
  | .retfie fast => [encCtrlS 0b000000000001000#15 fast]
  | .retlw k => [encLit 0b00001100#8 k]
  | .call k fast => [(0b1110110#7 ++ BitVec.ofBool fast ++ k.extractLsb' 0 8).setWidth 16, encLow12 0b1111#4 (k.extractLsb' 8 12)]
  | .goto k => [encLit 0b11101111#8 (k.extractLsb' 0 8), encLow12 0b1111#4 (k.extractLsb' 8 12)]
  | .tblrd => [0x0008#16]
  | .tblrdPostInc => [0x0009#16]
  | .tblrdPostDec => [0x000A#16]
  | .tblrdPreInc => [0x000B#16]
  | .tblwt => [0x000C#16]
  | .tblwtPostInc => [0x000D#16]
  | .tblwtPostDec => [0x000E#16]
  | .tblwtPreInc => [0x000F#16]

/-- The bytes of an instruction in program memory, lowest address first (spec/20_memory.md R81). -/
def encodeBytes (i : Instr) : List Byte := (encode i).flatMap bytesOfWord

/-- The first `n` bytes of the number `w`, least significant first. -/
def bytesOfNat : Nat → Nat → List Byte
  | 0, _ => []
  | n + 1, w => BitVec.ofNat 8 w :: bytesOfNat n (w / 256)

/-- The instruction the decoder reads from an instruction whose bits are `w`, numbered as spec/opcode_table.json
numbers them, every bit at or above `nbits` being 0. -/
def decodeTableWord (nbits w : Nat) : Option Instr :=
  match decodeBytes (bytesOfNat 4 (w % 2 ^ nbits)) with
  | .ok (i, _) => some i
  | .error _ => none

end Sys2Proof
end

