-- ==== Sys2Proof/Machine/State.lean ====
section
/-! DEFINITION. The machine's state as plain data (spec/10_state.md), the reasons a step can stop, and the state right
after reset. INVENTORY.md lists every field with the rule that names it. -/

namespace Sys2Proof.Machine

open Sys2Proof

/-- The five implemented bits of STATUS (spec/10_state.md R22); bits 7:5 are no storage. -/
structure Status where
  /-- Negative, bit 4. -/
  n : Bool
  /-- Overflow, bit 3. -/
  ov : Bool
  /-- Zero, bit 2. -/
  z : Bool
  /-- Digit carry, bit 1. -/
  dc : Bool
  /-- Carry, bit 0. -/
  c : Bool
  deriving DecidableEq, Repr

/-- The run state (spec/10_state.md R48). -/
inductive RunState where
  | running | sleeping | halted
  deriving DecidableEq, Repr

/-- Which stack error waits to reset the device (spec/70_reset_and_hazards.md R451). -/
inductive StackError where
  | overflow | underflow
  deriving DecidableEq, Repr

/-- The causes of a reset (spec/70_reset_and_hazards.md R452); the RESET instruction is an `mclr` reset. -/
inductive ResetCause where
  | por | mclr | wdt | bor | stackOverflow | stackUnderflow
  deriving DecidableEq, Repr

/-- The environment's inputs, sampled once per iteration of the run loop (spec/60_exceptions.md R411, R430). -/
structure Inputs where
  resetRequest : Option ResetCause
  wdtTimeout : Bool
  wakeRequest : Bool
  irqHigh : Bool
  irqLow : Bool
  /-- The byte a peripheral SFR presents if this iteration reads one (spec/20_memory.md R99); `none`: the
  environment names none, and the read gives a free value. -/
  periph : Option Byte
  deriving DecidableEq, Repr

/-- "A model without an environment takes all of them false" (spec/60_exceptions.md R430). -/
def Inputs.quiet : Inputs where
  resetRequest := none
  wdtTimeout := false
  wakeRequest := false
  irqHigh := false
  irqLow := false
  periph := none

/-- The core's outputs to the environment, recorded in the trace of a run (spec/60_exceptions.md R411, R420;
spec/44_system_ops.md R297; spec/20_memory.md R93; spec/46_table_ops.md R335). Log entry 42 maps the ports of R420 to
these. -/
inductive Event where
  /-- CLRWDT resets the watchdog timer. -/
  | clearWdt
  /-- SLEEP: PD is cleared, TO set, the watchdog and its postscaler cleared, all in the environment. -/
  | enterSleep
  /-- A read of a peripheral SFR or of GIE_REG: the strobe `nqrd` with the address. -/
  | sfrRead (a : DataAddr)
  /-- A write to a peripheral SFR: the strobe `nwrf` with the address, the byte on `db`. -/
  | sfrWrite (a : DataAddr) (v : Byte)
  /-- Bits 5:0 of a write to GIE_REG. -/
  | gieRest (v : BitVec 6)
  /-- A table write: the strobe `wrtbl` with the address and the table latch data `np`; `stored` says that the memory
  was strobed too (`writem` or `wreprom`) and took the byte. -/
  | tableWrite (a : ProgAddr) (v : Byte) (stored : Bool)
  deriving DecidableEq, Repr

/-- Bytes by address, in one canonical form (`Memory.wf` in Machine/Ops.lean): addresses strictly rising, no entry
equal to what an unlisted address reads as. -/
abbrev Memory := List Host.Cell

/-- What a byte that no entry lists reads as. Program memory: spec/95_test_vectors.md section 3 ("every program memory byte
not listed is 00h"). Data memory: DESIGN CHOICE, unsafe (log entry 7): the spec gives a GPR no value at reset. -/
def Memory.unlisted : Byte := 0#8

/-- Everything the spec gives the machine. -/
structure State where
  /-- W (R21). -/
  w : Byte
  /-- STATUS (R22). -/
  status : Status
  /-- BSR[3:0] (R26). -/
  bsr : BitVec 4
  /-- FSR0 (R27). -/
  fsr0 : DataAddr
  /-- FSR1 (R27). -/
  fsr1 : DataAddr
  /-- FSR2 (R27). -/
  fsr2 : DataAddr
  /-- pc[20:0] (R29). -/
  pc : ProgAddr
  /-- The hidden pc bit 21 (R29); 0 in normal operation. -/
  pcHidden : Bool
  /-- PCLATH (R32). -/
  pclath : Byte
  /-- PCLATU[4:0] (R32). -/
  pclatu : BitVec 5
  /-- stack[1..31] (R33); stack[j] is element j - 1. -/
  stack : Vector ProgAddr 31
  /-- SP = STKPTR[4:0] (R34). -/
  sp : BitVec 5
  /-- STKOVF (R34). -/
  stkovf : Bool
  /-- STKUNF (R34). -/
  stkunf : Bool
  /-- PRODH (R39). -/
  prodh : Byte
  /-- PRODL (R39). -/
  prodl : Byte
  /-- TBLPTR (R40). -/
  tblptr : ProgAddr
  /-- TABLAT (R40). -/
  tablat : Byte
  /-- WS, the shadow of W (R41). -/
  ws : Byte
  /-- STATUSS, the shadow of STATUS (R41). -/
  statuss : Status
  /-- BSRS, the shadow of BSR (R41). -/
  bsrs : BitVec 4
  /-- The GPRs of data memory (R42), by data address. -/
  ram : Memory
  /-- User program memory (R46), by byte address. -/
  pm : Memory
  /-- GIEH (spec/60_exceptions.md R411). -/
  gieh : Bool
  /-- GIEL (spec/60_exceptions.md R411). -/
  giel : Bool
  /-- The run state (R48). -/
  run : RunState
  /-- `stack_reset_pending` (spec/70_reset_and_hazards.md R451). -/
  stackReset : Option StackError
  /-- The word fetched before a table write stored a byte, to be executed next (R49 (a); spec/20_memory.md R115). -/
  prefetch : Option Word
  /-- The device parameters, constant during a run (R50). -/
  dev : Device
  /-- The inputs in force since the last instruction boundary. -/
  env : Inputs
  /-- The inputs of the boundaries to come, the next one first; none left means no input. -/
  inputs : List Inputs
  /-- The outputs so far, the latest first. -/
  trace : List Event
  /-- The model's own: how many free values have been drawn. -/
  free : Nat
  deriving DecidableEq, Repr

/-- Why the machine could stop with a fault. The core raises no synchronous exception: "the set of exception codes is
empty" (spec/60_exceptions.md R400). -/
inductive Fault where
  deriving DecidableEq, Repr

/-- Why the model refuses to go on. Each is safe: the model stops where the spec's own model refuses. -/
inductive Refusal where
  /-- Raised by `exec` for an instruction with no meaning yet. Safe. -/
  | notModelled (mnemonic : String)
  /-- Raised by the fetch of a word that matches no row (spec/30_encoding.md R142). Safe. -/
  | undefinedOpcode (w : Word)
  /-- Raised by the fetch of a two-word instruction whose second word has not the claimed form
  (spec/30_encoding.md R141). Safe. -/
  | badSecondWord (w1 w2 : Word)
  /-- Raised by LFSR with `ff` = 3, in the fetch and in the meaning (spec/30_encoding.md R143). Safe. -/
  | reservedFsr
  /-- Raised by TRAP and TRET (spec/44_system_ops.md R295, R296: `Refuse(DebuggerTrap)`). Safe. -/
  | debuggerTrap
  /-- Raised by the fetch with the hidden pc bit 21 set (spec/00_scope.md R5). Safe. -/
  | testMemory
  deriving DecidableEq, Repr

/-- All flags 0. -/
def Status.zero : Status where
  n := false
  ov := false
  z := false
  dc := false
  c := false

/-- The machine right after `Reset(POR)` (spec/10_state.md R60; spec/70_reset_and_hazards.md R450): pc, the hidden
bit, SP, STKOVF, STKUNF, the run state, the pending reset and the enables are the spec's; every other register's value is
the one log entries 3 and 7 name (unsafe); program memory lists nothing (log entry 1). -/
def State.reset : State where
  w := 0#8
  status := Status.zero
  bsr := 0#4
  fsr0 := 0#12
  fsr1 := 0#12
  fsr2 := 0#12
  pc := 0#21
  pcHidden := false
  pclath := 0#8
  pclatu := 0#5
  stack := Vector.replicate 31 0#21
  sp := 0#5
  stkovf := false
  stkunf := false
  prodh := 0#8
  prodl := 0#8
  tblptr := 0#21
  tablat := 0#8
  ws := 0#8
  statuss := Status.zero
  bsrs := 0#4
  ram := []
  pm := []
  gieh := false
  giel := false
  run := .running
  stackReset := none
  prefetch := none
  dev := Config.device
  env := Inputs.quiet
  inputs := []
  trace := []
  free := 0

end Sys2Proof.Machine
end

