-- ==== Sys2Proof/Machine/Ops.lean ====
section
/-! DEFINITION. The named operations over memory, registers and the stack; reset; interrupt entry (the taking of an
exception) and the return from one. Every meaning goes through these. -/

namespace Sys2Proof.Machine

open Sys2Proof

/-- The outcome of one instruction or one step. -/
abbrev Result := Host.Outcome State Fault Refusal

/-! ### Memory -/

/-- One byte: the entry of the address, or what an unlisted address reads as. -/
def Memory.read : Memory → Nat → Byte
  | [], _ => Memory.unlisted
  | (b, v) :: rest, a => if b = a then v else Memory.read rest a

/-- Stores one byte and keeps the canonical form: writing what an unlisted address reads as removes the entry. -/
def Memory.write : Memory → Nat → Byte → Memory
  | [], a, v => if v = Memory.unlisted then [] else [(a, v)]
  | (b, u) :: rest, a, v =>
    if a < b then (if v = Memory.unlisted then (b, u) :: rest else (a, v) :: (b, u) :: rest)
    else if a = b then (if v = Memory.unlisted then rest else (a, v) :: rest)
    else (b, u) :: Memory.write rest a v

/-- Canonical with every address at least `lo`: addresses strictly rising, no entry equal to what an unlisted address
reads as. -/
def Memory.wfFrom : Nat → Memory → Bool
  | _, [] => true
  | lo, (a, v) :: rest => decide (lo ≤ a) && (v != Memory.unlisted) && Memory.wfFrom (a + 1) rest

/-- The canonical form of a memory. -/
def Memory.wf (m : Memory) : Bool := Memory.wfFrom 0 m

/-- The `k` data bytes from address `a` on as a reset leaves them: free values, in canonical form. -/
def Memory.afterResetFrom (draw : Nat) : Nat → Nat → Memory
  | 0, _ => []
  | k + 1, a =>
    if (Config.resetValue draw (.gpr a)).setWidth 8 = Memory.unlisted then Memory.afterResetFrom draw k (a + 1)
    else (a, (Config.resetValue draw (.gpr a)).setWidth 8) :: Memory.afterResetFrom draw k (a + 1)

/-- The 4096 locations of data memory after a reset (spec/10_state.md R60, R61: unspecified after any reset). -/
def Memory.afterReset (draw : Nat) : Memory := Memory.afterResetFrom draw 4096 0

/-! ### What a data address is -/

/-- What a data-memory address denotes (spec/10_state.md R42). -/
inductive Place where
  | gpr
  | sfr (r : Sfr)
  /-- The byte holding the global interrupt enables (spec/60_exceptions.md R411). -/
  | gie
  | peripheral
  | unimplemented
  deriving DecidableEq, Repr

/-- The register an address denotes in a map. -/
def lookupSfr : List (DataAddr × Sfr) → DataAddr → Option Sfr
  | [], _ => none
  | (b, r) :: rest, t => if b = t then some r else lookupSfr rest t

/-- The kind of the first region that holds the address. -/
def lookupRegion : List DataRegion → Nat → Option RegionKind
  | [], _ => none
  | r :: rest, a => if r.lo ≤ a ∧ a ≤ r.hi then some r.kind else lookupRegion rest a

/-- The address is in one of the regions. -/
def inProgRegions : List ProgRegion → Nat → Bool
  | [], _ => false
  | r :: rest, a => (decide (r.lo ≤ a) && decide (a ≤ r.hi)) || inProgRegions rest a

/-- What an address denotes on a device: 000h to 07Fh is GPR on every device (spec/10_state.md R43); then the core
registers of SFR_MAP (R45), GIE_REG (spec/60_exceptions.md R411), and the device's data map; all else is unimplemented
(R42). -/
def placeOf (dev : Device) (t : DataAddr) : Place :=
  if t.toNat < 0x80 then .gpr
  else
    match lookupSfr dev.sfrMap t with
    | some r => .sfr r
    | none =>
      if t = dev.gieReg then .gie
      else
        match lookupRegion dev.dataMap t.toNat with
        | some .gpr => .gpr
        | some .peripheral => .peripheral
        | none => .unimplemented

/-- What an address denotes on this machine. -/
def State.place (s : State) (t : DataAddr) : Place := placeOf s.dev t

/-! ### Registers -/

/-- STATUS as a byte: bits 7:5 read 0 (spec/10_state.md R22). -/
def Status.toByte (x : Status) : Byte :=
  (0#3 ++ BitVec.ofBool x.n ++ BitVec.ofBool x.ov ++ BitVec.ofBool x.z ++ BitVec.ofBool x.dc ++ BitVec.ofBool x.c).setWidth 8

/-- The five flags of a byte; its bits 7:5 are dropped (spec/10_state.md R22, R25). -/
def Status.ofByte (v : Byte) : Status where
  n := v.getLsbD 4
  ov := v.getLsbD 3
  z := v.getLsbD 2
  dc := v.getLsbD 1
  c := v.getLsbD 0

/-- W takes a value. -/
def State.setW (s : State) (v : Byte) : State := { s with w := v }

/-- STATUS takes a value. -/
def State.setStatus (s : State) (x : Status) : State := { s with status := x }

/-- FSRn (spec/10_state.md R27). -/
def State.fsr (s : State) (n : Fsr) : DataAddr :=
  match n with
  | .fsr0 => s.fsr0
  | .fsr1 => s.fsr1
  | .fsr2 => s.fsr2

/-- FSRn takes a value. -/
def State.setFsr (s : State) (n : Fsr) (v : DataAddr) : State :=
  match n with
  | .fsr0 => { s with fsr0 := v }
  | .fsr1 => { s with fsr1 := v }
  | .fsr2 => { s with fsr2 := v }

/-- What the pc stores of a target: bit 0 is 0 (spec/10_state.md R29: `pc <- t` stores `t[20:1] : 0`). -/
def evenTarget (t : ProgAddr) : ProgAddr := (t.extractLsb' 1 20 ++ 0#1).setWidth 21

/-- `pc <- t` (spec/10_state.md R29). -/
def State.setPc (s : State) (t : ProgAddr) : State := { s with pc := evenTarget t }

/-- `Skip()`: the next word is discarded (spec/30_encoding.md R146). -/
def State.skip (s : State) : State := s.setPc (s.pc + 2#21)

/-- `Skip()` if the condition holds. -/
def State.skipIf (s : State) (b : Bool) : State := if b then s.skip else s

/-- PCLATH and PCLATU take bits 15:8 and 20:16 of a program address (spec/10_state.md R32 (a), (c)). -/
def State.loadLatches (s : State) (t : ProgAddr) : State :=
  { s with pclath := t.extractLsb' 8 8, pclatu := t.extractLsb' 16 5 }

/-- The address a write of `v` to PCL jumps to: `PCLATU : PCLATH : v` (spec/20_memory.md R95). -/
def State.pclTarget (s : State) (v : Byte) : ProgAddr := (s.pclatu ++ s.pclath ++ v).setWidth 21

/-- One output to the environment. -/
def State.emit (s : State) (e : Event) : State := { s with trace := e :: s.trace }

/-- One free value has been drawn. -/
def State.draw (s : State) : State := { s with free := s.free + 1 }

/-- The byte the environment presents to a read of the peripheral SFR at `t` (spec/20_memory.md R99): the sampled
input, or a free value where the sample names none. The address and the read strobe go out (spec/60_exceptions.md R420). -/
def State.periphRead (s : State) (t : DataAddr) : Byte × State :=
  match s.env.periph with
  | some v => (v, s.emit (.sfrRead t))
  | none => (Config.peripheralByte s.free, (s.emit (.sfrRead t)).draw)

/-! ### The return stack (spec/10_state.md R33 to R38) -/

/-- `stack[SP]`, 0 where SP = 0 (spec/10_state.md R35). -/
def State.tos (s : State) : ProgAddr := if s.sp = 0#5 then 0#21 else (s.stack[s.sp.toNat - 1]?).getD 0#21

/-- `stack[SP] <- v`; nothing where SP = 0 (spec/10_state.md R35). -/
def State.setTos (s : State) (v : ProgAddr) : State :=
  if s.sp = 0#5 then s else { s with stack := s.stack.setIfInBounds (s.sp.toNat - 1) v }

/-- `stack_reset_pending <- cause` where STVRE is enabled (spec/70_reset_and_hazards.md R451). -/
def State.stackError (s : State) (e : StackError) : State :=
  if s.dev.stvre then { s with stackReset := some e } else s

/-- `Push(v)` (spec/10_state.md R36). -/
def State.push (s : State) (v : ProgAddr) : State :=
  if s.sp.toNat < 31 then ({ s with sp := s.sp + 1#5 }).setTos v
  else ({ s.setTos v with stkovf := true }).stackError .overflow

/-- `Pop()`: the value and the state after (spec/10_state.md R37). -/
def State.pop (s : State) : ProgAddr × State :=
  if s.sp = 0#5 then (0#21, ({ s with stkunf := true }).stackError .underflow)
  else (s.tos, { s with sp := s.sp - 1#5 })

/-! ### Shadow registers (spec/10_state.md R41) -/

/-- WS, STATUSS, BSRS take W, STATUS, BSR. -/
def State.saveShadow (s : State) : State := { s with ws := s.w, statuss := s.status, bsrs := s.bsr }

/-- W, STATUS, BSR take WS, STATUSS, BSRS. -/
def State.restoreShadow (s : State) : State := { s with w := s.ws, status := s.statuss, bsr := s.bsrs }

/-! ### Program memory (spec/20_memory.md R107 to R112) -/

/-- The address is in on-chip program memory that the mode does not ignore (spec/20_memory.md R107, R109). -/
def internalPm (dev : Device) (a : ProgAddr) : Bool :=
  match dev.pmMode with
  | .mp => false
  | .emc | .pemc | .mc | .pmc => inProgRegions dev.pmImplemented a.toNat

/-- The address is on the external bus (spec/20_memory.md R109). -/
def externalPm (dev : Device) (a : ProgAddr) : Bool :=
  match dev.pmMode with
  | .mp => true
  | .emc | .pemc => !inProgRegions dev.pmImplemented a.toNat
  | .mc | .pmc => false

/-- `PMRead8(A)`: "Any access beyond the program memory reads all zeros" (spec/20_memory.md R109, R110). -/
def State.pmRead8 (s : State) (a : ProgAddr) : Byte :=
  if internalPm s.dev a || externalPm s.dev a then Memory.read s.pm a.toNat else 0#8

/-- `PMRead16(A) = PMRead8(A + 1) : PMRead8(A)` (spec/20_memory.md R81). -/
def State.pmRead16 (s : State) (a : ProgAddr) : Word := (s.pmRead8 (a + 1#21) ++ s.pmRead8 a).setWidth 16

/-- Where Table 2 prevents a table read: internal memory in PEMC mode (spec/20_memory.md R108, R110). -/
def tableReadPrevented (dev : Device) (a : ProgAddr) : Bool :=
  match dev.pmMode with
  | .pemc => internalPm dev a
  | .mp | .emc | .mc | .pmc => false

/-- `TableRead8(A)` (spec/46_table_ops.md R330): a free value where Table 2 prevents the read. -/
def State.tableRead8 (s : State) (a : ProgAddr) : Byte × State :=
  if tableReadPrevented s.dev a then (Config.protectedByte s.free, s.draw) else (s.pmRead8 a, s)

/-- Where Table 2 allows TBLWT and PM_WRITABLE holds (spec/20_memory.md R108, R112). -/
def tableWritable (dev : Device) (a : ProgAddr) : Bool :=
  (externalPm dev a ||
    (match dev.pmMode with
      | .emc | .mc => internalPm dev a
      | .mp | .pemc | .pmc => false)) && inProgRegions dev.pmWritable a.toNat

/-- `TableWrite8(A, v)` (spec/20_memory.md R112). A byte is stored only where the device allows it, and then the word
at pc, fetched before the write, is the one that executes next (R115). The table-write strobes go out in either case
(spec/60_exceptions.md R420; spec/46_table_ops.md R335; log entry 42). -/
def State.tableWrite8 (s : State) (a : ProgAddr) (v : Byte) : State :=
  if tableWritable s.dev a then
    { s.emit (.tableWrite a v true) with pm := Memory.write s.pm a.toNat v, prefetch := some (s.pmRead16 s.pc) }
  else s.emit (.tableWrite a v false)

/-! ### Reset (spec/70_reset_and_hazards.md R450) -/

/-- `Reset(cause)`: pc, SP, the run state, the pending reset and the enables take their reset values; STKOVF and STKUNF
are cleared by a power-on reset only; every other register, stack word and GPR takes a free value. Program memory, the
device and the environment's own state are not changed. -/
def State.resetBy (s : State) (cause : ResetCause) : State :=
  { s with
    w := (Config.resetValue s.free .w).setWidth 8
    status := Status.ofByte ((Config.resetValue s.free .status).setWidth 8)
    bsr := (Config.resetValue s.free .bsr).setWidth 4
    fsr0 := (Config.resetValue s.free (.fsr .fsr0)).setWidth 12
    fsr1 := (Config.resetValue s.free (.fsr .fsr1)).setWidth 12
    fsr2 := (Config.resetValue s.free (.fsr .fsr2)).setWidth 12
    pc := 0#21
    pcHidden := false
    pclath := (Config.resetValue s.free .pclath).setWidth 8
    pclatu := (Config.resetValue s.free .pclatu).setWidth 5
    stack := Vector.ofFn fun i => Config.resetValue s.free (.stackWord i.val)
    sp := 0#5
    stkovf := if cause = .por then false else s.stkovf
    stkunf := if cause = .por then false else s.stkunf
    prodh := (Config.resetValue s.free .prodh).setWidth 8
    prodl := (Config.resetValue s.free .prodl).setWidth 8
    tblptr := Config.resetValue s.free .tblptr
    tablat := (Config.resetValue s.free .tablat).setWidth 8
    ws := (Config.resetValue s.free .ws).setWidth 8
    statuss := Status.ofByte ((Config.resetValue s.free .statuss).setWidth 8)
    bsrs := (Config.resetValue s.free .bsrs).setWidth 4
    ram := Memory.afterReset s.free
    gieh := false
    giel := false
    run := .running
    stackReset := none
    prefetch := none
    free := s.free + 1 }

/-- The cause of the reset a stack error performs (spec/70_reset_and_hazards.md R451). -/
def StackError.cause : StackError → ResetCause
  | .overflow => .stackOverflow
  | .underflow => .stackUnderflow

/-! ### Taking an interrupt and returning from one (spec/60_exceptions.md R412, R416) -/

/-- The two interrupt levels. -/
inductive IrqLevel where
  | high | low
  deriving DecidableEq, Repr

/-- The entry address of a level (spec/20_memory.md R101). -/
def IrqLevel.vector : IrqLevel → ProgAddr
  | .high => 0x000008#21
  | .low => 0x000018#21

/-- Which level is taken at this boundary, if any: high before low; low needs both enables
(spec/60_exceptions.md R412, R414). -/
def State.irqTaken (s : State) : Option IrqLevel :=
  if s.env.irqHigh && s.gieh then some .high
  else if s.env.irqLow && s.gieh && s.giel then some .low
  else none

/-- The entered level's enable is cleared (spec/60_exceptions.md R412). -/
def State.maskLevel (s : State) (l : IrqLevel) : State :=
  match l with
  | .high => { s with gieh := false }
  | .low => { s with giel := false }

/-- Interrupt entry: the pc is pushed, the shadow registers are loaded, the level's enable is cleared and the vector is
forced onto the pc; PCLATH and PCLATU do not change, and the pipelined fetch is discarded
(spec/60_exceptions.md R412; spec/70_reset_and_hazards.md R460). -/
def State.enterInterrupt (s : State) (l : IrqLevel) : State :=
  { (((s.push s.pc).saveShadow).maskLevel l).setPc l.vector with prefetch := none }

/-- `TakeInterrupt()` (spec/60_exceptions.md R412). -/
def State.takeInterrupt (s : State) : State :=
  match s.irqTaken with
  | some l => s.enterInterrupt l
  | none => s

/-- `ReenableInterrupts()` (spec/60_exceptions.md R416). -/
def State.reenableInterrupts (s : State) : State :=
  if s.gieh then { s with giel := true } else { s with gieh := true }

/-- `pc <- Pop()` and, with the fast bit, W, STATUS and BSR from the shadow registers; the return from a call and,
with `reenableInterrupts`, from an interrupt (spec/45_branch_call_return.md R313, R314). -/
def State.returnFrom (s : State) (fast : Bool) : State :=
  if fast then (s.pop.2.setPc s.pop.1).restoreShadow else s.pop.2.setPc s.pop.1

end Sys2Proof.Machine
end

