-- ==== Sys2Proof/Machine/Flags.lean ====
section
/-! DEFINITION. The flag computations of spec/10_state.md R23, R24 and the 8-bit operations of the instructions, each a
result with the flags the instruction writes (spec/40_byte_file_ops.md R200; log entry 24). -/

namespace Sys2Proof.Machine

open Sys2Proof

/-- The flags an instruction writes, with their new values; `none` is a flag it does not write
(spec/10_state.md R24: "a flag it does not affect keeps its value"). -/
structure FlagUpdate where
  n : Option Bool
  ov : Option Bool
  z : Option Bool
  dc : Option Bool
  c : Option Bool
  deriving DecidableEq, Repr

/-- No flag is written. -/
def FlagUpdate.nothing : FlagUpdate where
  n := none
  ov := none
  z := none
  dc := none
  c := none

/-- The instruction affects at least one flag (spec/10_state.md R25 (a)). -/
def FlagUpdate.affects (u : FlagUpdate) : Bool :=
  u.n.isSome || u.ov.isSome || u.z.isSome || u.dc.isSome || u.c.isSome

/-- STATUS with the written flags replaced. -/
def Status.update (x : Status) (u : FlagUpdate) : Status where
  n := u.n.getD x.n
  ov := u.ov.getD x.ov
  z := u.z.getD x.z
  dc := u.dc.getD x.dc
  c := u.c.getD x.c

/-- The flags of an instruction are written. -/
def State.applyFlags (s : State) (u : FlagUpdate) : State := s.setStatus (s.status.update u)

/-- An 8-bit result and the flags that go with it. -/
structure Alu where
  val : Byte
  flags : FlagUpdate
  deriving DecidableEq, Repr

/-- `AddCore(a, b, cin)` (spec/10_state.md R24): C is the bit 7 carry out, DC the bit 3 carry out, OV the bit 6 carry
out XOR the bit 7 carry out. -/
def addCore (a b : Byte) (cin : Bool) : Alu :=
  let sum := a.toNat + b.toNat + cin.toNat
  let r := BitVec.ofNat 8 sum
  let c7 := decide (255 < sum)
  let c3 := decide (15 < a.toNat % 16 + b.toNat % 16 + cin.toNat)
  let c6 := decide (127 < a.toNat % 128 + b.toNat % 128 + cin.toNat)
  { val := r,
    flags := { n := some (r.getLsbD 7), ov := some (c6 ^^ c7), z := some (r == 0#8), dc := some c3, c := some c7 } }

/-- `SubCore(a, b, bin)`: a - b - bin (spec/10_state.md R24). -/
def subCore (a b : Byte) (bin : Bool) : Alu := addCore a (~~~b) (!bin)

/-- `SetNZ(r)` (spec/10_state.md R24). -/
def withNZ (r : Byte) : Alu where
  val := r
  flags := { FlagUpdate.nothing with n := some (r.getLsbD 7), z := some (r == 0#8) }

/-- A rotate through carry: C, Z and N are written (spec/40_byte_file_ops.md R200). -/
def withCNZ (r : Byte) (c : Bool) : Alu where
  val := r
  flags := { FlagUpdate.nothing with n := some (r.getLsbD 7), z := some (r == 0#8), c := some c }

/-- A result with no flag. -/
def noFlags (r : Byte) : Alu where
  val := r
  flags := FlagUpdate.nothing

/-! ### The operations of the byte-oriented instructions: the operand `v`, W and C before the instruction -/

/-- v + W (spec/40_byte_file_ops.md R202). -/
def aluAddwf (v w : Byte) (_c : Bool) : Alu := addCore v w false

/-- v + W + C (R203). -/
def aluAddwfc (v w : Byte) (c : Bool) : Alu := addCore v w c

/-- v AND W (R204). -/
def aluAndwf (v w : Byte) (_c : Bool) : Alu := withNZ (v &&& w)

/-- NOT v (R205). -/
def aluComf (v _w : Byte) (_c : Bool) : Alu := withNZ (~~~v)

/-- v - 1 (R206). -/
def aluDecf (v _w : Byte) (_c : Bool) : Alu := subCore v 0x01#8 false

/-- v + 1 (R207). -/
def aluIncf (v _w : Byte) (_c : Bool) : Alu := addCore v 0x01#8 false

/-- v OR W (R208). -/
def aluIorwf (v w : Byte) (_c : Bool) : Alu := withNZ (v ||| w)

/-- v (R209). -/
def aluMovf (v _w : Byte) (_c : Bool) : Alu := withNZ v

/-- `v[6:0] : C`, C from v[7] (R210). -/
def aluRlcf (v _w : Byte) (c : Bool) : Alu :=
  withCNZ ((v.extractLsb' 0 7 ++ BitVec.ofBool c).setWidth 8) (v.getLsbD 7)

/-- `v[6:0] : v[7]` (R211). -/
def aluRlncf (v _w : Byte) (_c : Bool) : Alu := withNZ ((v.extractLsb' 0 7 ++ v.extractLsb' 7 1).setWidth 8)

/-- `C : v[7:1]`, C from v[0] (R212). -/
def aluRrcf (v _w : Byte) (c : Bool) : Alu :=
  withCNZ ((BitVec.ofBool c ++ v.extractLsb' 1 7).setWidth 8) (v.getLsbD 0)

/-- `v[0] : v[7:1]` (R213). -/
def aluRrncf (v _w : Byte) (_c : Bool) : Alu := withNZ ((v.extractLsb' 0 1 ++ v.extractLsb' 1 7).setWidth 8)

/-- W - v - (1 - C) (R214). -/
def aluSubfwb (v w : Byte) (c : Bool) : Alu := subCore w v (!c)

/-- v - W (R215). -/
def aluSubwf (v w : Byte) (_c : Bool) : Alu := subCore v w false

/-- v - W - (1 - C) (R216). -/
def aluSubwfb (v w : Byte) (c : Bool) : Alu := subCore v w (!c)

/-- `v[3:0] : v[7:4]` (R217). -/
def aluSwapf (v _w : Byte) (_c : Bool) : Alu := noFlags ((v.extractLsb' 0 4 ++ v.extractLsb' 4 4).setWidth 8)

/-- v XOR W (R218). -/
def aluXorwf (v w : Byte) (_c : Bool) : Alu := withNZ (v ^^^ w)

/-- 0 - v (R221). -/
def aluNegf (v _w : Byte) (_c : Bool) : Alu := subCore 0x00#8 v false

/-- v - 1 with no flag (spec/41_skip_mul_move.md R240, R241). -/
def aluDecNoFlags (v _w : Byte) (_c : Bool) : Alu := noFlags (v - 1#8)

/-- v + 1 with no flag (spec/41_skip_mul_move.md R242, R243). -/
def aluIncNoFlags (v _w : Byte) (_c : Bool) : Alu := noFlags (v + 1#8)

/-- The flags CLRF writes: Z = 1 (spec/40_byte_file_ops.md R220). -/
def clrfFlags : FlagUpdate := { FlagUpdate.nothing with z := some true }

/-- The decimal adjust of DAW (spec/43_literal_ops.md R277; log entry 26): the adjusted integer before it is cut to 8
bits. -/
def dawSum (w : Byte) (dc c : Bool) : Nat :=
  let t := if 9 < w.toNat % 16 || dc then w.toNat + 6 else w.toNat
  if 9 < t / 16 || c then t + 0x60 else t

/-- DAW: W and, where the adjusted value exceeds 255, C = 1; C is never cleared (spec/43_literal_ops.md R277). -/
def aluDaw (w : Byte) (dc c : Bool) : Alu where
  val := BitVec.ofNat 8 (dawSum w dc c)
  flags := { FlagUpdate.nothing with c := if 255 < dawSum w dc c then some true else none }

end Sys2Proof.Machine
end

