-- ==== Sys2Proof/Machine/Operands.lean ====
section
/-! DEFINITION. The file operand: address formation, the INDF family, the data-memory access functions, and the
procedures the file instructions share (spec/20_memory.md R84 to R97; spec/40_byte_file_ops.md R201;
spec/42_bit_ops.md R260). -/

namespace Sys2Proof.Machine

open Sys2Proof

/-- `ea(f, a)` (spec/20_memory.md R84): direct short (bank from BSR) or direct forced (the virtual bank). -/
def State.ea (s : State) (f : Byte) (a : Access) : DataAddr :=
  match a with
  | .banked => (s.bsr ++ f).setWidth 12
  | .virt => if f.getLsbD 7 then (0xF#4 ++ f).setWidth 12 else (0x0#4 ++ f).setWidth 12

/-- One file operand: the address the instruction names and the address it reaches (spec/20_memory.md R87). -/
structure Loc where
  named : DataAddr
  target : DataAddr
  deriving DecidableEq, Repr

/-- `OperandBegin(t0)`: PREINC's increment, then the resolution of R86 with W as at the start of the instruction
(spec/20_memory.md R86 to R88). -/
def operandBegin (t0 : DataAddr) (s : State) : Loc × State :=
  match s.place t0 with
  | .sfr (.ind n .preinc) => ({ named := t0, target := s.fsr n + 1#12 }, s.setFsr n (s.fsr n + 1#12))
  | .sfr (.ind n .plusw) => ({ named := t0, target := s.fsr n + s.w.signExtend 12 }, s)
  | .sfr (.ind n .indf) => ({ named := t0, target := s.fsr n }, s)
  | .sfr (.ind n .postinc) => ({ named := t0, target := s.fsr n }, s)
  | .sfr (.ind n .postdec) => ({ named := t0, target := s.fsr n }, s)
  | _ => ({ named := t0, target := t0 }, s)

/-- `t` is an address of FSRnL or FSRnH. -/
def State.isFsrByte (s : State) (n : Fsr) (t : DataAddr) : Bool :=
  s.place t == .sfr (.fsrl n) || s.place t == .sfr (.fsrh n)

/-- `OperandEnd(loc, wrote)`: the post-modification, unless the write through FSRn landed on FSRn itself
(`Dominated`, spec/20_memory.md R87, R90). -/
def operandEnd (loc : Loc) (wrote : Bool) (s : State) : State :=
  match s.place loc.named with
  | .sfr (.ind n .postinc) => if wrote && s.isFsrByte n loc.target then s else s.setFsr n (s.fsr n + 1#12)
  | .sfr (.ind n .postdec) => if wrote && s.isFsrByte n loc.target then s else s.setFsr n (s.fsr n - 1#12)
  | _ => s

/-- An INDF-family address. -/
def State.isInd (s : State) (t : DataAddr) : Bool :=
  match s.place t with
  | .sfr (.ind _ _) => true
  | _ => false

/-- `Dropped(loc)`: named and reached are both INDF-family addresses (spec/40_byte_file_ops.md R201;
spec/20_memory.md R89). -/
def dropped (loc : Loc) (s : State) : Bool := s.isInd loc.named && s.isInd loc.target

/-- What a core register reads as (spec/20_memory.md R92); `pcSeen` is the pc the instruction sees
(spec/10_state.md R30). An INDF-family address reached as a target reads 00h (R89). -/
def State.readSfr (s : State) (pcSeen : ProgAddr) (r : Sfr) : Byte :=
  match r with
  | .tosu => (s.tos.extractLsb' 16 5).setWidth 8
  | .tosh => s.tos.extractLsb' 8 8
  | .tosl => s.tos.extractLsb' 0 8
  | .stkptr => (BitVec.ofBool s.stkovf ++ BitVec.ofBool s.stkunf ++ 0#1 ++ s.sp).setWidth 8
  | .pclatu => s.pclatu.setWidth 8
  | .pclath => s.pclath
  | .pcl => pcSeen.extractLsb' 0 8
  | .tblptru => (s.tblptr.extractLsb' 16 5).setWidth 8
  | .tblptrh => s.tblptr.extractLsb' 8 8
  | .tblptrl => s.tblptr.extractLsb' 0 8
  | .tablat => s.tablat
  | .prodh => s.prodh
  | .prodl => s.prodl
  | .ind _ _ => 0#8
  | .fsrh n => ((s.fsr n).extractLsb' 8 4).setWidth 8
  | .fsrl n => (s.fsr n).extractLsb' 0 8
  | .wreg => s.w
  | .bsr => s.bsr.setWidth 8
  | .status => s.status.toByte

/-- `DataRead(t)` (spec/20_memory.md R92). `readClass` says the instruction reads its operand and does not write it
back (R97); on PCL it loads the latches (R94). -/
def dataRead (readClass : Bool) (pcSeen : ProgAddr) (t : DataAddr) (s : State) : Byte × State :=
  match s.place t with
  | .gpr => (Memory.read s.ram t.toNat, s)
  | .sfr .pcl => (s.readSfr pcSeen .pcl, if readClass then s.loadLatches pcSeen else s)
  | .sfr r => (s.readSfr pcSeen r, s)
  | .gie =>
    let e := s.periphRead t
    ((BitVec.ofBool s.gieh ++ BitVec.ofBool s.giel ++ e.1.extractLsb' 0 6).setWidth 8, e.2)
  | .peripheral => s.periphRead t
  | .unimplemented => (0#8, s)

/-- A write to a core register (spec/20_memory.md R93, R95; spec/10_state.md R25, R34, R35). `affects` says the
instruction affects some flag: then the write to the status bits is disabled (R25 (a)). -/
def State.writeSfr (s : State) (affects : Bool) (r : Sfr) (v : Byte) : State :=
  match r with
  | .tosu => s.setTos ((v.extractLsb' 0 5 ++ s.tos.extractLsb' 0 16).setWidth 21)
  | .tosh => s.setTos ((s.tos.extractLsb' 16 5 ++ v ++ s.tos.extractLsb' 0 8).setWidth 21)
  | .tosl => s.setTos ((s.tos.extractLsb' 8 13 ++ v).setWidth 21)
  | .stkptr => { s with stkovf := v.getLsbD 7, stkunf := v.getLsbD 6, sp := v.extractLsb' 0 5 }
  | .pclatu => { s with pclatu := v.extractLsb' 0 5 }
  | .pclath => { s with pclath := v }
  | .pcl => s.setPc (s.pclTarget v)
  | .tblptru => { s with tblptr := (v.extractLsb' 0 5 ++ s.tblptr.extractLsb' 0 16).setWidth 21 }
  | .tblptrh => { s with tblptr := (s.tblptr.extractLsb' 16 5 ++ v ++ s.tblptr.extractLsb' 0 8).setWidth 21 }
  | .tblptrl => { s with tblptr := (s.tblptr.extractLsb' 8 13 ++ v).setWidth 21 }
  | .tablat => { s with tablat := v }
  | .prodh => { s with prodh := v }
  | .prodl => { s with prodl := v }
  | .ind _ _ => s
  | .fsrh n => s.setFsr n ((v.extractLsb' 0 4 ++ (s.fsr n).extractLsb' 0 8).setWidth 12)
  | .fsrl n => s.setFsr n (((s.fsr n).extractLsb' 8 4 ++ v).setWidth 12)
  | .wreg => s.setW v
  | .bsr => { s with bsr := v.extractLsb' 0 4 }
  | .status => if affects then s else s.setStatus (Status.ofByte v)

/-- `DataWrite(t, v)` (spec/20_memory.md R93). -/
def dataWrite (affects : Bool) (t : DataAddr) (v : Byte) (s : State) : State :=
  match s.place t with
  | .gpr => { s with ram := Memory.write s.ram t.toNat v }
  | .sfr r => s.writeSfr affects r v
  | .gie => ({ s with gieh := v.getLsbD 7, giel := v.getLsbD 6 }).emit (.gieRest (v.extractLsb' 0 6))
  | .peripheral => s.emit (.sfrWrite t v)
  | .unimplemented => s

/-! ### The shared procedures of the file instructions -/

/-- The result of `op` is written to the operand with its flags, or both are dropped (spec/40_byte_file_ops.md R201;
spec/20_memory.md R89). -/
def storeResult (loc : Loc) (r : Alu) (s : State) : State :=
  if dropped loc s then s else (dataWrite r.flags.affects loc.target r.val s).applyFlags r.flags

/-- `ByteDA(f, d, a, op)` (spec/40_byte_file_ops.md R201): the 8-bit result and the state after. -/
def byteDA (f : Byte) (d : Dest) (a : Access) (op : Byte → Byte → Bool → Alu) (s : State) : Byte × State :=
  let b := operandBegin (s.ea f a) s
  let v := dataRead (d == .w) s.pc b.1.target b.2
  let r := op v.1 s.w s.status.c
  match d with
  | .w => (r.val, operandEnd b.1 false ((v.2.setW r.val).applyFlags r.flags))
  | .file => (r.val, operandEnd b.1 true (storeResult b.1 r v.2))

/-- The write-class form (spec/40_byte_file_ops.md R219): the operand is not read. -/
def writeFile (f : Byte) (a : Access) (r : Alu) (s : State) : State :=
  let b := operandBegin (s.ea f a) s
  operandEnd b.1 true (storeResult b.1 r b.2)

/-- The read-class form (spec/41_skip_mul_move.md R244): the operand's value and the state after. -/
def readFile (f : Byte) (a : Access) (s : State) : Byte × State :=
  let b := operandBegin (s.ea f a) s
  let v := dataRead true s.pc b.1.target b.2
  (v.1, operandEnd b.1 false v.2)

/-- `BitRMW(f, b, a, op)` (spec/42_bit_ops.md R260): the whole register is read, changed and written back; no flag. -/
def bitRMW (f : Byte) (a : Access) (op : Byte → Byte) (s : State) : State :=
  (byteDA f .file a (fun v _ _ => noFlags (op v)) s).2

end Sys2Proof.Machine
end

