-- ==== Sys2Proof/Machine/SkipMulMove.lean ====
section
/-! DEFINITION. Skip on result, compare and skip, multiply, file-to-file move (spec/41_skip_mul_move.md R240 to R250). -/

namespace Sys2Proof.Machine

open Sys2Proof

/-- `ByteDA` with a result that writes no flag, then `Skip()` if the test holds of the 8-bit result
(spec/41_skip_mul_move.md R240, R249). -/
def byteDASkip (f : Byte) (d : Dest) (a : Access) (op : Byte → Byte → Bool → Alu) (test : Byte → Bool) (s : State) : State :=
  (byteDA f d a op s).2.skipIf (test (byteDA f d a op s).1)

/-- The read-class operand, then `Skip()` if the test holds of its value (spec/41_skip_mul_move.md R244). -/
def readSkip (f : Byte) (a : Access) (test : Byte → Bool) (s : State) : State :=
  (readFile f a s).2.skipIf (test (readFile f a s).1)

/-- The product register takes the 16-bit unsigned product (spec/10_state.md R39; spec/41_skip_mul_move.md R248). -/
def State.setProduct (s : State) (x y : Byte) : State :=
  { s with
    prodh := (BitVec.ofNat 16 (x.toNat * y.toNat)).extractLsb' 8 8
    prodl := (BitVec.ofNat 16 (x.toNat * y.toNat)).extractLsb' 0 8 }

/-- DECFSZ (R240): decrement f, skip if zero. -/
def execDecfsz (f : Byte) (d : Dest) (a : Access) (s : State) : Result :=
  .next (byteDASkip f d a aluDecNoFlags (fun r => r == 0#8) s)

/-- DCFSNZ (R241): decrement f, skip if not zero. -/
def execDcfsnz (f : Byte) (d : Dest) (a : Access) (s : State) : Result :=
  .next (byteDASkip f d a aluDecNoFlags (fun r => r != 0#8) s)

/-- INCFSZ (R242): increment f, skip if zero. -/
def execIncfsz (f : Byte) (d : Dest) (a : Access) (s : State) : Result :=
  .next (byteDASkip f d a aluIncNoFlags (fun r => r == 0#8) s)

/-- ICFSNZ (R243): increment f, skip if not zero. -/
def execIcfsnz (f : Byte) (d : Dest) (a : Access) (s : State) : Result :=
  .next (byteDASkip f d a aluIncNoFlags (fun r => r != 0#8) s)

/-- CPFSEQ (R244): compare f with W, skip if equal. -/
def execCpfseq (f : Byte) (a : Access) (s : State) : Result :=
  .next (readSkip f a (fun v => v == s.w) s)

/-- CPFSGT (R245): compare f with W, skip if f is greater. -/
def execCpfsgt (f : Byte) (a : Access) (s : State) : Result :=
  .next (readSkip f a (fun v => decide (s.w.toNat < v.toNat)) s)

/-- CPFSLT (R246): compare f with W, skip if f is less. -/
def execCpfslt (f : Byte) (a : Access) (s : State) : Result :=
  .next (readSkip f a (fun v => decide (v.toNat < s.w.toNat)) s)

/-- TSTFSZ (R247): test f, skip if zero. -/
def execTstfsz (f : Byte) (a : Access) (s : State) : Result :=
  .next (readSkip f a (fun v => v == 0#8) s)

/-- MULWF (R248): multiply W by f, unsigned; no flag. -/
def execMulwf (f : Byte) (a : Access) (s : State) : Result :=
  .next ((readFile f a s).2.setProduct s.w (readFile f a s).1)

/-- MOVFF's source: read in the first cycle, while the pc is the address of the first word plus 2, and its FSR
modified before the destination is resolved (spec/41_skip_mul_move.md R250 (a), (b); log entries 21, 40). -/
def movffSource (f : DataAddr) (s : State) : Byte × State :=
  let b := operandBegin f s
  let v := dataRead true (s.pc - 2#21) b.1.target b.2
  (v.1, operandEnd b.1 false v.2)

/-- MOVFF's destination (spec/41_skip_mul_move.md R250). -/
def movffDest (g : DataAddr) (v : Byte) (s : State) : State :=
  let b := operandBegin g s
  operandEnd b.1 true (storeResult b.1 (noFlags v) b.2)

/-- MOVFF (R250): move file register to file register; no flag. -/
def execMovff (f g : DataAddr) (s : State) : Result :=
  .next (movffDest g (movffSource f s).1 (movffSource f s).2)

end Sys2Proof.Machine
end

