-- ==== Sys2Proof/Machine/BitFile.lean ====
section
/-! DEFINITION. The bit-oriented file register operations (spec/42_bit_ops.md R260 to R265). -/

namespace Sys2Proof.Machine

open Sys2Proof

/-- `1 << b` (spec/42_bit_ops.md R261). -/
def bitMask (b : BitVec 3) : Byte := 1#8 <<< b.toNat

/-- BCF (R261): clear bit b of f. -/
def execBcf (f : Byte) (b : BitVec 3) (a : Access) (s : State) : Result :=
  .next (bitRMW f a (fun v => v &&& ~~~(bitMask b)) s)

/-- BSF (R262): set bit b of f. -/
def execBsf (f : Byte) (b : BitVec 3) (a : Access) (s : State) : Result :=
  .next (bitRMW f a (fun v => v ||| bitMask b) s)

/-- BTG (R263): toggle bit b of f. -/
def execBtg (f : Byte) (b : BitVec 3) (a : Access) (s : State) : Result :=
  .next (bitRMW f a (fun v => v ^^^ bitMask b) s)

/-- BTFSC (R264): test bit b of f, skip if clear. -/
def execBtfsc (f : Byte) (b : BitVec 3) (a : Access) (s : State) : Result :=
  .next (readSkip f a (fun v => !v.getLsbD b.toNat) s)

/-- BTFSS (R265): test bit b of f, skip if set. -/
def execBtfss (f : Byte) (b : BitVec 3) (a : Access) (s : State) : Result :=
  .next (readSkip f a (fun v => v.getLsbD b.toNat) s)

end Sys2Proof.Machine
end

