-- ==== Sys2Proof/Machine/ByteFile.lean ====
section
/-! DEFINITION. The byte-oriented file register operations (spec/40_byte_file_ops.md R202 to R222). -/

namespace Sys2Proof.Machine

open Sys2Proof

/-- ADDWF (R202): add W to f. -/
def execAddwf (f : Byte) (d : Dest) (a : Access) (s : State) : Result := .next (byteDA f d a aluAddwf s).2

/-- ADDWFC (R203): add W and carry to f. -/
def execAddwfc (f : Byte) (d : Dest) (a : Access) (s : State) : Result := .next (byteDA f d a aluAddwfc s).2

/-- ANDWF (R204): AND W with f. -/
def execAndwf (f : Byte) (d : Dest) (a : Access) (s : State) : Result := .next (byteDA f d a aluAndwf s).2

/-- COMF (R205): complement f. -/
def execComf (f : Byte) (d : Dest) (a : Access) (s : State) : Result := .next (byteDA f d a aluComf s).2

/-- DECF (R206): decrement f. -/
def execDecf (f : Byte) (d : Dest) (a : Access) (s : State) : Result := .next (byteDA f d a aluDecf s).2

/-- INCF (R207): increment f. -/
def execIncf (f : Byte) (d : Dest) (a : Access) (s : State) : Result := .next (byteDA f d a aluIncf s).2

/-- IORWF (R208): inclusive OR W with f. -/
def execIorwf (f : Byte) (d : Dest) (a : Access) (s : State) : Result := .next (byteDA f d a aluIorwf s).2

/-- MOVF (R209): move f. -/
def execMovf (f : Byte) (d : Dest) (a : Access) (s : State) : Result := .next (byteDA f d a aluMovf s).2

/-- RLCF (R210): rotate f left through carry. -/
def execRlcf (f : Byte) (d : Dest) (a : Access) (s : State) : Result := .next (byteDA f d a aluRlcf s).2

/-- RLNCF (R211): rotate f left, no carry. -/
def execRlncf (f : Byte) (d : Dest) (a : Access) (s : State) : Result := .next (byteDA f d a aluRlncf s).2

/-- RRCF (R212): rotate f right through carry. -/
def execRrcf (f : Byte) (d : Dest) (a : Access) (s : State) : Result := .next (byteDA f d a aluRrcf s).2

/-- RRNCF (R213): rotate f right, no carry. -/
def execRrncf (f : Byte) (d : Dest) (a : Access) (s : State) : Result := .next (byteDA f d a aluRrncf s).2

/-- SUBFWB (R214): subtract f from W with borrow. -/
def execSubfwb (f : Byte) (d : Dest) (a : Access) (s : State) : Result := .next (byteDA f d a aluSubfwb s).2

/-- SUBWF (R215): subtract W from f. -/
def execSubwf (f : Byte) (d : Dest) (a : Access) (s : State) : Result := .next (byteDA f d a aluSubwf s).2

/-- SUBWFB (R216): subtract W from f with borrow. -/
def execSubwfb (f : Byte) (d : Dest) (a : Access) (s : State) : Result := .next (byteDA f d a aluSubwfb s).2

/-- SWAPF (R217): swap the nibbles of f. -/
def execSwapf (f : Byte) (d : Dest) (a : Access) (s : State) : Result := .next (byteDA f d a aluSwapf s).2

/-- XORWF (R218): exclusive OR W with f. -/
def execXorwf (f : Byte) (d : Dest) (a : Access) (s : State) : Result := .next (byteDA f d a aluXorwf s).2

/-- MOVWF (R219): move W to f; no flag. -/
def execMovwf (f : Byte) (a : Access) (s : State) : Result := .next (writeFile f a (noFlags s.w) s)

/-- CLRF (R220): clear f; Z = 1. -/
def execClrf (f : Byte) (a : Access) (s : State) : Result :=
  .next (writeFile f a { val := 0x00#8, flags := clrfFlags } s)

/-- NEGF (R221): negate f, two's complement: `ByteDA` with d fixed at 1. -/
def execNegf (f : Byte) (a : Access) (s : State) : Result := .next (byteDA f .file a aluNegf s).2

/-- SETF (R222): set f to FFh; no flag. -/
def execSetf (f : Byte) (a : Access) (s : State) : Result := .next (writeFile f a (noFlags 0xFF#8) s)

end Sys2Proof.Machine
end

