-- ==== Sys2Proof/Machine/Control.lean ====
section
/-! DEFINITION. Branches, calls, returns, PUSH and POP (spec/45_branch_call_return.md R300 to R321). -/

namespace Sys2Proof.Machine

open Sys2Proof

/-- The byte offset `sext_21(n : 0)` of an 8-bit word offset (spec/45_branch_call_return.md R300). -/
def offset8 (n : Byte) : ProgAddr := BitVec.signExtend 21 (n ++ 0#1)

/-- The byte offset of an 11-bit word offset (spec/45_branch_call_return.md R309). -/
def offset11 (n : BitVec 11) : ProgAddr := BitVec.signExtend 21 (n ++ 0#1)

/-- `Bcc(cond, n)` (spec/45_branch_call_return.md R300). -/
def State.branchIf (s : State) (cond : Bool) (n : Byte) : State :=
  if cond then s.setPc (s.pc + offset8 n) else s

/-- The byte address `k : 0` of a 20-bit word address (spec/30_encoding.md R134). -/
def wordTarget (k : BitVec 20) : ProgAddr := (k ++ 0#1).setWidth 21

/-- The pc and the latches take the target (spec/45_branch_call_return.md R320, R321). -/
def State.jumpFar (s : State) (t : ProgAddr) : State := (s.setPc t).loadLatches t

/-- BC (R301): branch if carry. -/
def execBc (n : Byte) (s : State) : Result := .next (s.branchIf s.status.c n)

/-- BN (R302): branch if negative. -/
def execBn (n : Byte) (s : State) : Result := .next (s.branchIf s.status.n n)

/-- BNC (R303): branch if not carry. -/
def execBnc (n : Byte) (s : State) : Result := .next (s.branchIf (!s.status.c) n)

/-- BNN (R304): branch if not negative. -/
def execBnn (n : Byte) (s : State) : Result := .next (s.branchIf (!s.status.n) n)

/-- BNV (R305): branch if not overflow. -/
def execBnv (n : Byte) (s : State) : Result := .next (s.branchIf (!s.status.ov) n)

/-- BNZ (R306): branch if not zero. -/
def execBnz (n : Byte) (s : State) : Result := .next (s.branchIf (!s.status.z) n)

/-- BV (R307): branch if overflow. -/
def execBv (n : Byte) (s : State) : Result := .next (s.branchIf s.status.ov n)

/-- BZ (R308): branch if zero. -/
def execBz (n : Byte) (s : State) : Result := .next (s.branchIf s.status.z n)

/-- BRA (R309): branch always. -/
def execBra (n : BitVec 11) (s : State) : Result := .next (s.setPc (s.pc + offset11 n))

/-- RCALL (R310): relative call. -/
def execRcall (n : BitVec 11) (s : State) : Result := .next ((s.push s.pc).setPc (s.pc + offset11 n))

/-- PUSH (R311): push the address of the next instruction. -/
def execPush (s : State) : Result := .next (s.push s.pc)

/-- POP (R312): discard the top of the return stack. -/
def execPop (s : State) : Result := .next s.pop.2

/-- RETURN (R313): return from subroutine. -/
def execRet (fast : Bool) (s : State) : Result := .next (s.returnFrom fast)

/-- RETFIE (R314): return from interrupt, interrupts enabled again. -/
def execRetfie (fast : Bool) (s : State) : Result := .next (s.returnFrom fast).reenableInterrupts

/-- RETLW (R315): return with literal in W. -/
def execRetlw (k : Byte) (s : State) : Result := .next ((s.returnFrom false).setW k)

/-- CALL (R320): call a subroutine anywhere in program memory. -/
def execCall (k : BitVec 20) (fast : Bool) (s : State) : Result :=
  .next ((if fast then (s.push s.pc).saveShadow else s.push s.pc).jumpFar (wordTarget k))

/-- GOTO (R321): jump anywhere in program memory. -/
def execGoto (k : BitVec 20) (s : State) : Result := .next (s.jumpFar (wordTarget k))

end Sys2Proof.Machine
end

