-- ==== Sys2Proof/Machine/Literal.lean ====
section
/-! DEFINITION. Literal operations, LFSR, DAW, MULLW, MOVLB (spec/43_literal_ops.md R270 to R280). -/

namespace Sys2Proof.Machine

open Sys2Proof

/-- W takes a result and STATUS its flags. -/
def State.setWFlags (s : State) (r : Alu) : State := (s.setW r.val).applyFlags r.flags

/-- ADDLW (R270): add literal to W. -/
def execAddlw (k : Byte) (s : State) : Result := .next (s.setWFlags (addCore s.w k false))

/-- ANDLW (R271): AND literal with W. -/
def execAndlw (k : Byte) (s : State) : Result := .next (s.setWFlags (withNZ (s.w &&& k)))

/-- IORLW (R272): inclusive OR literal with W. -/
def execIorlw (k : Byte) (s : State) : Result := .next (s.setWFlags (withNZ (s.w ||| k)))

/-- MOVLW (R273): move literal to W. -/
def execMovlw (k : Byte) (s : State) : Result := .next (s.setWFlags (noFlags k))

/-- SUBLW (R274): subtract W from literal. -/
def execSublw (k : Byte) (s : State) : Result := .next (s.setWFlags (subCore k s.w false))

/-- XORLW (R275): exclusive OR literal with W. -/
def execXorlw (k : Byte) (s : State) : Result := .next (s.setWFlags (withNZ (s.w ^^^ k)))

/-- MULLW (R278): multiply W by literal, unsigned; no flag. -/
def execMullw (k : Byte) (s : State) : Result := .next (s.setProduct s.w k)

/-- MOVLB (R280): move literal to BSR; k[7:4] has no effect. -/
def execMovlb (k : Byte) (s : State) : Result := .next { s with bsr := k.extractLsb' 0 4 }

/-- LFSR (R276): load a 12-bit literal into an FSR; `ff` = 3 names none and is refused (R143). -/
def execLfsr (ff : BitVec 2) (k : DataAddr) (s : State) : Result :=
  match ff.toNat with
  | 0 => .next (s.setFsr .fsr0 k)
  | 1 => .next (s.setFsr .fsr1 k)
  | 2 => .next (s.setFsr .fsr2 k)
  | _ => .refused .reservedFsr

/-- DAW (R277): decimal adjust W; C only. -/
def execDaw (s : State) : Result := .next (s.setWFlags (aluDaw s.w s.status.dc s.status.c))

end Sys2Proof.Machine
end

