-- ==== Sys2Proof/Machine/System.lean ====
section
/-! DEFINITION. NOP, CLRWDT, HALT, RESET, SLEEP and the two debugger instructions (spec/44_system_ops.md R290 to R297). -/

namespace Sys2Proof.Machine

open Sys2Proof

/-- NOP (R290): no operation. -/
def execNop (s : State) : Result := .next s

/-- NOP (R290): no operation, second form; `x` is ignored. -/
def execNopx (_x : BitVec 12) (s : State) : Result := .next s

/-- CLRWDT (R291): clear the watchdog timer, an output to the environment. -/
def execClrwdt (s : State) : Result := .next (s.emit .clearWdt)

/-- HALT (R292): halt execution. -/
def execHalt (s : State) : Result := .next { s with run := .halted }

/-- RESET (R293): software reset, a master-clear reset. -/
def execReset (s : State) : Result := .next (s.resetBy .mclr)

/-- SLEEP (R294): enter power-down mode; the power-down, time-out and watchdog effects are the environment's. -/
def execSleep (s : State) : Result := .next { s.emit .enterSleep with run := .sleeping }

/-- TRAP (R295): debugger trap; "The model does not execute it: `Refuse(DebuggerTrap)`". -/
def execTrap (_s : State) : Result := .refused .debuggerTrap

/-- TRET (R296): return from debugger trap; "the model refuses it: `Refuse(DebuggerTrap)`". -/
def execTret (_s : State) : Result := .refused .debuggerTrap

end Sys2Proof.Machine
end

