-- ==== Sys2Proof/Machine/Table.lean ====
section
/-! DEFINITION. Table read and table write (spec/46_table_ops.md R330 to R339). -/

namespace Sys2Proof.Machine

open Sys2Proof

/-- TBLPTR takes a value; its arithmetic is modulo 2^21 (spec/10_state.md R40). -/
def State.setTblptr (s : State) (t : ProgAddr) : State := { s with tblptr := t }

/-- `TABLAT <- TableRead8(TBLPTR)` (spec/46_table_ops.md R330). -/
def State.tableRead (s : State) : State := { (s.tableRead8 s.tblptr).2 with tablat := (s.tableRead8 s.tblptr).1 }

/-- `TableWrite8(TBLPTR, TABLAT)` (spec/46_table_ops.md R335). -/
def State.tableWrite (s : State) : State := s.tableWrite8 s.tblptr s.tablat

/-- TBLRD* (R331): table read, pointer unchanged. -/
def execTblrd (s : State) : Result := .next s.tableRead

/-- TBLRD*+ (R332): table read with post-increment. -/
def execTblrdPostInc (s : State) : Result := .next (s.tableRead.setTblptr (s.tblptr + 1#21))

/-- TBLRD*- (R333): table read with post-decrement. -/
def execTblrdPostDec (s : State) : Result := .next (s.tableRead.setTblptr (s.tblptr - 1#21))

/-- TBLRD+* (R334): table read with pre-increment. -/
def execTblrdPreInc (s : State) : Result := .next (s.setTblptr (s.tblptr + 1#21)).tableRead

/-- TBLWT* (R336): table write, pointer unchanged. -/
def execTblwt (s : State) : Result := .next s.tableWrite

/-- TBLWT*+ (R337): table write with post-increment. -/
def execTblwtPostInc (s : State) : Result := .next (s.tableWrite.setTblptr (s.tblptr + 1#21))

/-- TBLWT*- (R338): table write with post-decrement. -/
def execTblwtPostDec (s : State) : Result := .next (s.tableWrite.setTblptr (s.tblptr - 1#21))

/-- TBLWT+* (R339): table write with pre-increment. -/
def execTblwtPreInc (s : State) : Result := .next (s.setTblptr (s.tblptr + 1#21)).tableWrite

end Sys2Proof.Machine
end

