-- ==== Sys2Proof/Machine/Run.lean ====
section
/-! DEFINITION. The fetch, the execution of one instruction and the instruction boundary: one iteration of the run
loop of spec/60_exceptions.md R430. -/

namespace Sys2Proof.Machine

open Sys2Proof

/-- The word the next fetch takes: the one saved by a table write, or the word at pc (spec/20_memory.md R110, R115). -/
def State.fetchWord (s : State) : Word :=
  match s.prefetch with
  | some w => w
  | none => s.pmRead16 s.pc

/-- The pc moves past the instruction's words and the saved word is used up (spec/10_state.md R30;
spec/30_encoding.md R148). -/
def State.advance (s : State) (words : Nat) : State :=
  { s.setPc (s.pc + BitVec.ofNat 21 (2 * words)) with prefetch := none }

/-- The refusal of words that are no instruction (spec/30_encoding.md R141 to R143). -/
def refusalOf (e : DecodeError) (w1 w2 : Word) : Refusal :=
  match e with
  | .undefinedOpcode => .undefinedOpcode w1
  | .badSecondWord => .badSecondWord w1 w2
  | .reservedFsr => .reservedFsr
  | .truncated => .badSecondWord w1 w2

/-- `Step()` (spec/30_encoding.md R148): fetch, decode, advance, execute. With the hidden pc bit set the instructions
would come from the test area, and the model refuses (spec/00_scope.md R5). -/
def runInstr (s : State) : Result :=
  if s.pcHidden then .refused .testMemory
  else
    match decode s.fetchWord (s.pmRead16 (s.pc + 2#21)) with
    | .ok i => exec i (s.advance i.words)
    | .error e => .refused (refusalOf e s.fetchWord (s.pmRead16 (s.pc + 2#21)))

/-- `TakeInterrupt()` and then `Step()`. Where the interrupt's own push is a stack error that resets the device, the
reset of the next boundary comes "in place of entering the handler", so no instruction runs here
(spec/60_exceptions.md R415; log entry 11). -/
def boundaryRun (s : State) : Result :=
  if s.takeInterrupt.stackReset.isSome then .next s.takeInterrupt else runInstr s.takeInterrupt

/-- The inputs of this boundary come into force (spec/60_exceptions.md R430: "sampled once per iteration"). -/
def State.sample (s : State) : State :=
  match s.inputs with
  | [] => { s with env := Inputs.quiet }
  | e :: rest => { s with env := e, inputs := rest }

/-- What happens at an instruction boundary, in the order of spec/60_exceptions.md R414 and R430, once the inputs are
sampled: a requested reset, a pending stack-error reset, halt, sleep and wake, a watchdog time-out, interrupt, step. -/
def boundary (s : State) : Result :=
  match s.env.resetRequest with
  | some c => .next (s.resetBy c)
  | none =>
    match s.stackReset with
    | some e => .next (s.resetBy e.cause)
    | none =>
      match s.run with
      | .halted => .next s
      | .sleeping =>
        if s.env.wdtTimeout || s.env.wakeRequest then boundaryRun { s with run := .running } else .next s
      | .running => if s.env.wdtTimeout then .next (s.resetBy .wdt) else boundaryRun s

/-- Four bytes of program memory from an address on. -/
def State.storeProgram (s : State) (a : ProgAddr) (bytes : List Byte) : State :=
  match bytes with
  | [] => s
  | b :: rest => State.storeProgram { s with pm := Memory.write s.pm a.toNat b } (a + 1#21) rest

end Sys2Proof.Machine
end

