-- ==== Sys2Proof/Machine/Step.lean ====
section
/-! DEFINITION. One step: one iteration of the run loop (spec/60_exceptions.md R430); and the placing of an instruction
where the next step fetches. -/

namespace Sys2Proof.Machine

open Sys2Proof

/-- One iteration of the run loop: the boundary's inputs are sampled and the boundary is passed
(spec/60_exceptions.md R430). -/
def step (s : State) : Host.Outcome State Fault Refusal := boundary s.sample

/-- The state with an instruction stored where the next step fetches: four bytes at pc, bits at or above `nbits`
being 0, and no saved word in their place (log entry 1). -/
def State.withFetchWord (s : State) (nbits w : Nat) : State :=
  { s.storeProgram s.pc (bytesOfNat 4 (w % 2 ^ nbits)) with prefetch := none }

end Sys2Proof.Machine
end

