-- ==== Sys2Proof/Safety.lean ====
section
/-! DEFINITION. The vocabulary of the statements: the invariant of a safe run, what an instruction may leave changed, and
the results of the operations in value terms (spec/10_state.md R23 to R25; spec/20_memory.md R97; spec/40_byte_file_ops.md R200,
R201). -/

namespace Sys2Proof.Machine

open Sys2Proof

/-! ### The invariant -/

/-- What every reachable state satisfies: the pc is even (spec/10_state.md R29), the hidden pc bit is 0 (R29), and both
memories are in their canonical form. -/
def State.Inv (s : State) : Prop :=
  s.pc.getLsbD 0 = false ∧ s.pcHidden = false ∧ Memory.wf s.ram = true ∧ Memory.wf s.pm = true

/-! ### What is left unchanged -/

/-- The pieces of state outside the two memories, one name each; the five flags of STATUS are separate. -/
inductive Reg where
  | w | flagN | flagOv | flagZ | flagDc | flagC | bsr | fsr (n : Fsr)
  | pc | pcHidden | pclath | pclatu | stack | sp | stkovf | stkunf
  | prodh | prodl | tblptr | tablat | ws | statuss | bsrs
  | gieh | giel | run | stackReset | prefetch | dev | env | inputs | trace | free
  deriving DecidableEq, Repr

/-- The piece of state holds in `t` what it held in `s`. -/
def Reg.kept (r : Reg) (s t : State) : Prop :=
  match r with
  | .w => t.w = s.w
  | .flagN => t.status.n = s.status.n
  | .flagOv => t.status.ov = s.status.ov
  | .flagZ => t.status.z = s.status.z
  | .flagDc => t.status.dc = s.status.dc
  | .flagC => t.status.c = s.status.c
  | .bsr => t.bsr = s.bsr
  | .fsr n => t.fsr n = s.fsr n
  | .pc => t.pc = s.pc
  | .pcHidden => t.pcHidden = s.pcHidden
  | .pclath => t.pclath = s.pclath
  | .pclatu => t.pclatu = s.pclatu
  | .stack => t.stack = s.stack
  | .sp => t.sp = s.sp
  | .stkovf => t.stkovf = s.stkovf
  | .stkunf => t.stkunf = s.stkunf
  | .prodh => t.prodh = s.prodh
  | .prodl => t.prodl = s.prodl
  | .tblptr => t.tblptr = s.tblptr
  | .tablat => t.tablat = s.tablat
  | .ws => t.ws = s.ws
  | .statuss => t.statuss = s.statuss
  | .bsrs => t.bsrs = s.bsrs
  | .gieh => t.gieh = s.gieh
  | .giel => t.giel = s.giel
  | .run => t.run = s.run
  | .stackReset => t.stackReset = s.stackReset
  | .prefetch => t.prefetch = s.prefetch
  | .dev => t.dev = s.dev
  | .env => t.env = s.env
  | .inputs => t.inputs = s.inputs
  | .trace => t.trace = s.trace
  | .free => t.free = s.free

/-- Every piece of state outside the two memories, but for those of `rs`, is unchanged. -/
def keepsAllBut (rs : List Reg) (s t : State) : Prop := ∀ r : Reg, r ∉ rs → r.kept s t

/-- The flags of STATUS. -/
def Reg.flags : List Reg := [.flagN, .flagOv, .flagZ, .flagDc, .flagC]

/-- How an instruction uses its file operand (spec/20_memory.md R97). -/
inductive FileUse where
  | read | write | modify
  deriving DecidableEq, Repr

/-- The use of a `BYTE_DA` operand: `d` = 0 reads, `d` = 1 reads and writes back (spec/20_memory.md R97). -/
def useOf : Dest → FileUse
  | .w => .read
  | .file => .modify

/-- The registers a write to a place may change (spec/20_memory.md R93, R95). -/
def Place.writes : Place → List Reg
  | .gpr => []
  | .sfr .tosu => [.stack]
  | .sfr .tosh => [.stack]
  | .sfr .tosl => [.stack]
  | .sfr .stkptr => [.sp, .stkovf, .stkunf]
  | .sfr .pclatu => [.pclatu]
  | .sfr .pclath => [.pclath]
  | .sfr .pcl => [.pc]
  | .sfr .tblptru => [.tblptr]
  | .sfr .tblptrh => [.tblptr]
  | .sfr .tblptrl => [.tblptr]
  | .sfr .tablat => [.tablat]
  | .sfr .prodh => [.prodh]
  | .sfr .prodl => [.prodl]
  | .sfr (.ind _ _) => []
  | .sfr (.fsrh n) => [.fsr n]
  | .sfr (.fsrl n) => [.fsr n]
  | .sfr .wreg => [.w]
  | .sfr .bsr => [.bsr]
  | .sfr .status => Reg.flags
  | .gie => [.gieh, .giel, .trace]
  | .peripheral => [.trace]
  | .unimplemented => []

/-- The registers a read of a place may change: the pc latches, for a read-class read of PCL (spec/20_memory.md R94); the
outputs and the count of free values, where the environment presents the byte (R99; spec/60_exceptions.md R420). -/
def Place.reads (u : FileUse) : Place → List Reg
  | .sfr .pcl => if u = .read then [.pclath, .pclatu] else []
  | .gie => [.trace, .free]
  | .peripheral => [.trace, .free]
  | _ => []

/-- The FSR that naming the address modifies (spec/20_memory.md R86). -/
def State.fsrOf (s : State) (t0 : DataAddr) : List Reg :=
  match s.place t0 with
  | .sfr (.ind n .postinc) => [.fsr n]
  | .sfr (.ind n .postdec) => [.fsr n]
  | .sfr (.ind n .preinc) => [.fsr n]
  | _ => []

/-- The registers an instruction with operand `loc` of use `u`, which writes the flags `fl`, may change through that
operand. A write to STATUS by an instruction with flags is disabled (spec/10_state.md R25 (a)). -/
def State.operandRegs (s : State) (loc : Loc) (u : FileUse) (fl : List Reg) : List Reg :=
  fl ++ s.fsrOf loc.named ++
  (if u = .write then [] else Place.reads u (s.place loc.target)) ++
  (if u = .read then []
   else if s.place loc.target = .sfr .status ∧ fl ≠ [] then [] else Place.writes (s.place loc.target))

/-! ### What each instruction uses and writes -/

/-- The file operand of an instruction and how it is used (spec/20_memory.md R97); MOVFF has two and is not here. -/
def fileOperand : Instr → Option (Byte × Access × FileUse)
  | .addwf f d a => some (f, a, useOf d)
  | .addwfc f d a => some (f, a, useOf d)
  | .andwf f d a => some (f, a, useOf d)
  | .comf f d a => some (f, a, useOf d)
  | .decf f d a => some (f, a, useOf d)
  | .incf f d a => some (f, a, useOf d)
  | .iorwf f d a => some (f, a, useOf d)
  | .movf f d a => some (f, a, useOf d)
  | .rlcf f d a => some (f, a, useOf d)
  | .rlncf f d a => some (f, a, useOf d)
  | .rrcf f d a => some (f, a, useOf d)
  | .rrncf f d a => some (f, a, useOf d)
  | .subfwb f d a => some (f, a, useOf d)
  | .subwf f d a => some (f, a, useOf d)
  | .subwfb f d a => some (f, a, useOf d)
  | .swapf f d a => some (f, a, useOf d)
  | .xorwf f d a => some (f, a, useOf d)
  | .movwf f a => some (f, a, .write)
  | .clrf f a => some (f, a, .write)
  | .negf f a => some (f, a, .modify)
  | .setf f a => some (f, a, .write)
  | .decfsz f d a => some (f, a, useOf d)
  | .dcfsnz f d a => some (f, a, useOf d)
  | .incfsz f d a => some (f, a, useOf d)
  | .icfsnz f d a => some (f, a, useOf d)
  | .cpfseq f a => some (f, a, .read)
  | .cpfsgt f a => some (f, a, .read)
  | .cpfslt f a => some (f, a, .read)
  | .tstfsz f a => some (f, a, .read)
  | .mulwf f a => some (f, a, .read)
  | .movff _ _ => none
  | .bcf f _ a => some (f, a, .modify)
  | .bsf f _ a => some (f, a, .modify)
  | .btg f _ a => some (f, a, .modify)
  | .btfsc f _ a => some (f, a, .read)
  | .btfss f _ a => some (f, a, .read)
  | .addlw _ => none
  | .andlw _ => none
  | .iorlw _ => none
  | .movlw _ => none
  | .sublw _ => none
  | .xorlw _ => none
  | .mullw _ => none
  | .movlb _ => none
  | .lfsr _ _ => none
  | .daw => none
  | .nop => none
  | .nopx _ => none
  | .clrwdt => none
  | .halt => none
  | .reset => none
  | .sleep => none
  | .trap => none
  | .tret => none
  | .bc _ => none
  | .bn _ => none
  | .bnc _ => none
  | .bnn _ => none
  | .bnv _ => none
  | .bnz _ => none
  | .bv _ => none
  | .bz _ => none
  | .bra _ => none
  | .rcall _ => none
  | .push => none
  | .pop => none
  | .ret _ => none
  | .retfie _ => none
  | .retlw _ => none
  | .call _ _ => none
  | .goto _ => none
  | .tblrd => none
  | .tblrdPostInc => none
  | .tblrdPostDec => none
  | .tblrdPreInc => none
  | .tblwt => none
  | .tblwtPostInc => none
  | .tblwtPostDec => none
  | .tblwtPreInc => none

/-- The flags an instruction writes (the table of spec/40_byte_file_ops.md R200, log entry 24); DAW writes C where it sets
it. A fast RETURN or RETFIE restores all five from STATUSS. -/
def flagRegs : Instr → List Reg
  | .addwf _ _ _ => Reg.flags
  | .addwfc _ _ _ => Reg.flags
  | .andwf _ _ _ => [.flagZ, .flagN]
  | .comf _ _ _ => [.flagZ, .flagN]
  | .decf _ _ _ => Reg.flags
  | .incf _ _ _ => Reg.flags
  | .iorwf _ _ _ => [.flagZ, .flagN]
  | .movf _ _ _ => [.flagZ, .flagN]
  | .rlcf _ _ _ => [.flagC, .flagZ, .flagN]
  | .rlncf _ _ _ => [.flagZ, .flagN]
  | .rrcf _ _ _ => [.flagC, .flagZ, .flagN]
  | .rrncf _ _ _ => [.flagZ, .flagN]
  | .subfwb _ _ _ => Reg.flags
  | .subwf _ _ _ => Reg.flags
  | .subwfb _ _ _ => Reg.flags
  | .swapf _ _ _ => []
  | .xorwf _ _ _ => [.flagZ, .flagN]
  | .movwf _ _ => []
  | .clrf _ _ => [.flagZ]
  | .negf _ _ => Reg.flags
  | .setf _ _ => []
  | .decfsz _ _ _ => []
  | .dcfsnz _ _ _ => []
  | .incfsz _ _ _ => []
  | .icfsnz _ _ _ => []
  | .cpfseq _ _ => []
  | .cpfsgt _ _ => []
  | .cpfslt _ _ => []
  | .tstfsz _ _ => []
  | .mulwf _ _ => []
  | .movff _ _ => []
  | .bcf _ _ _ => []
  | .bsf _ _ _ => []
  | .btg _ _ _ => []
  | .btfsc _ _ _ => []
  | .btfss _ _ _ => []
  | .addlw _ => Reg.flags
  | .andlw _ => [.flagZ, .flagN]
  | .iorlw _ => [.flagZ, .flagN]
  | .movlw _ => []
  | .sublw _ => Reg.flags
  | .xorlw _ => [.flagZ, .flagN]
  | .mullw _ => []
  | .movlb _ => []
  | .lfsr _ _ => []
  | .daw => [.flagC]
  | .nop => []
  | .nopx _ => []
  | .clrwdt => []
  | .halt => []
  | .reset => Reg.flags
  | .sleep => []
  | .trap => []
  | .tret => []
  | .bc _ => []
  | .bn _ => []
  | .bnc _ => []
  | .bnn _ => []
  | .bnv _ => []
  | .bnz _ => []
  | .bv _ => []
  | .bz _ => []
  | .bra _ => []
  | .rcall _ => []
  | .push => []
  | .pop => []
  | .ret fast => if fast then Reg.flags else []
  | .retfie fast => if fast then Reg.flags else []
  | .retlw _ => []
  | .call _ _ => []
  | .goto _ => []
  | .tblrd => []
  | .tblrdPostInc => []
  | .tblrdPostDec => []
  | .tblrdPreInc => []
  | .tblwt => []
  | .tblwtPostInc => []
  | .tblwtPostDec => []
  | .tblwtPreInc => []

/-- The registers an instruction writes by its own rule, its file operand and its flags apart: the destination W or
PRODH:PRODL, the pc of a skip or a jump, the stack of a push or a pop, and so on. RESET changes all but the device, the
environment's state and the two stack-error bits (spec/70_reset_and_hazards.md R450). -/
def ownRegs : Instr → List Reg
  | .addwf _ d _ => if d = .w then [.w] else []
  | .addwfc _ d _ => if d = .w then [.w] else []
  | .andwf _ d _ => if d = .w then [.w] else []
  | .comf _ d _ => if d = .w then [.w] else []
  | .decf _ d _ => if d = .w then [.w] else []
  | .incf _ d _ => if d = .w then [.w] else []
  | .iorwf _ d _ => if d = .w then [.w] else []
  | .movf _ d _ => if d = .w then [.w] else []
  | .rlcf _ d _ => if d = .w then [.w] else []
  | .rlncf _ d _ => if d = .w then [.w] else []
  | .rrcf _ d _ => if d = .w then [.w] else []
  | .rrncf _ d _ => if d = .w then [.w] else []
  | .subfwb _ d _ => if d = .w then [.w] else []
  | .subwf _ d _ => if d = .w then [.w] else []
  | .subwfb _ d _ => if d = .w then [.w] else []
  | .swapf _ d _ => if d = .w then [.w] else []
  | .xorwf _ d _ => if d = .w then [.w] else []
  | .movwf _ _ => []
  | .clrf _ _ => []
  | .negf _ _ => []
  | .setf _ _ => []
  | .decfsz _ d _ => .pc :: (if d = .w then [.w] else [])
  | .dcfsnz _ d _ => .pc :: (if d = .w then [.w] else [])
  | .incfsz _ d _ => .pc :: (if d = .w then [.w] else [])
  | .icfsnz _ d _ => .pc :: (if d = .w then [.w] else [])
  | .cpfseq _ _ => [.pc]
  | .cpfsgt _ _ => [.pc]
  | .cpfslt _ _ => [.pc]
  | .tstfsz _ _ => [.pc]
  | .mulwf _ _ => [.prodh, .prodl]
  | .movff _ _ => []
  | .bcf _ _ _ => []
  | .bsf _ _ _ => []
  | .btg _ _ _ => []
  | .btfsc _ _ _ => [.pc]
  | .btfss _ _ _ => [.pc]
  | .addlw _ => [.w]
  | .andlw _ => [.w]
  | .iorlw _ => [.w]
  | .movlw _ => [.w]
  | .sublw _ => [.w]
  | .xorlw _ => [.w]
  | .mullw _ => [.prodh, .prodl]
  | .movlb _ => [.bsr]
  | .lfsr ff _ => [.fsr (match ff.toNat with | 0 => .fsr0 | 1 => .fsr1 | _ => .fsr2)]
  | .daw => [.w]
  | .nop => []
  | .nopx _ => []
  | .clrwdt => [.trace]
  | .halt => [.run]
  | .reset => [.w, .bsr, .fsr .fsr0, .fsr .fsr1, .fsr .fsr2, .pc, .pcHidden, .pclath, .pclatu, .stack, .sp, .prodh, .prodl, .tblptr, .tablat,
      .ws, .statuss, .bsrs, .gieh, .giel, .run, .stackReset, .prefetch, .free]
  | .sleep => [.run, .trace]
  | .trap => []
  | .tret => []
  | .bc _ => [.pc]
  | .bn _ => [.pc]
  | .bnc _ => [.pc]
  | .bnn _ => [.pc]
  | .bnv _ => [.pc]
  | .bnz _ => [.pc]
  | .bv _ => [.pc]
  | .bz _ => [.pc]
  | .bra _ => [.pc]
  | .rcall _ => [.pc, .stack, .sp, .stkovf, .stackReset]
  | .push => [.stack, .sp, .stkovf, .stackReset]
  | .pop => [.sp, .stkunf, .stackReset]
  | .ret fast => [.pc, .sp, .stkunf, .stackReset] ++ (if fast then [.w, .bsr] else [])
  | .retfie fast => [.pc, .sp, .stkunf, .stackReset, .gieh, .giel] ++ (if fast then [.w, .bsr] else [])
  | .retlw _ => [.w, .pc, .sp, .stkunf, .stackReset]
  | .call _ fast => [.pc, .pclath, .pclatu, .stack, .sp, .stkovf, .stackReset] ++ (if fast then [.ws, .statuss, .bsrs] else [])
  | .goto _ => [.pc, .pclath, .pclatu]
  | .tblrd => [.tablat, .free]
  | .tblrdPostInc => [.tablat, .free, .tblptr]
  | .tblrdPostDec => [.tablat, .free, .tblptr]
  | .tblrdPreInc => [.tablat, .free, .tblptr]
  | .tblwt => [.prefetch, .trace]
  | .tblwtPostInc => [.prefetch, .trace, .tblptr]
  | .tblwtPostDec => [.prefetch, .trace, .tblptr]
  | .tblwtPreInc => [.prefetch, .trace, .tblptr]

/-! ### The file operand, step by step (spec/20_memory.md R87; spec/40_byte_file_ops.md R201) -/

/-- The named and the reached address of the operand, and the state after its read; a write-class operand is not read. -/
def operandRead (u : FileUse) (f : Byte) (a : Access) (s : State) : Loc × State :=
  match u with
  | .read => ((operandBegin (s.ea f a) s).1,
      (dataRead true s.pc (operandBegin (s.ea f a) s).1.target (operandBegin (s.ea f a) s).2).2)
  | .modify => ((operandBegin (s.ea f a) s).1,
      (dataRead false s.pc (operandBegin (s.ea f a) s).1.target (operandBegin (s.ea f a) s).2).2)
  | .write => operandBegin (s.ea f a) s

/-- The value the operand's read gives. -/
def operandValue (f : Byte) (a : Access) (s : State) : Byte :=
  (dataRead true s.pc (operandBegin (s.ea f a) s).1.target (operandBegin (s.ea f a) s).2).1

/-- The state after an instruction that read its operand and writes nothing back. -/
def readNext (f : Byte) (a : Access) (s : State) : State :=
  operandEnd (operandRead .read f a s).1 false (operandRead .read f a s).2

/-- The state after a result `r` with flags `fl` went to W. -/
def resultToW (f : Byte) (a : Access) (r : Byte) (fl : FlagUpdate) (s : State) : State :=
  operandEnd (operandRead .read f a s).1 false (((operandRead .read f a s).2.setW r).applyFlags fl)

/-- The state after a result `r` with flags `fl` went to the file register, or was dropped with its flags
(spec/20_memory.md R89). -/
def resultToFile (u : FileUse) (f : Byte) (a : Access) (r : Byte) (fl : FlagUpdate) (s : State) : State :=
  operandEnd (operandRead u f a s).1 true
    (if dropped (operandRead u f a s).1 (operandRead u f a s).2 then (operandRead u f a s).2
     else (dataWrite fl.affects (operandRead u f a s).1.target r (operandRead u f a s).2).applyFlags fl)

/-- The state after a `BYTE_DA` instruction with result `r` and flags `fl` (spec/40_byte_file_ops.md R201). -/
def byteNext (f : Byte) (d : Dest) (a : Access) (r : Byte) (fl : FlagUpdate) (s : State) : State :=
  match d with
  | .w => resultToW f a r fl s
  | .file => resultToFile .modify f a r fl s

/-- `Skip()` where the condition holds: the pc moves on by 2 (spec/30_encoding.md R146). -/
def skipNext (cond : Prop) [Decidable cond] (s : State) : State :=
  if cond then { s with pc := evenTarget (s.pc + 2#21) } else s

/-! ### Results in value terms (spec/10_state.md R23, R24) -/

/-- `a + b + cin` modulo 256. -/
def sumByte (a b : Byte) (cin : Bool) : Byte := BitVec.ofNat 8 (a.toNat + b.toNat + cin.toNat)

/-- `a - b - bin` modulo 256. -/
def diffByte (a b : Byte) (bin : Bool) : Byte := BitVec.ofInt 8 ((a.toNat : Int) - b.toNat - bin.toNat)

/-- The value lies outside -128 to +127: "the 2's complement result exceeds +127 or is less than -128"
(spec/10_state.md R23). -/
def outsideByte (x : Int) : Bool := decide (x < -128 ∨ 127 < x)

/-- Z and N of a result; no other flag is written. -/
def logicFlags (r : Byte) : FlagUpdate :=
  { FlagUpdate.nothing with n := some (decide (128 ≤ r.toNat)), z := some (decide (r.toNat = 0)) }

/-- The five flags after `a + b + cin`: C and DC the carries out of bits 7 and 3, OV by the signed sum. -/
def addFlags (a b : Byte) (cin : Bool) : FlagUpdate where
  n := some (decide (128 ≤ (sumByte a b cin).toNat))
  ov := some (outsideByte (a.toInt + b.toInt + cin.toNat))
  z := some (decide ((sumByte a b cin).toNat = 0))
  dc := some (decide (16 ≤ a.toNat % 16 + b.toNat % 16 + cin.toNat))
  c := some (decide (256 ≤ a.toNat + b.toNat + cin.toNat))

/-- The five flags after `a - b - bin`: C and DC are 1 where no borrow occurred, OV by the signed difference. -/
def subFlags (a b : Byte) (bin : Bool) : FlagUpdate where
  n := some (decide (128 ≤ (diffByte a b bin).toNat))
  ov := some (outsideByte (a.toInt - b.toInt - bin.toNat))
  z := some (decide ((diffByte a b bin).toNat = 0))
  dc := some (decide (b.toNat % 16 + bin.toNat ≤ a.toNat % 16))
  c := some (decide (b.toNat + bin.toNat ≤ a.toNat))

/-- Two decimal digits packed in a byte. -/
def packBcd (x : Nat) : Byte := BitVec.ofNat 8 (x / 10 % 10 * 16 + x % 10)

/-- The bits of a core register that a write keeps (spec/10_state.md R45, "width implemented"). -/
def sfrMask : Sfr → Byte
  | .tosu => 0x1F#8
  | .tosh => 0xFF#8
  | .tosl => 0xFF#8
  | .stkptr => 0xDF#8
  | .pclatu => 0x1F#8
  | .pclath => 0xFF#8
  | .pcl => 0xFE#8
  | .tblptru => 0x1F#8
  | .tblptrh => 0xFF#8
  | .tblptrl => 0xFF#8
  | .tablat => 0xFF#8
  | .prodh => 0xFF#8
  | .prodl => 0xFF#8
  | .ind _ _ => 0x00#8
  | .fsrh _ => 0x0F#8
  | .fsrl _ => 0xFF#8
  | .wreg => 0xFF#8
  | .bsr => 0x0F#8
  | .status => 0x1F#8

end Sys2Proof.Machine
end

