-- ==== Sys2Proof/Certificates/Slice0/Obligations.lean ====
section
/-! DEFINITION. The statements for the provers. Each says in its docstring what it claims; one that rests on a choice of
the spec's own (a decision D<n>, general knowledge) or of the model names it, with its log entry. -/

open Sys2Proof Sys2Proof.Machine

/-- For every well-formed instruction i, with every operand at every value its encoding admits, and whatever
bytes follow, decoding the bytes of i answers i and those following bytes. The words of MOVWF, RETLW and RETURN
are the spec's general knowledge (log entry 27). -/
def Obligations.DecodeAfterEncode : Prop :=
  ∀ (i : Instr) (rest : List Byte), i.wf = true → decodeBytes (encodeBytes i ++ rest) = .ok (i, rest)

/-- Whatever two words w1, w2 are, if the decoder reads instruction i from them then i is well formed and its
encoding is w1 alone for a one-word first word, w1 and w2 for a two-word one: no bit of an accepted encoding is
dropped. The words of MOVWF, RETLW and RETURN are the spec's general knowledge (log entry 27); that other second
words are rejected is choices D32 and D36 (log entry 15). -/
def Obligations.EncodeAfterDecode : Prop :=
  ∀ (w1 w2 : Word) (i : Instr), decode w1 w2 = .ok i →
    i.wf = true ∧ encode i = (if isTwoWord w1 then [w1, w2] else [w1])

/-- Words printed by the spec as examples (ADDWF 0x20,1,0 = 2620h; RLCF 0x20,0,0 = 3420h; BCF 0x20,7,0 = 9E20h;
ADDLW 0x15 = 0F15h; BNC -3 = E3FDh; RETFIE 1 = 0011h; TBLRD+* = 000Bh; MOVFF = C120h F345h; CALL = ECA3h F091h;
LFSR = EE23h F0ABh) decode to those instructions. -/
def Obligations.DecodesWrittenOutWords : Prop :=
  decode 0b0010011000100000#16 0#16 = .ok (.addwf 0x20#8 .file .virt) ∧
  decode 0b0011010000100000#16 0#16 = .ok (.rlcf 0x20#8 .w .virt) ∧
  decode 0b1001111000100000#16 0#16 = .ok (.bcf 0x20#8 7#3 .virt) ∧
  decode 0b0000111100010101#16 0#16 = .ok (.addlw 0x15#8) ∧
  decode 0b1110001111111101#16 0#16 = .ok (.bnc 0xFD#8) ∧
  decode 0b0000000000010001#16 0#16 = .ok (.retfie true) ∧
  decode 0b0000000000001011#16 0#16 = .ok .tblrdPreInc ∧
  decode 0b1100000100100000#16 0b1111001101000101#16 = .ok (.movff 0x120#12 0x345#12) ∧
  decode 0b1110110010100011#16 0b1111000010010001#16 = .ok (.call 0x091A3#20 false) ∧
  decode 0b1110111000100011#16 0b1111000010101011#16 = .ok (.lfsr 2#2 0x3AB#12)

/-- A first word is rejected as an undefined opcode exactly when it is 0002h, or 0000h plus a low byte 14h to
DFh or E2h to FEh, or 1110 10xx xxxx xxxx, or 1110 1110 xxxx xxxx with bits 7:6 not 00; whatever word follows
it. That a step on such a word ends in a refusal is UndecodableWordsRefused. -/
def Obligations.UndefinedFirstWords : Prop :=
  ∀ w1 w2 : Word, decode w1 w2 = .error .undefinedOpcode ↔
    (w1.toNat = 0x0002 ∨ (0x0014 ≤ w1.toNat ∧ w1.toNat ≤ 0x00DF) ∨ (0x00E2 ≤ w1.toNat ∧ w1.toNat ≤ 0x00FE) ∨
     (0xE800 ≤ w1.toNat ∧ w1.toNat ≤ 0xEBFF) ∨ (0xEE40 ≤ w1.toNat ∧ w1.toNat ≤ 0xEEFF))

/-- MOVFF, CALL and GOTO first words are rejected for their second word exactly when its bits 15:12 are not
1111; an LFSR first word with ff = 0, 1 or 2 exactly when bits 15:8 of the second word are not 1111 0000; one
with ff = 3 always. That a step on such words ends in a refusal is UndecodableWordsRefused. -/
def Obligations.SecondWordForms : Prop :=
  ∀ w1 w2 : Word,
    (0xC000 ≤ w1.toNat ∧ w1.toNat < 0xD000 ∨ 0xEC00 ≤ w1.toNat ∧ w1.toNat < 0xEE00 ∨ 0xEF00 ≤ w1.toNat ∧ w1.toNat < 0xF000 →
      (decode w1 w2 = .error .badSecondWord ↔ w2.toNat < 0xF000)) ∧
    (0xEE00 ≤ w1.toNat ∧ w1.toNat < 0xEE30 → (decode w1 w2 = .error .badSecondWord ↔ ¬ (0xF000 ≤ w2.toNat ∧ w2.toNat < 0xF100))) ∧
    (0xEE30 ≤ w1.toNat ∧ w1.toNat < 0xEE40 → decode w1 w2 = .error .reservedFsr)

/-- Whatever instruction i is, if its encoding has a second word w then w alone decodes to a NOP, and executing
that NOP leaves the whole state unchanged. -/
def Obligations.SecondWordAloneIsNop : Prop :=
  ∀ (i : Instr) (w w2 : Word) (s : State), (encode i)[1]? = some w →
    ∃ x : BitVec 12, decode w w2 = .ok (.nopx x) ∧ exec (.nopx x) s = .next s

/-- In a running state with an even pc, no prefetched word, no pending stack-error reset and the hidden pc bit
0, if the sampled inputs ask for no reset, no watchdog reset and no interrupt that is enabled, and the four
bytes at the pc decode to i, then the step is exec of i on the sampled state with the pc moved past the words of
i. That an interrupt comes between two instructions only is choice D38 (log entry 36). -/
def Obligations.StepRunsDecoded : Prop :=
  ∀ (s : State) (i : Instr) (rest : List Byte),
    s.run = .running → s.pc.getLsbD 0 = false → s.prefetch = none → s.stackReset = none → s.pcHidden = false →
    s.sample.env.resetRequest = none → s.sample.env.wdtTimeout = false → s.sample.irqTaken = none →
    decodeBytes [s.pmRead8 s.pc, s.pmRead8 (s.pc + 1#21), s.pmRead8 (s.pc + 2#21), s.pmRead8 (s.pc + 3#21)] = .ok (i, rest) →
    step s = exec i { s.sample with pc := s.pc + BitVec.ofNat 21 (2 * i.words), prefetch := none }

/-- At State.reset: pc = 000000h, the hidden bit 0, SP = 0, STKOVF = STKUNF = 0, run state Running, no pending
stack-error reset, GIEH = GIEL = 0, TOSU, TOSH, TOSL read 00h, nothing saved to execute and no input. The other
registers' values there are the model's (log entries 3 and 7) and nothing is stated of them. That the two
enables are 0 after a reset is the spec's general knowledge (U10, log entry 10); that the top-of-stack bytes
read 00h at SP = 0 is choice D7 (log entry 22). -/
def Obligations.StateAtReset : Prop :=
  State.reset.pc = 0#21 ∧ State.reset.pcHidden = false ∧ State.reset.sp = 0#5 ∧ State.reset.stkovf = false ∧
  State.reset.stkunf = false ∧ State.reset.run = .running ∧ State.reset.stackReset = none ∧ State.reset.gieh = false ∧
  State.reset.giel = false ∧ State.reset.tos = 0#21 ∧ State.reset.prefetch = none ∧ State.reset.inputs = []

/-- State.reset satisfies Inv. -/
def Obligations.InvariantAtReset : Prop := State.reset.Inv

/-- From any state that satisfies Inv, reached or not, whatever the inputs, if the step answers a next state
then that state satisfies Inv. -/
def Obligations.InvariantKeptByStep : Prop :=
  ∀ s t : State, s.Inv → step s = .next t → t.Inv

/-- For every state and every well-formed instruction other than TRAP and TRET, exec answers a next state; TRAP
and TRET never do. That TRAP and TRET are refused is choice D21 (R295, R296; log entry 14); that LFSR with ff =
3 is no well-formed instruction is choice D36 (log entry 15). -/
def Obligations.EveryInstructionCompletes : Prop :=
  ∀ (i : Instr) (s : State), i.wf = true → ((∃ t : State, exec i s = .next t) ↔ i ≠ .trap ∧ i ≠ .tret)

/-- With the inputs sampled: a requested reset is performed and nothing else; else a pending stack-error reset,
with its cause; else a halted core does nothing; else a sleeping core does nothing unless a time-out or a wake
request comes, and then runs on from its pc, without a reset, as a running core does at that boundary; else a
running core with a time-out is reset as by the watchdog, and one without takes its interrupt and executes.
Sleep, wake and halt are choice D20 (log entry 17), the delay of the stack-error reset choice D28 (log entry
23). -/
def Obligations.BoundaryOrder : Prop :=
  ∀ s : State,
    let e := s.sample
    (∀ c, e.env.resetRequest = some c → step s = .next (e.resetBy c)) ∧
    (e.env.resetRequest = none →
      (s.stackReset = some .overflow → step s = .next (e.resetBy .stackOverflow)) ∧
      (s.stackReset = some .underflow → step s = .next (e.resetBy .stackUnderflow)) ∧
      (s.stackReset = none →
        (s.run = .halted → step s = .next e) ∧
        (s.run = .sleeping → e.env.wdtTimeout = false → e.env.wakeRequest = false → step s = .next e) ∧
        (s.run = .sleeping → e.env.wdtTimeout = true ∨ e.env.wakeRequest = true → step s = boundaryRun { e with run := .running }) ∧
        (s.run = .running → e.env.wdtTimeout = true → step s = .next (e.resetBy .wdt)) ∧
        (s.run = .running → e.env.wdtTimeout = false → step s = boundaryRun e)))

/-- On every device, each of the 128 addresses 000h to 07Fh is a GPR; and a file field below 80h with a = 0
reaches exactly the address it names there, whatever the BSR holds. -/
def Obligations.AccessRamIsGpr : Prop :=
  (∀ (dev : Device) (t : DataAddr), t.toNat < 128 → placeOf dev t = .gpr) ∧
  (∀ (s : State) (f : Byte), f.toNat < 128 → (s.ea f .virt).toNat = f.toNat ∧ s.place (s.ea f .virt) = .gpr)

/-- With a = 1 the address is BSR times 256 plus f; with a = 0 it is f where bit 7 of f is 0 and F00h plus f
where it is 1, whatever the BSR holds. -/
def Obligations.FileAddressForms : Prop :=
  ∀ (s : State) (f : Byte),
    (s.ea f .banked).toNat = 256 * s.bsr.toNat + f.toNat ∧
    (f.toNat < 128 → (s.ea f .virt).toNat = f.toNat) ∧
    (128 ≤ f.toNat → (s.ea f .virt).toNat = 0xF00 + f.toNat)

/-- INDFn, POSTINCn and POSTDECn reach FSRn and change nothing before the access; PREINCn first adds 1 to FSRn
and reaches that; PLUSWn reaches FSRn plus W read as signed; every other address reaches itself. After the
access POSTINCn adds 1 to FSRn and POSTDECn takes 1 from it, and nothing else changes, unless the instruction
wrote FSRnL or FSRnH of the same n, when nothing changes; after every other address nothing changes. All sums
are modulo 4096. -/
def Obligations.IndirectAddressForms : Prop :=
  ∀ (s : State) (t0 : DataAddr),
    (∀ n, s.place t0 = .sfr (.ind n .indf) ∨ s.place t0 = .sfr (.ind n .postinc) ∨ s.place t0 = .sfr (.ind n .postdec) →
      operandBegin t0 s = ({ named := t0, target := s.fsr n }, s)) ∧
    (∀ n, s.place t0 = .sfr (.ind n .preinc) →
      operandBegin t0 s = ({ named := t0, target := BitVec.ofNat 12 ((s.fsr n).toNat + 1) },
        s.setFsr n (BitVec.ofNat 12 ((s.fsr n).toNat + 1)))) ∧
    (∀ n, s.place t0 = .sfr (.ind n .plusw) →
      operandBegin t0 s = ({ named := t0, target := BitVec.ofInt 12 ((s.fsr n).toNat + s.w.toInt) }, s)) ∧
    (s.isInd t0 = false → operandBegin t0 s = ({ named := t0, target := t0 }, s)) ∧
    (∀ (t : DataAddr) (wrote : Bool),
      let x := operandEnd { named := t0, target := t } wrote s
      (∀ n, s.place t0 = .sfr (.ind n .postinc) ∨ s.place t0 = .sfr (.ind n .postdec) →
        if wrote = true ∧ (s.place t = .sfr (.fsrl n) ∨ s.place t = .sfr (.fsrh n)) then x = s
        else
          (s.place t0 = .sfr (.ind n .postinc) → (x.fsr n).toNat = ((s.fsr n).toNat + 1) % 4096) ∧
          (s.place t0 = .sfr (.ind n .postdec) → (x.fsr n).toNat = ((s.fsr n).toNat + 4095) % 4096) ∧
          keepsAllBut [.fsr n] s x ∧ x.ram = s.ram ∧ x.pm = s.pm) ∧
      ((∀ n, s.place t0 ≠ .sfr (.ind n .postinc) ∧ s.place t0 ≠ .sfr (.ind n .postdec)) → x = s))

/-- For a GPR address t, a write of v through DataWrite makes DataRead of t give v; DataRead of any other
address gives what it gave before; whatever the class of the read and whether or not the instruction affects
flags. -/
def Obligations.GprReadsLastWrite : Prop :=
  ∀ (s : State) (t u : DataAddr) (v : Byte) (affects readClass : Bool),
    Memory.wf s.ram = true → s.place t = .gpr →
    (dataRead readClass s.pc u (dataWrite affects t v s)).1 = (if u = t then v else (dataRead readClass s.pc u s).1)

/-- At an address of a core register that holds state (not an INDF-family address; not PCL; a top-of-stack byte
only while SP is not 0), DataRead after a DataWrite of v gives v with the unimplemented bits 0, whether or not
the instruction affects flags (STATUS itself: only for one that affects none). And whatever core register is
written, every location that is not that register reads as before: the other byte of an FSR and the other bytes
of TBLPTR and of the top of stack among them; only the top-of-stack bytes may read otherwise after a write of
STKPTR, which selects the word they show. The bits of STKPTR are the spec's general knowledge (choice D6, log
entry 8), that all of them are written is choice D27 (log entry 22), the default addresses choice D5 (log entry
8); that BSR keeps four bits is choice D4 (log entry 19). -/
def Obligations.CoreRegistersReadBack : Prop :=
  ∀ (s : State) (t : DataAddr) (r : Sfr) (v : Byte) (affects readClass : Bool),
    s.place t = .sfr r →
    (r ≠ .pcl → (∀ n m, r ≠ .ind n m) → (r = .tosu ∨ r = .tosh ∨ r = .tosl → s.sp ≠ 0#5) → (r = .status → affects = false) →
      (dataRead readClass s.pc t (dataWrite affects t v s)).1 = v &&& sfrMask r) ∧
    (∀ u : DataAddr, s.place u ≠ .sfr r →
      (r = .stkptr → s.place u ≠ .sfr .tosu ∧ s.place u ≠ .sfr .tosh ∧ s.place u ≠ .sfr .tosl) →
      (dataRead readClass s.pc u (dataWrite affects t v s)).1 = (dataRead readClass s.pc u s).1)

/-- With SP in 1..31 a write of v to TOSL, TOSH or TOSU replaces bits 7:0, 15:8 or 20:16 of the top word and
leaves its other bits, every other stack word and the whole rest of the state; with SP = 0 the write changes
nothing and the three bytes read 00h. -/
def Obligations.TopOfStackWindow : Prop :=
  ∀ (s : State) (v : Byte) (affects : Bool),
    (s.sp ≠ 0#5 →
      (s.writeSfr affects .tosl v).tos.toNat = s.tos.toNat / 256 * 256 + v.toNat ∧
      (s.writeSfr affects .tosh v).tos.toNat = s.tos.toNat / 65536 * 65536 + v.toNat * 256 + s.tos.toNat % 256 ∧
      (s.writeSfr affects .tosu v).tos.toNat = v.toNat % 32 * 65536 + s.tos.toNat % 65536 ∧
      (∀ r, r = .tosl ∨ r = .tosh ∨ r = .tosu → ∃ k : Vector ProgAddr 31,
        s.writeSfr affects r v = { s with stack := k } ∧ ∀ j : Nat, j + 1 ≠ s.sp.toNat → k[j]? = s.stack[j]?)) ∧
    (s.sp = 0#5 → ∀ r, r = .tosl ∨ r = .tosh ∨ r = .tosu → s.writeSfr affects r v = s ∧ s.readSfr s.pc r = 0#8)

/-- A read of GIE_REG gives GIEH, GIEL and six environment bits (from the sampled byte); a write sets GIEH and
GIEL from bits 7 and 6 and outputs bits 5:0 (choice D19). A read of a peripheral SFR gives the sampled byte. A
read of either records the address read as an output and changes nothing else but, where no byte is sampled and
the environment's bits are a free value, the count of free values. A write to a peripheral SFR is recorded as an
output and changes nothing else. The form of the recorded outputs is the model's (log entry 42). -/
def Obligations.EnableByteAndPeripherals : Prop :=
  ∀ (s : State) (t : DataAddr) (v : Byte) (readClass affects : Bool),
    let r := dataRead readClass s.pc t s
    (s.place t = .gie ∨ s.place t = .peripheral →
      r.2 = { s with trace := .sfrRead t :: s.trace, free := if s.env.periph = none then s.free + 1 else s.free }) ∧
    (s.place t = .gie →
      r.1.toNat / 64 = 2 * s.gieh.toNat + s.giel.toNat ∧ (∀ e, s.env.periph = some e → r.1.toNat % 64 = e.toNat % 64) ∧
      dataWrite affects t v s = { s with gieh := decide (128 ≤ v.toNat), giel := decide (64 ≤ v.toNat % 128), trace := .gieRest (BitVec.ofNat 6 v.toNat) :: s.trace }) ∧
    (s.place t = .peripheral →
      (∀ e, s.env.periph = some e → r.1 = e) ∧
      dataWrite affects t v s = { s with trace := .sfrWrite t v :: s.trace })

/-- A read of an unimplemented location gives 00h and changes nothing; a write changes nothing. An instruction
whose file operand reaches it, named directly or through an FSR, reads 00h; one that writes its operand, read-
modify-write or write only, whatever its result r and its flags, leaves the state it started from but for those
flags and the step of the FSR it went through (directly named: for the flags alone). -/
def Obligations.UnimplementedReadsZero : Prop :=
  ∀ (s : State) (t : DataAddr), s.place t = .unimplemented →
    (∀ (readClass : Bool) (pcSeen : ProgAddr), dataRead readClass pcSeen t s = (0#8, s)) ∧
    (∀ (affects : Bool) (v : Byte), dataWrite affects t v s = s) ∧
    (∀ (f : Byte) (a : Access) (op : Byte → Byte → Bool → Alu), s.ea f a = t →
      byteDA f .file a op s = ((op 0#8 s.w s.status.c).val, s.applyFlags (op 0#8 s.w s.status.c).flags)) ∧
    (∀ (f : Byte) (a : Access), (operandBegin (s.ea f a) s).1.target = t →
      let b := operandBegin (s.ea f a) s
      operandValue f a s = 0#8 ∧
      (∀ op : Byte → Byte → Bool → Alu, byteDA f .file a op s =
        ((op 0#8 s.w s.status.c).val, operandEnd b.1 true (b.2.applyFlags (op 0#8 s.w s.status.c).flags))) ∧
      (∀ (u : FileUse) (r : Byte) (fl : FlagUpdate), u ≠ .read →
        resultToFile u f a r fl s = operandEnd b.1 true (b.2.applyFlags fl)))

/-- When an operand names an INDF-family address and reaches one: it reads 00h (MOVF to W leaves W = 00h, Z = 1,
N = 0); and an instruction that writes its operand (MOVWF, CLRF, SETF, NEGF, the bit changes, the byte
instructions with d = 1) stores nothing and changes no register but the FSR it steps and, for a skip
instruction, the pc: no flag is written. That MOVF writes Z and N and no other flag is the flag table of R200,
the spec's general knowledge (log entry 24); that the FSR still steps is choice D9, that no flag is written
choice D10 (log entry 20). -/
def Obligations.IndfReachedThroughIndf : Prop :=
  ∀ (s : State) (f : Byte) (a : Access), dropped (operandBegin (s.ea f a) s).1 s = true →
    operandValue f a s = 0#8 ∧
    (∃ t, exec (.movf f .w a) s = .next t ∧ t.w = 0#8 ∧ t.status = { s.status with z := true, n := false }) ∧
    (∀ (i : Instr) (u : FileUse) (t : State), fileOperand i = some (f, a, u) → u ≠ .read → exec i s = .next t →
      keepsAllBut (ownRegs i ++ s.fsrOf (s.ea f a)) s t ∧ t.ram = s.ram ∧ t.pm = s.pm)

/-- MOVWF through POSTINCn or POSTDECn whose target is a byte of the same FSRn leaves FSRn as the write left it,
with no step; MOVF to W of the same operand reads the old byte and then steps FSRn. That the step is dropped for
FSRnH as for FSRnL is choice D9 (log entry 20); that MOVF writes Z and N is the flag table of R200, the spec's
general knowledge (log entry 24). -/
def Obligations.FsrWriteDominates : Prop :=
  ∀ (s : State) (f : Byte) (a : Access) (n : Fsr) (r : Sfr),
    r = .fsrl n ∨ r = .fsrh n → s.place (s.fsr n) = .sfr r →
    (s.place (s.ea f a) = .sfr (.ind n .postinc) →
      exec (.movwf f a) s = .next (s.writeSfr false r s.w) ∧
      exec (.movf f .w a) s = .next ((((s.setW (s.readSfr s.pc r)).applyFlags (logicFlags (s.readSfr s.pc r)))).setFsr n (s.fsr n + 1#12))) ∧
    (s.place (s.ea f a) = .sfr (.ind n .postdec) →
      exec (.movwf f a) s = .next (s.writeSfr false r s.w) ∧
      exec (.movf f .w a) s = .next ((((s.setW (s.readSfr s.pc r)).applyFlags (logicFlags (s.readSfr s.pc r)))).setFsr n (s.fsr n - 1#12)))

/-- Whatever byte operation has its file destination resolve to STATUS: if it affects a flag, none of the five
bits takes the data written, the flags it affects take their values and the others stay; if it affects none, the
five bits are bits 4:0 of the result. CLRF STATUS leaves 000u u1uu, SETF STATUS 1Fh, BCF STATUS,0 clears C
alone. That SETF writes no flag, and so takes the data, is the flag table of R200, the spec's general knowledge
(log entry 24). -/
def Obligations.StatusAsDestination : Prop :=
  ∀ (s : State) (f : Byte) (a : Access),
    s.place (operandBegin (s.ea f a) s).1.target = .sfr .status →
    (∀ (op : Byte → Byte → Bool → Alu),
      (byteDA f .file a op s).2.status =
        if (op s.status.toByte s.w s.status.c).flags.affects
        then s.status.update (op s.status.toByte s.w s.status.c).flags
        else Status.ofByte (op s.status.toByte s.w s.status.c).val) ∧
    (∃ t, exec (.clrf f a) s = .next t ∧ t.status = { s.status with z := true }) ∧
    (∃ t, exec (.setf f a) s = .next t ∧ t.status.toByte = 0x1F#8) ∧
    (∃ t, exec (.movwf f a) s = .next t ∧ t.status.toByte = s.w &&& 0x1F#8) ∧
    (∃ t, exec (.bcf f 0#3 a) s = .next t ∧ t.status = { s.status with c := false })

/-- At any address of PCL: a read-class read gives bits 7:0 of the pc the instruction sees and leaves PCLATH,
PCLATU with its bits 15:8, 20:16 and nothing else changed; a read that is written back gives the same byte and
changes nothing. So every read-class instruction whose file operand reaches PCL, named directly or through an
FSR (all d = 0 forms, the compares, TSTFSZ, BTFSC, BTFSS, MULWF), leaves PCLATH, PCLATU = pc[15:8], pc[20:16];
MOVF to W leaves W = pc[7:0] and the pc unchanged. That the bit tests are of the read class is choice D14. -/
def Obligations.PclReadLoadsLatches : Prop :=
  (∀ (s : State) (t : DataAddr) (pcSeen : ProgAddr), s.place t = .sfr .pcl →
    dataRead true pcSeen t s = (BitVec.ofNat 8 pcSeen.toNat,
      { s with pclath := BitVec.ofNat 8 (pcSeen.toNat / 256), pclatu := BitVec.ofNat 5 (pcSeen.toNat / 65536) }) ∧
    dataRead false pcSeen t s = (BitVec.ofNat 8 pcSeen.toNat, s)) ∧
  (∀ (s : State) (f : Byte) (a : Access), s.place (operandBegin (s.ea f a) s).1.target = .sfr .pcl →
    (∃ t, exec (.movf f .w a) s = .next t ∧ t.w.toNat = s.pc.toNat % 256 ∧ t.pclath.toNat = s.pc.toNat / 256 % 256 ∧
      t.pclatu.toNat = s.pc.toNat / 65536 ∧ t.pc = s.pc) ∧
    (∀ i : Instr, fileOperand i = some (f, a, .read) →
      ∃ t, exec i s = .next t ∧ t.pclath.toNat = s.pc.toNat / 256 % 256 ∧ t.pclatu.toNat = s.pc.toNat / 65536))

/-- A DataWrite of v at any address of PCL loads the pc with PCLATU:PCLATH:v, bit 0 dropped, and changes nothing
else. So with an operand that reaches PCL, named directly or through an FSR: MOVWF, CLRF, SETF and any byte
operation with d = 1 load the pc with PCLATU:PCLATH:result and keep both latches; the operation reads pc[7:0].
MOVFF from a GPR to an address that reaches PCL does so with the GPR's byte. The spec's example: ADDWF PCL with
pc = 0003F0h, W = 30h, PCLATH = 05h, PCLATU = 1h gives pc = 010520h. -/
def Obligations.PclWriteJumps : Prop :=
  (∀ (s : State) (t : DataAddr) (v : Byte) (affects : Bool), s.place t = .sfr .pcl →
    dataWrite affects t v s =
      { s with pc := BitVec.ofNat 21 (65536 * s.pclatu.toNat + 256 * s.pclath.toNat + v.toNat / 2 * 2) }) ∧
  (∀ (s : State) (f : Byte) (a : Access), s.place (operandBegin (s.ea f a) s).1.target = .sfr .pcl →
    (∀ op : Byte → Byte → Bool → Alu,
      (byteDA f .file a op s).2.pc.toNat =
        65536 * s.pclatu.toNat + 256 * s.pclath.toNat + (op (s.pc.setWidth 8) s.w s.status.c).val.toNat / 2 * 2 ∧
      (byteDA f .file a op s).2.pclath = s.pclath ∧ (byteDA f .file a op s).2.pclatu = s.pclatu) ∧
    (∀ i ∈ [Instr.movwf f a, Instr.clrf f a, Instr.setf f a], ∃ t, exec i s = .next t ∧
      t.pclath = s.pclath ∧ t.pclatu = s.pclatu ∧
      t.pc.toNat = 65536 * s.pclatu.toNat + 256 * s.pclath.toNat +
        (if i = .movwf f a then s.w.toNat / 2 * 2 else if i = .clrf f a then 0 else 0xFE))) ∧
  (∀ (s : State) (f g : DataAddr), s.place f = .gpr → s.place (operandBegin g s).1.target = .sfr .pcl →
    ∃ t, exec (.movff f g) s = .next t ∧ t.pclath = s.pclath ∧ t.pclatu = s.pclatu ∧
      t.pc.toNat = 65536 * s.pclatu.toNat + 256 * s.pclath.toNat + (Memory.read s.ram f.toNat).toNat / 2 * 2) ∧
  (∀ s : State, s.place 0xFF9#12 = .sfr .pcl → s.pc = 0x0003F0#21 → s.w = 0x30#8 → s.pclath = 0x05#8 → s.pclatu = 1#5 →
    ∃ t, exec (.addwf 0xF9#8 .file .virt) s = .next t ∧ t.pc = 0x010520#21)

/-- For all bytes a, b: the addition gives the sum modulo 256, C = carry out of bit 7, DC = carry out of bit 3,
Z = result is 0, N = result bit 7, OV = the signed result exceeds +127 or is less than -128, which is the carry
out of bit 6 XOR that of bit 7. The subtraction gives the difference, C = 1 and DC = 1 exactly where no borrow
occurred, and OV, Z, N alike. -/
def Obligations.AluFlagDefinitions : Prop :=
  (∀ (a b : Byte) (cin : Bool),
    addCore a b cin = { val := sumByte a b cin, flags := addFlags a b cin } ∧
    (addFlags a b cin).ov = some ((decide (128 ≤ a.toNat % 128 + b.toNat % 128 + cin.toNat)) ^^ (decide (256 ≤ a.toNat + b.toNat + cin.toNat))) ∧
    (addFlags a b cin).n = some ((sumByte a b cin).getLsbD 7)) ∧
  (∀ (a b : Byte) (bin : Bool),
    subCore a b bin = { val := diffByte a b bin, flags := subFlags a b bin } ∧
    (subFlags a b bin).n = some ((diffByte a b bin).getLsbD 7))

/-- With v the value the operand reads: ADDWF gives v + W, ADDWFC v + W + C, INCF v + 1, modulo 256, with C, DC,
Z, OV, N of that sum; the result and flags go to W or to the operand, by the procedure of R201 (a write dropped
through the INDF family drops the flags too). Every other piece of state is as that procedure leaves it. The
flag table is the spec's general knowledge (log entry 24). -/
def Obligations.AddInstructionResults : Prop :=
  ∀ (s : State) (f : Byte) (d : Dest) (a : Access),
    exec (.addwf f d a) s = .next (byteNext f d a (sumByte (operandValue f a s) s.w false) (addFlags (operandValue f a s) s.w false) s) ∧
    exec (.addwfc f d a) s =
      .next (byteNext f d a (sumByte (operandValue f a s) s.w s.status.c) (addFlags (operandValue f a s) s.w s.status.c) s) ∧
    exec (.incf f d a) s = .next (byteNext f d a (sumByte (operandValue f a s) 1#8 false) (addFlags (operandValue f a s) 1#8 false) s)

/-- With v the value the operand reads: SUBWF gives v - W, SUBWFB v - W - (1 - C), SUBFWB W - v - (1 - C), DECF
v - 1, NEGF 0 - v, modulo 256, with C, DC = 1 where no borrow occurred and OV, Z, N of the difference; the
result goes to W or to the operand (NEGF: always the operand). The flag table is the spec's general knowledge
(log entry 24). -/
def Obligations.SubtractInstructionResults : Prop :=
  ∀ (s : State) (f : Byte) (d : Dest) (a : Access),
    exec (.subwf f d a) s = .next (byteNext f d a (diffByte (operandValue f a s) s.w false) (subFlags (operandValue f a s) s.w false) s) ∧
    exec (.subwfb f d a) s =
      .next (byteNext f d a (diffByte (operandValue f a s) s.w (!s.status.c)) (subFlags (operandValue f a s) s.w (!s.status.c)) s) ∧
    exec (.subfwb f d a) s =
      .next (byteNext f d a (diffByte s.w (operandValue f a s) (!s.status.c)) (subFlags s.w (operandValue f a s) (!s.status.c)) s) ∧
    exec (.decf f d a) s = .next (byteNext f d a (diffByte (operandValue f a s) 1#8 false) (subFlags (operandValue f a s) 1#8 false) s) ∧
    exec (.negf f a) s = .next (byteNext f .file a (diffByte 0#8 (operandValue f a s) false) (subFlags 0#8 (operandValue f a s) false) s)

/-- With v the value the operand reads: ANDWF gives v AND W, IORWF v OR W, XORWF v XOR W, COMF NOT v, MOVF v,
each with Z and N of the result and no other flag; SWAPF gives the low nibble of v above its high nibble and no
flag; to W or to the operand. MOVWF stores W in its operand, which it does not read, with no flag. The flag
table is the spec's general knowledge (log entry 24). -/
def Obligations.LogicAndMoveResults : Prop :=
  ∀ (s : State) (f : Byte) (d : Dest) (a : Access),
    exec (.andwf f d a) s = .next (byteNext f d a (operandValue f a s &&& s.w) (logicFlags (operandValue f a s &&& s.w)) s) ∧
    exec (.iorwf f d a) s = .next (byteNext f d a (operandValue f a s ||| s.w) (logicFlags (operandValue f a s ||| s.w)) s) ∧
    exec (.xorwf f d a) s = .next (byteNext f d a (operandValue f a s ^^^ s.w) (logicFlags (operandValue f a s ^^^ s.w)) s) ∧
    exec (.comf f d a) s = .next (byteNext f d a (~~~(operandValue f a s)) (logicFlags (~~~(operandValue f a s))) s) ∧
    exec (.movf f d a) s = .next (byteNext f d a (operandValue f a s) (logicFlags (operandValue f a s)) s) ∧
    exec (.swapf f d a) s =
      .next (byteNext f d a (BitVec.ofNat 8 ((operandValue f a s).toNat % 16 * 16 + (operandValue f a s).toNat / 16)) FlagUpdate.nothing s) ∧
    exec (.movwf f a) s = .next (resultToFile .write f a s.w FlagUpdate.nothing s)

/-- With v the value the operand reads and c the carry before: RLCF gives 2v + c modulo 256 with C = bit 7 of v;
RRCF gives v/2 + 128c with C = bit 0 of v; RLNCF gives 2v + bit 7 of v; RRNCF gives v/2 + 128 times bit 0 of v;
all with Z and N of the result, the last two with no write of C. The flag table is the spec's general knowledge
(log entry 24). -/
def Obligations.RotateInstructionResults : Prop :=
  ∀ (s : State) (f : Byte) (d : Dest) (a : Access),
    let v := (operandValue f a s).toNat
    let rlc : Byte := BitVec.ofNat 8 (2 * v + s.status.c.toNat)
    let rrc : Byte := BitVec.ofNat 8 (v / 2 + 128 * s.status.c.toNat)
    let rl : Byte := BitVec.ofNat 8 (2 * v + v / 128)
    let rr : Byte := BitVec.ofNat 8 (v / 2 + 128 * (v % 2))
    exec (.rlcf f d a) s = .next (byteNext f d a rlc { logicFlags rlc with c := some (decide (128 ≤ v)) } s) ∧
    exec (.rrcf f d a) s = .next (byteNext f d a rrc { logicFlags rrc with c := some (decide (v % 2 = 1)) } s) ∧
    exec (.rlncf f d a) s = .next (byteNext f d a rl (logicFlags rl) s) ∧
    exec (.rrncf f d a) s = .next (byteNext f d a rr (logicFlags rr) s)

/-- The words 0110 101a ffff ffff and 0110 100a ffff ffff are CLRF and SETF. Each writes 00h, respectively FFh,
to the location its operand reaches, unread; CLRF sets Z alone and does not write it where the write is dropped;
SETF writes no flag. CLRF STATUS sets Z and leaves the other four, SETF STATUS gives 1Fh; CLRF PCL and SETF PCL
jump to PCLATU:PCLATH:00h and :FEh; on a GPR only that byte, and Z for CLRF, changes. That SETF writes no flag
is the flag table of R200, the spec's general knowledge (log entry 24). -/
def Obligations.ClearAndSetResults : Prop :=
  ∀ (s : State) (f : Byte) (a : Access) (w2 : Word),
    decode ((0b0110101#7 ++ (if a = .banked then 1#1 else 0#1) ++ f).setWidth 16) w2 = .ok (.clrf f a) ∧
    decode ((0b0110100#7 ++ (if a = .banked then 1#1 else 0#1) ++ f).setWidth 16) w2 = .ok (.setf f a) ∧
    exec (.clrf f a) s = .next (resultToFile .write f a 0#8 { FlagUpdate.nothing with z := some true } s) ∧
    exec (.setf f a) s = .next (resultToFile .write f a 0xFF#8 FlagUpdate.nothing s) ∧
    (dropped (operandBegin (s.ea f a) s).1 s = true → ∃ t, exec (.clrf f a) s = .next t ∧ t.status = s.status ∧ t.ram = s.ram) ∧
    (s.place (s.ea f a) = .sfr .status →
      exec (.clrf f a) s = .next (s.setStatus { s.status with z := true }) ∧
      exec (.setf f a) s = .next (s.setStatus { n := true, ov := true, z := true, dc := true, c := true })) ∧
    (s.place (s.ea f a) = .sfr .pcl → ∃ t u, exec (.clrf f a) s = .next t ∧ exec (.setf f a) s = .next u ∧
      t.pc.toNat = 65536 * s.pclatu.toNat + 256 * s.pclath.toNat ∧
      u.pc.toNat = 65536 * s.pclatu.toNat + 256 * s.pclath.toNat + 0xFE) ∧
    (s.place (s.ea f a) = .gpr →
      exec (.clrf f a) s =
        .next { s with ram := Memory.write s.ram (s.ea f a).toNat 0#8, status := { s.status with z := true } } ∧
      exec (.setf f a) s = .next { s with ram := Memory.write s.ram (s.ea f a).toNat 0xFF#8 })

/-- With v the value the operand reads: DECFSZ and DCFSNZ write (v - 1) mod 256 and skip when the result is 0,
respectively not 0; INCFSZ and ICFSNZ write (v + 1) mod 256 and skip alike; to W or to the operand, with no
flag; a skip adds 2 to the pc. The senses of the skips are the spec's general knowledge and its conflict C2 (log
entry 24). -/
def Obligations.SkipOnResult : Prop :=
  ∀ (s : State) (f : Byte) (d : Dest) (a : Access),
    let dn := diffByte (operandValue f a s) 1#8 false
    let up := sumByte (operandValue f a s) 1#8 false
    exec (.decfsz f d a) s = .next (skipNext (dn.toNat = 0) (byteNext f d a dn FlagUpdate.nothing s)) ∧
    exec (.dcfsnz f d a) s = .next (skipNext (dn.toNat ≠ 0) (byteNext f d a dn FlagUpdate.nothing s)) ∧
    exec (.incfsz f d a) s = .next (skipNext (up.toNat = 0) (byteNext f d a up FlagUpdate.nothing s)) ∧
    exec (.icfsnz f d a) s = .next (skipNext (up.toNat ≠ 0) (byteNext f d a up FlagUpdate.nothing s))

/-- With v the value the operand reads: CPFSEQ skips when v = W, CPFSGT when v > W, CPFSLT when v < W
(unsigned), TSTFSZ when v = 0, BTFSC when bit b of v is 0, BTFSS when it is 1; the state is otherwise that after
the operand's read. The senses and the unsigned comparison are the spec's general knowledge (log entry 24). -/
def Obligations.CompareAndTestSkips : Prop :=
  ∀ (s : State) (f : Byte) (a : Access) (b : BitVec 3),
    exec (.cpfseq f a) s = .next (skipNext ((operandValue f a s).toNat = s.w.toNat) (readNext f a s)) ∧
    exec (.cpfsgt f a) s = .next (skipNext (s.w.toNat < (operandValue f a s).toNat) (readNext f a s)) ∧
    exec (.cpfslt f a) s = .next (skipNext ((operandValue f a s).toNat < s.w.toNat) (readNext f a s)) ∧
    exec (.tstfsz f a) s = .next (skipNext ((operandValue f a s).toNat = 0) (readNext f a s)) ∧
    exec (.btfsc f b a) s = .next (skipNext ((operandValue f a s).toNat / 2 ^ b.toNat % 2 = 0) (readNext f a s)) ∧
    exec (.btfss f b a) s = .next (skipNext ((operandValue f a s).toNat / 2 ^ b.toNat % 2 = 1) (readNext f a s))

/-- The words 0000 001a ffff ffff and 0000 1101 kkkk kkkk are MULWF and MULLW. The 16-bit product of W and the
value the operand reads (read before the product is written), respectively of W and k, goes to PRODH:PRODL; W,
the file register and all flags are unchanged; after MULWF every other piece of state is as after the operand's
read, after MULLW as before. -/
def Obligations.MultiplyResults : Prop :=
  ∀ (s : State) (f k : Byte) (a : Access) (w2 : Word),
    decode ((0b0000001#7 ++ (if a = .banked then 1#1 else 0#1) ++ f).setWidth 16) w2 = .ok (.mulwf f a) ∧
    decode ((0b00001101#8 ++ k).setWidth 16) w2 = .ok (.mullw k) ∧
    (∃ (hi lo : Byte), 256 * hi.toNat + lo.toNat = s.w.toNat * (operandValue f a s).toNat ∧
      exec (.mulwf f a) s = .next { readNext f a s with prodh := hi, prodl := lo } ∧
      (readNext f a s).w = s.w ∧ (readNext f a s).status = s.status ∧ (readNext f a s).ram = s.ram) ∧
    (∃ (hi lo : Byte), 256 * hi.toNat + lo.toNat = s.w.toNat * k.toNat ∧
      exec (.mullw k) s = .next { s with prodh := hi, prodl := lo })

/-- MOVFF f, g: the source is resolved, read with the pc 2 lower and its FSR stepped; then, from that state, the
destination is resolved, the byte written there unless dropped, and its FSR stepped; no flag. For two plain GPRs
the byte at f is copied to g and nothing else changes; from POSTINCn to POSTINCn over two GPRs, [FSRn] is copied
to [FSRn + 1] and FSRn ends 2 higher. That the source's FSR is stepped before the destination is resolved, and
so POSTINCn to POSTINCn ends 2 higher, is the spec's inference in R250 (a) (log entry 40); the pc a source of
PCL reads is choice D41. That MOVFF writes no flag is the flag table of R200, the spec's general knowledge (log
entry 24). -/
def Obligations.MovffResult : Prop :=
  ∀ (s : State) (f g : DataAddr),
    (let l := (operandBegin f s).1
     let v := dataRead true (s.pc - 2#21) l.target (operandBegin f s).2
     let s2 := operandEnd l false v.2
     let m := (operandBegin g s2).1
     let s3 := (operandBegin g s2).2
     exec (.movff f g) s = .next (operandEnd m true (if dropped m s3 then s3 else dataWrite false m.target v.1 s3))) ∧
    (s.place f = .gpr → s.place g = .gpr →
      exec (.movff f g) s = .next { s with ram := Memory.write s.ram g.toNat (Memory.read s.ram f.toNat) }) ∧
    (∀ n : Fsr, s.place f = .sfr (.ind n .postinc) → s.place (s.fsr n) = .gpr → s.place (s.fsr n + 1#12) = .gpr →
      exec (.movff f f) s =
        .next ({ s with ram := Memory.write s.ram (s.fsr n + 1#12).toNat (Memory.read s.ram (s.fsr n).toNat) }.setFsr n (s.fsr n + 2#12)))

/-- With v the value the operand reads: BCF writes back v with bit b 0, BSF v with bit b 1, BTG v with bit b
inverted, the other seven bits as read; no flag is written (for BTG that is the spec's general knowledge); the
rest of the state is as the read-modify-write procedure leaves it. BTG's row of the flag table is in log entry
24. -/
def Obligations.BitChangeResults : Prop :=
  ∀ (s : State) (f : Byte) (b : BitVec 3) (a : Access),
    ∃ c t g : Byte,
      (∀ j : Nat, j < 8 → c.getLsbD j = (if j = b.toNat then false else (operandValue f a s).getLsbD j) ∧
        t.getLsbD j = (if j = b.toNat then true else (operandValue f a s).getLsbD j) ∧
        g.getLsbD j = (if j = b.toNat then !(operandValue f a s).getLsbD j else (operandValue f a s).getLsbD j)) ∧
      exec (.bcf f b a) s = .next (resultToFile .modify f a c FlagUpdate.nothing s) ∧
      exec (.bsf f b a) s = .next (resultToFile .modify f a t FlagUpdate.nothing s) ∧
      exec (.btg f b a) s = .next (resultToFile .modify f a g FlagUpdate.nothing s)

/-- ADDLW leaves W = (W + k) mod 256, SUBLW leaves W = (k - W) mod 256 (the literal is the minuend), each with
C, DC, Z, OV, N of that operation, and every other piece of state unchanged. The flag table is the spec's
general knowledge (log entry 24). -/
def Obligations.LiteralArithmetic : Prop :=
  ∀ (s : State) (k : Byte),
    exec (.addlw k) s = .next { s with w := sumByte s.w k false, status := s.status.update (addFlags s.w k false) } ∧
    exec (.sublw k) s = .next { s with w := diffByte k s.w false, status := s.status.update (subFlags k s.w false) }

/-- ANDLW, IORLW, XORLW leave W with the result and Z, N of it; MOVLW leaves W = k with no flag; MOVLB leaves
BSR = k[3:0]; LFSR ff, k leaves FSRff = k for ff = 0, 1, 2 and is refused by name for ff = 3. Every other piece
of state is unchanged. The flag table is the spec's general knowledge (log entry 24). MOVLB dropping k[7:4] is
choice D37 (log entry 19), the refusal choice D36 (log entry 15). -/
def Obligations.LiteralLogicAndMoves : Prop :=
  ∀ (s : State) (k : Byte) (a : DataAddr),
    exec (.andlw k) s = .next { s with w := s.w &&& k, status := s.status.update (logicFlags (s.w &&& k)) } ∧
    exec (.iorlw k) s = .next { s with w := s.w ||| k, status := s.status.update (logicFlags (s.w ||| k)) } ∧
    exec (.xorlw k) s = .next { s with w := s.w ^^^ k, status := s.status.update (logicFlags (s.w ^^^ k)) } ∧
    exec (.movlw k) s = .next { s with w := k } ∧
    exec (.movlb k) s = .next { s with bsr := BitVec.ofNat 4 (k.toNat % 16) } ∧
    exec (.lfsr 0#2 a) s = .next { s with fsr0 := a } ∧
    exec (.lfsr 1#2 a) s = .next { s with fsr1 := a } ∧
    exec (.lfsr 2#2 a) s = .next { s with fsr2 := a } ∧
    exec (.lfsr 3#2 a) s = .refused .reservedFsr

/-- DAW adds 6 to W where its low nibble exceeds 9 or DC is 1, then 60h where the value divided by 16 exceeds 9
or C is 1; W is the sum modulo 256, C becomes 1 where it exceeds 255 and is otherwise left; nothing else
changes. So on the W, DC and C that the addition of packed decimals x and y with or without carry leaves, W
becomes the packed last two digits of the decimal sum and C is 1 exactly when it is 100 or more. The algorithm
is the spec's general knowledge (choice D25, log entry 26). -/
def Obligations.DawAdjustsDecimalSums : Prop :=
  ∀ s : State,
    (let t1 := s.w.toNat + (if 9 < s.w.toNat % 16 ∨ s.status.dc = true then 6 else 0)
     let t2 := t1 + (if 9 < t1 / 16 ∨ s.status.c = true then 96 else 0)
     exec .daw s = .next { s with w := BitVec.ofNat 8 t2, status := { s.status with c := s.status.c || decide (255 < t2) } }) ∧
    (∀ (x y : Nat) (cin : Bool), x < 100 → y < 100 →
      s.w = sumByte (packBcd x) (packBcd y) cin →
      some s.status.dc = (addFlags (packBcd x) (packBcd y) cin).dc →
      some s.status.c = (addFlags (packBcd x) (packBcd y) cin).c →
      exec .daw s = .next { s with w := packBcd (x + y + cin.toNat), status := { s.status with c := decide (100 ≤ x + y + cin.toNat) } })

/-- Both NOP forms leave the whole state; CLRWDT records ClearWDT and changes no core state; HALT leaves the run
state Halted; SLEEP records EnterSleep and leaves the run state Sleeping; nothing else changes in any of them.
The two run states are choice D20 (log entry 17), that CLRWDT leaves the core alone choice D39 (log entry 29).
-/
def Obligations.NopAndSystemEffects : Prop :=
  ∀ (s : State) (x : BitVec 12),
    exec .nop s = .next s ∧ exec (.nopx x) s = .next s ∧
    exec .clrwdt s = .next { s with trace := .clearWdt :: s.trace } ∧
    exec .halt s = .next { s with run := .halted } ∧
    exec .sleep s = .next { s with trace := .enterSleep :: s.trace, run := .sleeping }

/-- RESET completes and is the reset of cause MCLR (choice D40). A reset of any cause leaves pc = 000000h, the
hidden bit 0, SP = 0, run state Running, no pending stack-error reset, GIEH = GIEL = 0, program memory, device
and trace as before; STKOVF and STKUNF become 0 for POR and are kept for every other cause. The other registers
get free values, of which nothing is stated. That the enables are 0 after a reset is the spec's general
knowledge (U10, log entry 10); that RESET is the reset of cause MCLR is choice D40 (log entry 23). -/
def Obligations.ResetInstructionAndCauses : Prop :=
  ∀ s : State, exec .reset s = .next (s.resetBy .mclr) ∧
    ∀ c : ResetCause,
      (s.resetBy c).pc = 0#21 ∧ (s.resetBy c).pcHidden = false ∧ (s.resetBy c).sp = 0#5 ∧
      (s.resetBy c).run = .running ∧ (s.resetBy c).stackReset = none ∧ (s.resetBy c).gieh = false ∧ (s.resetBy c).giel = false ∧
      (s.resetBy c).pm = s.pm ∧ (s.resetBy c).dev = s.dev ∧ (s.resetBy c).trace = s.trace ∧
      (s.resetBy c).stkovf = (s.stkovf && decide (c ≠ .por)) ∧ (s.resetBy c).stkunf = (s.stkunf && decide (c ≠ .por))

/-- In every state TRAP and TRET end in the refusal DebuggerTrap: the spec gives neither an effect to execute.
The refusal is choice D21 (log entry 14). -/
def Obligations.DebuggerInstructionsRefused : Prop :=
  ∀ s : State, exec .trap s = .refused .debuggerTrap ∧ exec .tret s = .refused .debuggerTrap

/-- From an even pc: BC, BN, BV, BZ branch when C, N, OV, Z is 1, BNC, BNN, BNV, BNZ when it is 0; a taken
branch leaves pc = pc + 2n modulo 2^21, n signed (the formula is choice D12, the unchanged latches D13); nothing
else changes, and nothing at all when it is not taken. -/
def Obligations.ConditionalBranches : Prop :=
  ∀ (s : State) (n : Byte), s.pc.getLsbD 0 = false →
    let taken : State := { s with pc := BitVec.ofInt 21 ((s.pc.toNat : Int) + 2 * n.toInt) }
    exec (.bc n) s = .next (if s.status.c = true then taken else s) ∧
    exec (.bn n) s = .next (if s.status.n = true then taken else s) ∧
    exec (.bv n) s = .next (if s.status.ov = true then taken else s) ∧
    exec (.bz n) s = .next (if s.status.z = true then taken else s) ∧
    exec (.bnc n) s = .next (if s.status.c = false then taken else s) ∧
    exec (.bnn n) s = .next (if s.status.n = false then taken else s) ∧
    exec (.bnv n) s = .next (if s.status.ov = false then taken else s) ∧
    exec (.bnz n) s = .next (if s.status.z = false then taken else s)

/-- From an even pc BRA leaves pc = pc + 2n modulo 2^21, n the signed 11-bit offset, and RCALL pushes the pc
first; neither touches latches or shadow registers. GOTO k leaves pc = 2k, PCLATH and PCLATU its bits 15:8 and
20:16; CALL k, s first pushes the pc, does the same, and with s = 1 copies W, STATUS, BSR to WS, STATUSS, BSRS.
Nothing else changes. The target of a relative jump is choice D12, the unchanged latches choice D13 (log entry
18); a push on a full stack where STVRE is enabled leaves a reset pending, choice D28 (log entry 23). -/
def Obligations.JumpsAndCalls : Prop :=
  ∀ (s : State) (n : BitVec 11) (k : BitVec 20), s.pc.getLsbD 0 = false →
    exec (.bra n) s = .next { s with pc := BitVec.ofInt 21 ((s.pc.toNat : Int) + 2 * n.toInt) } ∧
    exec (.rcall n) s = .next { s.push s.pc with pc := BitVec.ofInt 21 ((s.pc.toNat : Int) + 2 * n.toInt) } ∧
    (let p := BitVec.ofNat 21 (2 * k.toNat)
     let h := BitVec.ofNat 8 (2 * k.toNat / 256)
     let u := BitVec.ofNat 5 (2 * k.toNat / 65536)
     exec (.goto k) s = .next { s with pc := p, pclath := h, pclatu := u } ∧
     exec (.call k false) s = .next { s.push s.pc with pc := p, pclath := h, pclatu := u } ∧
     exec (.call k true) s =
       .next { s.push s.pc with pc := p, pclath := h, pclatu := u, ws := s.w, statuss := s.status, bsrs := s.bsr })

/-- With SP below 31, PUSH leaves SP one higher and the pc in the new top word; with SP = 31 it overwrites
stack[31], sets STKOVF and, where STVRE is enabled, leaves an overflow reset pending; every other stack word, W,
STATUS, BSR, pc, the latches and the memories stay. With SP above 0, POP leaves SP one lower and all else; with
SP = 0 it sets STKUNF and, where STVRE is enabled, leaves an underflow reset pending, and all else stays. That a
POP at SP = 0 is an underflow is choice D26 (log entry 22), that the reset is left pending choice D28 (log entry
23). -/
def Obligations.PushAndPop : Prop :=
  ∀ s : State,
    (∃ t, exec .push s = .next t ∧ t = s.push s.pc ∧ t.tos = s.pc ∧
      t.w = s.w ∧ t.status = s.status ∧ t.bsr = s.bsr ∧ t.pc = s.pc ∧ t.pclath = s.pclath ∧ t.pclatu = s.pclatu ∧
      t.ram = s.ram ∧ t.pm = s.pm ∧ t.stkunf = s.stkunf ∧
      (∀ j : Nat, j + 1 ≠ t.sp.toNat → t.stack[j]? = s.stack[j]?) ∧
      (s.sp.toNat < 31 → t.sp.toNat = s.sp.toNat + 1 ∧ t.stkovf = s.stkovf ∧ t.stackReset = s.stackReset) ∧
      (s.sp.toNat = 31 → t.sp = s.sp ∧ t.stkovf = true ∧
        t.stackReset = if s.dev.stvre then some .overflow else s.stackReset)) ∧
    (s.sp ≠ 0#5 → exec .pop s = .next { s with sp := BitVec.ofNat 5 (s.sp.toNat - 1) }) ∧
    (s.sp = 0#5 → exec .pop s =
      .next { s with stkunf := true, stackReset := if s.dev.stvre then some .underflow else s.stackReset })

/-- With SP above 0 each return leaves SP one lower and the pc at the popped word with bit 0 dropped; with SP =
0 it leaves pc = 000000h and STKUNF = 1 and, where STVRE is enabled, an underflow reset pending. RETURN and
RETFIE with s = 1 also restore W, STATUS and BSR from the shadow registers; RETFIE sets GIEH if it was 0, else
GIEL; RETLW leaves W = k. Nothing else changes: not the stack words, the latches or the data memory. RETFIE's
re-enabling is choice D18; that RETLW loads W is the spec's general knowledge (log entry 27). That the reset is
left pending for the next boundary is choice D28 (log entry 23). -/
def Obligations.ReturnInstructions : Prop :=
  ∀ (s : State) (k : Byte),
    let p : State :=
      if s.sp = 0#5
      then { s with pc := 0#21, stkunf := true, stackReset := if s.dev.stvre then some .underflow else s.stackReset }
      else { s with pc := BitVec.ofNat 21 (s.tos.toNat / 2 * 2), sp := BitVec.ofNat 5 (s.sp.toNat - 1) }
    exec (.ret false) s = .next p ∧
    exec (.ret true) s = .next { p with w := s.ws, status := s.statuss, bsr := s.bsrs } ∧
    exec (.retfie false) s = .next { p with gieh := true, giel := s.giel || s.gieh } ∧
    exec (.retfie true) s =
      .next { p with w := s.ws, status := s.statuss, bsr := s.bsrs, gieh := true, giel := s.giel || s.gieh } ∧
    exec (.retlw k) s = .next { p with w := k }

/-- From an even pc and SP below 31: after CALL, whatever then happens to W, STATUS and BSR alone, RETURN leaves
the pc and SP of before the CALL; with s = 1 in both, also W, STATUS and BSR of before it. -/
def Obligations.CallThenReturn : Prop :=
  ∀ (s : State) (k : BitVec 20) (fast : Bool) (w : Byte) (x : Status) (b : BitVec 4),
    s.pc.getLsbD 0 = false → s.sp.toNat < 31 →
    ∃ t u, exec (.call k fast) s = .next t ∧ exec (.ret fast) { t with w := w, status := x, bsr := b } = .next u ∧
      u.pc = s.pc ∧ u.sp = s.sp ∧ u.ram = s.ram ∧
      (fast = true → u.w = s.w ∧ u.status = s.status ∧ u.bsr = s.bsr)

/-- Where Table 2 allows a table read of the address: TBLRD* loads TABLAT with the program byte at TBLPTR;
TBLRD*+ and TBLRD*- then step TBLPTR up or down by 1; TBLRD+* steps it up first and reads there. Nothing else
changes. Where it does not allow it (internal memory in PEMC mode) each completes with TBLPTR as above and a
free value in TABLAT, of which nothing is stated. That TBLPTR wraps modulo 2^21 is choice D30 (log entry 41);
the free value is U12 (log entry 6). -/
def Obligations.TableReads : Prop :=
  ∀ s : State,
    let up := BitVec.ofNat 21 (s.tblptr.toNat + 1)
    let dn := BitVec.ofNat 21 (s.tblptr.toNat + 2097151)
    (tableReadPrevented s.dev s.tblptr = false →
      exec .tblrd s = .next { s with tablat := s.pmRead8 s.tblptr } ∧
      exec .tblrdPostInc s = .next { s with tablat := s.pmRead8 s.tblptr, tblptr := up } ∧
      exec .tblrdPostDec s = .next { s with tablat := s.pmRead8 s.tblptr, tblptr := dn }) ∧
    (tableReadPrevented s.dev up = false → exec .tblrdPreInc s = .next { s with tablat := s.pmRead8 up, tblptr := up }) ∧
    (∃ (x y : Byte) (m n : Nat),
      exec .tblrd s = .next { s with tablat := x, free := m } ∧
      exec .tblrdPostInc s = .next { s with tablat := x, free := m, tblptr := up } ∧
      exec .tblrdPostDec s = .next { s with tablat := x, free := m, tblptr := dn } ∧
      exec .tblrdPreInc s = .next { s with tablat := y, free := n, tblptr := up })

/-- Where the device allows a write of the address, TBLWT* stores TABLAT there and keeps the word at the pc,
fetched before the write, to execute next; elsewhere it stores nothing. Stored or not, the write is recorded as
an output with its address and byte and whether it stored. TBLWT*+ and TBLWT*- then step TBLPTR up or down by 1,
TBLWT+* steps it up first and writes there, stored or not. Nothing else changes. Where a byte is stored is
choice D22 (log entry 28), the word saved choice D23, the form of the output the model's (log entry 42). That
TBLPTR wraps modulo 2^21 is choice D30 (log entry 41). -/
def Obligations.TableWrites : Prop :=
  ∀ s : State,
    let up := BitVec.ofNat 21 (s.tblptr.toNat + 1)
    let dn := BitVec.ofNat 21 (s.tblptr.toNat + 2097151)
    let stored : ProgAddr → State := fun a =>
      { s with pm := Memory.write s.pm a.toNat s.tablat, prefetch := some (s.pmRead16 s.pc), trace := .tableWrite a s.tablat true :: s.trace }
    let notStored : ProgAddr → State := fun a => { s with trace := .tableWrite a s.tablat false :: s.trace }
    (tableWritable s.dev s.tblptr = true →
      exec .tblwt s = .next (stored s.tblptr) ∧
      exec .tblwtPostInc s = .next { stored s.tblptr with tblptr := up } ∧
      exec .tblwtPostDec s = .next { stored s.tblptr with tblptr := dn }) ∧
    (tableWritable s.dev s.tblptr = false →
      exec .tblwt s = .next (notStored s.tblptr) ∧ exec .tblwtPostInc s = .next { notStored s.tblptr with tblptr := up } ∧
      exec .tblwtPostDec s = .next { notStored s.tblptr with tblptr := dn }) ∧
    (tableWritable s.dev up = true → exec .tblwtPreInc s = .next { stored up with tblptr := up }) ∧
    (tableWritable s.dev up = false → exec .tblwtPreInc s = .next { notStored up with tblptr := up })

/-- A table read is prevented exactly for on-chip memory in PEMC mode. A table write stores exactly where
PM_WRITABLE holds and: in MP mode anywhere; in EMC mode anywhere; in PEMC mode off chip; in MC mode on chip; in
PMC mode nowhere. Beyond on-chip memory MC and PMC read 00h; in MP, EMC and PEMC every address reads program
memory. PM_WRITABLE is choice D22 (log entry 28). That MP, EMC and PEMC read the one program memory at every
address is choice D29 as R109 and log entry 13 take it: external memory is part of that array, and an external
address at which nothing is listed reads 00h. -/
def Obligations.TableAccessByMode : Prop :=
  ∀ (s : State) (a : ProgAddr),
    let onChip := inProgRegions s.dev.pmImplemented a.toNat
    let writable := inProgRegions s.dev.pmWritable a.toNat
    (tableReadPrevented s.dev a = true ↔ s.dev.pmMode = .pemc ∧ onChip = true) ∧
    (tableWritable s.dev a = true ↔ writable = true ∧
      (s.dev.pmMode = .mp ∨ s.dev.pmMode = .emc ∨ (s.dev.pmMode = .pemc ∧ onChip = false) ∨ (s.dev.pmMode = .mc ∧ onChip = true))) ∧
    (s.pmRead8 a = if onChip = false ∧ (s.dev.pmMode = .mc ∨ s.dev.pmMode = .pmc) then 0#8 else Memory.read s.pm a.toNat)

/-- In a running state with an even pc and nothing due at the boundary, if a saved word w is held and w, with
the word after the pc as its second word, decodes to i, the step is exec of i with the pc moved past the words
of i and no saved word left, whatever the pc's own word is. So after any of TBLWT*, TBLWT*+, TBLWT*- and TBLWT+*
that stores a byte, at the pc or elsewhere: the next step runs the instruction whose first word is the one the
pc held before the write; a second word, where it has one, is read after the write. That the word is saved is
choice D23, that only that one word is, log entry 12. -/
def Obligations.SavedWordExecutesNext : Prop :=
  (∀ (s : State) (w : Word) (i : Instr),
    s.pc.getLsbD 0 = false → s.run = .running → s.stackReset = none → s.pcHidden = false → s.prefetch = some w →
    s.sample.env.resetRequest = none → s.sample.env.wdtTimeout = false → s.sample.irqTaken = none →
    decode w (s.pmRead16 (s.pc + 2#21)) = .ok i →
    step s = exec i { s.sample with pc := s.pc + BitVec.ofNat 21 (2 * i.words), prefetch := none }) ∧
  (∀ (s t : State) (write i : Instr),
    write = .tblwt ∨ write = .tblwtPostInc ∨ write = .tblwtPostDec ∨ write = .tblwtPreInc →
    s.pc.getLsbD 0 = false → s.run = .running → s.stackReset = none → s.pcHidden = false →
    tableWritable s.dev (if write = .tblwtPreInc then s.tblptr + 1#21 else s.tblptr) = true → exec write s = .next t →
    t.sample.env.resetRequest = none → t.sample.env.wdtTimeout = false → t.sample.irqTaken = none →
    decode (s.pmRead16 s.pc) (t.pmRead16 (s.pc + 2#21)) = .ok i →
    step t = exec i { t.sample with pc := s.pc + BitVec.ofNat 21 (2 * i.words), prefetch := none })

/-- For every byte, bit, skip, compare and multiply instruction with one file operand that gives a next state:
no register changes but its own destination (W, PRODH:PRODL, the pc of a skip), the flags of its row, the FSR
its address steps, the latches on a read of PCL, the outputs and the count of free values where the environment
presents the byte, and the register its write reaches; data memory changes at the address reached alone, and
only where that is a GPR and the instruction writes; program memory does not change. Which flags are those of a
row is the table of R200, the spec's general knowledge (log entry 24). That an FSR steps though the access is
suppressed is choice D9 (log entry 20). -/
def Obligations.FrameOfFileInstructions : Prop :=
  ∀ (i : Instr) (f : Byte) (a : Access) (u : FileUse) (s t : State),
    fileOperand i = some (f, a, u) → exec i s = .next t →
    keepsAllBut (ownRegs i ++ s.operandRegs (operandBegin (s.ea f a) s).1 u (flagRegs i)) s t ∧
    (∀ x : Nat, Memory.read t.pm x = Memory.read s.pm x) ∧
    (∀ x : Nat, (u ≠ .read ∧ s.place (operandBegin (s.ea f a) s).1.target = .gpr → x ≠ (operandBegin (s.ea f a) s).1.target.toNat) →
      Memory.wf s.ram = true → Memory.read t.ram x = Memory.read s.ram x)

/-- If MOVFF f, g gives a next state: with l the source and m the destination operand (resolved after the
source's FSR was stepped), no register changes but the FSRs the two addresses step, the latches where the source
is PCL, the outputs and the count of free values where the environment presents the byte, and the register the
write reaches; data memory changes at the destination alone, where it is a GPR; program memory does not change.
That the destination is resolved after the source's FSR was stepped is the spec's inference in R250 (a) (log
entry 40); that a source of PCL is read with the pc 2 lower is choice D41. That MOVFF writes no flag is the flag
table of R200, the spec's general knowledge (log entry 24). -/
def Obligations.FrameOfMovff : Prop :=
  ∀ (f g : DataAddr) (s t : State), exec (.movff f g) s = .next t →
    let l := (operandBegin f s).1
    let s2 := operandEnd l false (dataRead true (s.pc - 2#21) l.target (operandBegin f s).2).2
    let m := (operandBegin g s2).1
    keepsAllBut (s.operandRegs l .read [] ++ s.operandRegs m .write []) s t ∧
    (∀ x : Nat, Memory.read t.pm x = Memory.read s.pm x) ∧
    (∀ x : Nat, (s.place m.target = .gpr → x ≠ m.target.toNat) → Memory.wf s.ram = true → Memory.read t.ram x = Memory.read s.ram x)

/-- For every literal, control, stack and table instruction but RESET that gives a next state: no register
changes but those its rule writes and its flags, no byte of data memory changes, and no byte of program memory
changes but, for a table write, the byte at the address it writes (TBLPTR, or TBLPTR + 1 for TBLWT+*) where the
device allows it. RESET changes no byte of program memory. Which flags are an instruction's is the table of
R200, the spec's general knowledge (log entry 24); that a relative branch leaves the latches is choice D13 (log
entry 18). That a stack error leaves a reset pending is choice D28 (log entry 23), RETFIE's enables choice D18
(log entry 10), RESET as a master-clear reset choice D40 (log entry 23). -/
def Obligations.FrameOfOtherInstructions : Prop :=
  ∀ (i : Instr) (s t : State),
    fileOperand i = none → (∀ f g, i ≠ .movff f g) → exec i s = .next t →
    keepsAllBut (ownRegs i ++ flagRegs i) s t ∧
    (i ≠ .reset → ∀ x : Nat, Memory.read t.ram x = Memory.read s.ram x) ∧
    (∀ x : Nat,
      (i = .tblwt ∨ i = .tblwtPostInc ∨ i = .tblwtPostDec → tableWritable s.dev s.tblptr = true → x ≠ s.tblptr.toNat) →
      (i = .tblwtPreInc → tableWritable s.dev (s.tblptr + 1#21) = true → x ≠ (s.tblptr + 1#21).toNat) →
      Memory.wf s.pm = true → Memory.read t.pm x = Memory.read s.pm x)

/-- A high request is taken exactly when GIEH is 1, a low one exactly when it is 1, GIEL is 1 and no high one is
taken. Entry leaves the pc at 000008h (high) or 000018h (low), the old pc as the new top of the stack, WS,
STATUSS, BSRS = W, STATUS, BSR, the entered level's enable 0, the other kept; W, STATUS, BSR, the latches and
data memory are unchanged. What entry saves and masks is choice D17, the two requests and their enables choice
D19, both general knowledge (U10, log entry 10). -/
def Obligations.InterruptTaken : Prop :=
  ∀ s : State,
    (s.irqTaken = some .high ↔ s.env.irqHigh = true ∧ s.gieh = true) ∧
    (s.irqTaken = some .low ↔ s.env.irqHigh = false ∧ s.env.irqLow = true ∧ s.gieh = true ∧ s.giel = true) ∧
    (∀ l : IrqLevel, s.irqTaken = some l → ∃ t, s.takeInterrupt = t ∧
      t.pc = (if l = .high then 0x000008#21 else 0x000018#21) ∧ t.tos = s.pc ∧
      (s.sp.toNat < 31 → t.sp.toNat = s.sp.toNat + 1 ∧ t.stackReset = s.stackReset) ∧
      (s.sp.toNat = 31 → t.sp = s.sp ∧ t.stkovf = true) ∧
      t.ws = s.w ∧ t.statuss = s.status ∧ t.bsrs = s.bsr ∧
      t.gieh = (s.gieh && decide (l ≠ .high)) ∧ t.giel = (s.giel && decide (l ≠ .low)) ∧
      t.w = s.w ∧ t.status = s.status ∧ t.bsr = s.bsr ∧ t.pclath = s.pclath ∧ t.pclatu = s.pclatu ∧
      t.ram = s.ram ∧ t.pm = s.pm) ∧
    (s.irqTaken = none → s.takeInterrupt = s)

/-- In a running state with nothing due before it, if level l is taken: with SP below 31, or with STVRE not
enabled, if the words at the vector of l decode to i, the step is exec of i on the state the entry leaves, its
pc moved past the words of i. With SP = 31 the entry overwrites stack[31] with the pc, leaves SP and the other
stack words and sets STKOVF; and with STVRE enabled the step answers the entry alone, an overflow reset pending,
and no instruction of the handler runs (how R415 and R451 fit together is the inference of log entry 11). What
the entry does is choices D17 and D19 (log entry 10); that it comes between two instructions only is choice D38
(log entry 36). -/
def Obligations.StepEntersInterrupt : Prop :=
  ∀ (s e : State) (l : IrqLevel), e = s.sample →
    s.run = .running → s.stackReset = none → s.pcHidden = false →
    e.env.resetRequest = none → e.env.wdtTimeout = false → e.irqTaken = some l →
    (s.sp.toNat < 31 ∨ s.dev.stvre = false → ∀ i : Instr,
      decode (s.pmRead16 l.vector) (s.pmRead16 (l.vector + 2#21)) = .ok i →
      step s = exec i { e.takeInterrupt with pc := l.vector + BitVec.ofNat 21 (2 * i.words) }) ∧
    (s.sp.toNat = 31 →
      e.takeInterrupt.pc = l.vector ∧ e.takeInterrupt.sp = s.sp ∧ e.takeInterrupt.stkovf = true ∧ e.takeInterrupt.tos = s.pc ∧
      (∀ j : Nat, j + 1 ≠ 31 → e.takeInterrupt.stack[j]? = s.stack[j]?) ∧
      (s.dev.stvre = true → e.takeInterrupt.stackReset = some .overflow ∧ step s = .next e.takeInterrupt))

/-- With an even pc and SP below 31, if level l is taken at s, then after the entry, whatever then happens to W,
STATUS and BSR alone, RETFIE with s = 1 leaves pc, SP, W, STATUS, BSR, GIEH and GIEL as they were in s (choices
D17, D18). -/
def Obligations.InterruptThenReturn : Prop :=
  ∀ (s : State) (l : IrqLevel) (w : Byte) (x : Status) (b : BitVec 4),
    s.pc.getLsbD 0 = false → s.sp.toNat < 31 → s.irqTaken = some l →
    ∃ t, exec (.retfie true) { s.takeInterrupt with w := w, status := x, bsr := b } = .next t ∧
      t.pc = s.pc ∧ t.sp = s.sp ∧ t.w = s.w ∧ t.status = s.status ∧ t.bsr = s.bsr ∧
      t.gieh = s.gieh ∧ t.giel = s.giel

/-- With STVRE enabled, a PUSH at SP = 31 or a POP at SP = 0 completes, and the step after it, whatever else is
due, leaves pc = 000000h, SP = 0, run state Running, GIEH = 0; and STKOVF, respectively STKUNF, is then still 1,
unless a reset is requested at that boundary whose cause is POR: then it is 0. That the reset comes at the next
boundary is choice D28 (log entry 23); that it leaves GIEH = 0 is the spec's general knowledge (U10, log entry
10). That a POP at SP = 0 is an underflow, which sets STKUNF and resets, is choice D26 (log entry 22). -/
def Obligations.StackErrorResets : Prop :=
  ∀ s : State, s.dev.stvre = true →
    (s.sp.toNat = 31 → ∃ t, exec .push s = .next t ∧
      ∃ u, step t = .next u ∧ u.pc = 0#21 ∧ u.sp = 0#5 ∧ u.run = .running ∧ u.gieh = false ∧
        (t.sample.env.resetRequest ≠ some .por → u.stkovf = true) ∧ (t.sample.env.resetRequest = some .por → u.stkovf = false)) ∧
    (s.sp = 0#5 → ∃ t, exec .pop s = .next t ∧
      ∃ u, step t = .next u ∧ u.pc = 0#21 ∧ u.sp = 0#5 ∧ u.run = .running ∧ u.gieh = false ∧
        (t.sample.env.resetRequest ≠ some .por → u.stkunf = true) ∧ (t.sample.env.resetRequest = some .por → u.stkunf = false))

/-- Whatever instruction has a file operand that reaches an unimplemented location, directly or through an FSR,
completes and changes no register but its own destination, the flags of its row (R200's table, the spec's
general knowledge: log entry 24) and the FSR stepped, and no byte of memory; MOVWF and SETF leave the stepped
FSR alone changed, CLRF also sets Z. MOVFF to such a location leaves what its source's read left but for the
step of its own FSR; MOVFF from one to a GPR stores 00h there. The order of MOVFF's two operands is the spec's
inference (log entry 40), the pc it sees choice D41. That MOVFF writes no flag is of that table too. -/
def Obligations.UnimplementedByEveryForm : Prop :=
  ∀ s : State,
    (∀ (i : Instr) (f : Byte) (a : Access) (u : FileUse), fileOperand i = some (f, a, u) →
      s.place (operandBegin (s.ea f a) s).1.target = .unimplemented →
      ∃ x, exec i s = .next x ∧ keepsAllBut (ownRegs i ++ flagRegs i ++ s.fsrOf (s.ea f a)) s x ∧ x.ram = s.ram ∧ x.pm = s.pm) ∧
    (∀ (f : Byte) (a : Access), s.place (operandBegin (s.ea f a) s).1.target = .unimplemented →
      let b := operandBegin (s.ea f a) s
      exec (.movwf f a) s = .next (operandEnd b.1 true b.2) ∧
      exec (.setf f a) s = .next (operandEnd b.1 true b.2) ∧
      exec (.clrf f a) s = .next (operandEnd b.1 true { b.2 with status := { s.status with z := true } })) ∧
    (∀ f g : DataAddr,
      let l := operandBegin f s
      let s2 := operandEnd l.1 false (dataRead true (s.pc - 2#21) l.1.target l.2).2
      let m := operandBegin g s2
      (s.place m.1.target = .unimplemented → exec (.movff f g) s = .next (operandEnd m.1 true m.2)) ∧
      (s.place l.1.target = .unimplemented → s.place g = .gpr →
        exec (.movff f g) s = .next { operandEnd l.1 false l.2 with ram := Memory.write s.ram g.toNat 0#8 }))

/-- At a boundary that comes to the fetch (no reset requested or pending, the core running without a time-out or
woken from sleep; any interrupt due is entered first, and its push does not reset the device): if the saved word
or else the word at the pc, with the word after it, is no instruction, the step is refused, as undefinedOpcode
with the first word, as badSecondWord with both words, or as reservedFsr, whichever of the three the decoder
found. With the hidden pc bit 1 the fetch is refused as testMemory whatever the words are (choice D30, log entry
16). The refusals are the spec's choices D32, D33, D36 (log entry 15). -/
def Obligations.UndecodableWordsRefused : Prop :=
  ∀ (s b : State) (w1 w2 : Word), b = s.sample.takeInterrupt →
    s.sample.env.resetRequest = none → s.stackReset = none → b.stackReset = none →
    (s.run = .running ∧ s.sample.env.wdtTimeout = false) ∨
      (s.run = .sleeping ∧ (s.sample.env.wdtTimeout = true ∨ s.sample.env.wakeRequest = true)) →
    (s.pcHidden = true → step s = .refused .testMemory) ∧
    (s.pcHidden = false → w1 = b.prefetch.getD (b.pmRead16 b.pc) → w2 = b.pmRead16 (b.pc + 2#21) →
      (decode w1 w2 = .error .undefinedOpcode → step s = .refused (.undefinedOpcode w1)) ∧
      (decode w1 w2 = .error .badSecondWord → step s = .refused (.badSecondWord w1 w2)) ∧
      (decode w1 w2 = .error .reservedFsr → step s = .refused .reservedFsr))
end

