-- ==== Sys2Proof/Laws/Encoding.lean ====
section
/-! SUPPORT. The number an encoded word is, format by format (spec/30_encoding.md R132), and the decoder's fields of a word as
numbers: what the two directions of "decode and encode agree" rest on. -/

namespace Sys2Proof

theorem toNat_append_add {m n : Nat} (x : BitVec m) (y : BitVec n) : (x ++ y).toNat = x.toNat * 2 ^ n + y.toNat := by
  rw [BitVec.toNat_append, ← Nat.shiftLeft_add_eq_or_of_lt y.isLt, Nat.shiftLeft_eq]

/-! ### Fields as numbers -/

theorem Word.low_toNat (w : Word) : w.low.toNat = w.toNat % 256 := by
  simp [Word.low]

theorem Word.low12_toNat (w : Word) : w.low12.toNat = w.toNat % 4096 := by
  simp [Word.low12]

theorem Word.bitNumber_toNat (w : Word) : w.bitNumber.toNat = w.toNat / 512 % 8 := by
  simp [Word.bitNumber, Nat.shiftRight_eq_div_pow]

theorem Word.dest_eq (w : Word) : w.dest = if w.toNat / 512 % 2 = 1 then .file else .w := by
  simp [Word.dest, BitVec.getLsbD, Nat.testBit, Nat.shiftRight_eq_div_pow]

theorem Word.access_eq (w : Word) : w.access = if w.toNat / 256 % 2 = 1 then .banked else .virt := by
  simp [Word.access, BitVec.getLsbD, Nat.testBit, Nat.shiftRight_eq_div_pow]

theorem Dest.bit_toNat (d : Dest) : d.bit.toNat = if d = .file then 1 else 0 := by cases d <;> rfl

theorem Access.bit_toNat (a : Access) : a.bit.toNat = if a = .banked then 1 else 0 := by cases a <;> rfl

/-- A word from its two bytes. -/
theorem wordOfBytes_bytesOfWord (w : Word) : wordOfBytes (w.extractLsb' 0 8) (w.extractLsb' 8 8) = w := by
  apply BitVec.eq_of_toNat_eq
  have hw := w.isLt
  simp only [wordOfBytes, BitVec.toNat_setWidth, toNat_append_add, BitVec.extractLsb'_toNat, Nat.shiftRight_eq_div_pow]
  omega

/-! ### Formats as numbers -/

theorem encByteDA_toNat (op : BitVec 6) (f : Byte) (d : Dest) (a : Access) :
    (encByteDA op f d a).toNat = op.toNat * 1024 + d.bit.toNat * 512 + a.bit.toNat * 256 + f.toNat := by
  have h0 := (op).isLt
  have h1 := (f).isLt
  have h2 := (d.bit).isLt
  have h3 := (a.bit).isLt
  simp only [encByteDA, BitVec.toNat_setWidth, toNat_append_add]
  omega

theorem encByteA_toNat (op : BitVec 7) (f : Byte) (a : Access) :
    (encByteA op f a).toNat = op.toNat * 512 + a.bit.toNat * 256 + f.toNat := by
  have h0 := (op).isLt
  have h1 := (f).isLt
  have h2 := (a.bit).isLt
  simp only [encByteA, BitVec.toNat_setWidth, toNat_append_add]
  omega

theorem encBit_toNat (op : BitVec 4) (f : Byte) (b : BitVec 3) (a : Access) :
    (encBit op f b a).toNat = op.toNat * 4096 + b.toNat * 512 + a.bit.toNat * 256 + f.toNat := by
  have h0 := (op).isLt
  have h1 := (f).isLt
  have h2 := (b).isLt
  have h3 := (a.bit).isLt
  simp only [encBit, BitVec.toNat_setWidth, toNat_append_add]
  omega

theorem encLit_toNat (op k : Byte) :
    (encLit op k).toNat = op.toNat * 256 + k.toNat := by
  have h0 := (op).isLt
  have h1 := (k).isLt
  simp only [encLit, BitVec.toNat_setWidth, toNat_append_add]
  omega

theorem encBr11_toNat (op : BitVec 5) (n : BitVec 11) :
    (encBr11 op n).toNat = op.toNat * 2048 + n.toNat := by
  have h0 := (op).isLt
  have h1 := (n).isLt
  simp only [encBr11, BitVec.toNat_setWidth, toNat_append_add]
  omega

theorem encLow12_toNat (op : BitVec 4) (x : BitVec 12) :
    (encLow12 op x).toNat = op.toNat * 4096 + x.toNat := by
  have h0 := (op).isLt
  have h1 := (x).isLt
  simp only [encLow12, BitVec.toNat_setWidth, toNat_append_add]
  omega

theorem encCtrlS_toNat (op : BitVec 15) (s : Bool) :
    (encCtrlS op s).toNat = op.toNat * 2 + s.toNat := by
  have h0 := (op).isLt
  have h1 : s.toNat ≤ 1 := Bool.toNat_le s
  simp only [encCtrlS, BitVec.toNat_setWidth, toNat_append_add, BitVec.toNat_ofBool]
  omega

end Sys2Proof
end

