-- ==== Sys2Proof/Laws/State.lean ====
section
/-! SUPPORT. One lemma per field per update of State: what each named update leaves unchanged and what it writes. -/

namespace Sys2Proof.Machine

open Sys2Proof

/-! ### s.setW v -/

@[simp] theorem State.setW_w (s : State) (v : Byte) : (s.setW v).w = v := rfl
@[simp] theorem State.setW_status (s : State) (v : Byte) : (s.setW v).status = s.status := rfl
@[simp] theorem State.setW_bsr (s : State) (v : Byte) : (s.setW v).bsr = s.bsr := rfl
@[simp] theorem State.setW_fsr0 (s : State) (v : Byte) : (s.setW v).fsr0 = s.fsr0 := rfl
@[simp] theorem State.setW_fsr1 (s : State) (v : Byte) : (s.setW v).fsr1 = s.fsr1 := rfl
@[simp] theorem State.setW_fsr2 (s : State) (v : Byte) : (s.setW v).fsr2 = s.fsr2 := rfl
@[simp] theorem State.setW_pc (s : State) (v : Byte) : (s.setW v).pc = s.pc := rfl
@[simp] theorem State.setW_pcHidden (s : State) (v : Byte) : (s.setW v).pcHidden = s.pcHidden := rfl
@[simp] theorem State.setW_pclath (s : State) (v : Byte) : (s.setW v).pclath = s.pclath := rfl
@[simp] theorem State.setW_pclatu (s : State) (v : Byte) : (s.setW v).pclatu = s.pclatu := rfl
@[simp] theorem State.setW_stack (s : State) (v : Byte) : (s.setW v).stack = s.stack := rfl
@[simp] theorem State.setW_sp (s : State) (v : Byte) : (s.setW v).sp = s.sp := rfl
@[simp] theorem State.setW_stkovf (s : State) (v : Byte) : (s.setW v).stkovf = s.stkovf := rfl
@[simp] theorem State.setW_stkunf (s : State) (v : Byte) : (s.setW v).stkunf = s.stkunf := rfl
@[simp] theorem State.setW_prodh (s : State) (v : Byte) : (s.setW v).prodh = s.prodh := rfl
@[simp] theorem State.setW_prodl (s : State) (v : Byte) : (s.setW v).prodl = s.prodl := rfl
@[simp] theorem State.setW_tblptr (s : State) (v : Byte) : (s.setW v).tblptr = s.tblptr := rfl
@[simp] theorem State.setW_tablat (s : State) (v : Byte) : (s.setW v).tablat = s.tablat := rfl
@[simp] theorem State.setW_ws (s : State) (v : Byte) : (s.setW v).ws = s.ws := rfl
@[simp] theorem State.setW_statuss (s : State) (v : Byte) : (s.setW v).statuss = s.statuss := rfl
@[simp] theorem State.setW_bsrs (s : State) (v : Byte) : (s.setW v).bsrs = s.bsrs := rfl
@[simp] theorem State.setW_ram (s : State) (v : Byte) : (s.setW v).ram = s.ram := rfl
@[simp] theorem State.setW_pm (s : State) (v : Byte) : (s.setW v).pm = s.pm := rfl
@[simp] theorem State.setW_gieh (s : State) (v : Byte) : (s.setW v).gieh = s.gieh := rfl
@[simp] theorem State.setW_giel (s : State) (v : Byte) : (s.setW v).giel = s.giel := rfl
@[simp] theorem State.setW_run (s : State) (v : Byte) : (s.setW v).run = s.run := rfl
@[simp] theorem State.setW_stackReset (s : State) (v : Byte) : (s.setW v).stackReset = s.stackReset := rfl
@[simp] theorem State.setW_prefetch (s : State) (v : Byte) : (s.setW v).prefetch = s.prefetch := rfl
@[simp] theorem State.setW_dev (s : State) (v : Byte) : (s.setW v).dev = s.dev := rfl
@[simp] theorem State.setW_env (s : State) (v : Byte) : (s.setW v).env = s.env := rfl
@[simp] theorem State.setW_inputs (s : State) (v : Byte) : (s.setW v).inputs = s.inputs := rfl
@[simp] theorem State.setW_trace (s : State) (v : Byte) : (s.setW v).trace = s.trace := rfl
@[simp] theorem State.setW_free (s : State) (v : Byte) : (s.setW v).free = s.free := rfl

/-! ### s.setStatus x -/

@[simp] theorem State.setStatus_w (s : State) (x : Status) : (s.setStatus x).w = s.w := rfl
@[simp] theorem State.setStatus_status (s : State) (x : Status) : (s.setStatus x).status = x := rfl
@[simp] theorem State.setStatus_bsr (s : State) (x : Status) : (s.setStatus x).bsr = s.bsr := rfl
@[simp] theorem State.setStatus_fsr0 (s : State) (x : Status) : (s.setStatus x).fsr0 = s.fsr0 := rfl
@[simp] theorem State.setStatus_fsr1 (s : State) (x : Status) : (s.setStatus x).fsr1 = s.fsr1 := rfl
@[simp] theorem State.setStatus_fsr2 (s : State) (x : Status) : (s.setStatus x).fsr2 = s.fsr2 := rfl
@[simp] theorem State.setStatus_pc (s : State) (x : Status) : (s.setStatus x).pc = s.pc := rfl
@[simp] theorem State.setStatus_pcHidden (s : State) (x : Status) : (s.setStatus x).pcHidden = s.pcHidden := rfl
@[simp] theorem State.setStatus_pclath (s : State) (x : Status) : (s.setStatus x).pclath = s.pclath := rfl
@[simp] theorem State.setStatus_pclatu (s : State) (x : Status) : (s.setStatus x).pclatu = s.pclatu := rfl
@[simp] theorem State.setStatus_stack (s : State) (x : Status) : (s.setStatus x).stack = s.stack := rfl
@[simp] theorem State.setStatus_sp (s : State) (x : Status) : (s.setStatus x).sp = s.sp := rfl
@[simp] theorem State.setStatus_stkovf (s : State) (x : Status) : (s.setStatus x).stkovf = s.stkovf := rfl
@[simp] theorem State.setStatus_stkunf (s : State) (x : Status) : (s.setStatus x).stkunf = s.stkunf := rfl
@[simp] theorem State.setStatus_prodh (s : State) (x : Status) : (s.setStatus x).prodh = s.prodh := rfl
@[simp] theorem State.setStatus_prodl (s : State) (x : Status) : (s.setStatus x).prodl = s.prodl := rfl
@[simp] theorem State.setStatus_tblptr (s : State) (x : Status) : (s.setStatus x).tblptr = s.tblptr := rfl
@[simp] theorem State.setStatus_tablat (s : State) (x : Status) : (s.setStatus x).tablat = s.tablat := rfl
@[simp] theorem State.setStatus_ws (s : State) (x : Status) : (s.setStatus x).ws = s.ws := rfl
@[simp] theorem State.setStatus_statuss (s : State) (x : Status) : (s.setStatus x).statuss = s.statuss := rfl
@[simp] theorem State.setStatus_bsrs (s : State) (x : Status) : (s.setStatus x).bsrs = s.bsrs := rfl
@[simp] theorem State.setStatus_ram (s : State) (x : Status) : (s.setStatus x).ram = s.ram := rfl
@[simp] theorem State.setStatus_pm (s : State) (x : Status) : (s.setStatus x).pm = s.pm := rfl
@[simp] theorem State.setStatus_gieh (s : State) (x : Status) : (s.setStatus x).gieh = s.gieh := rfl
@[simp] theorem State.setStatus_giel (s : State) (x : Status) : (s.setStatus x).giel = s.giel := rfl
@[simp] theorem State.setStatus_run (s : State) (x : Status) : (s.setStatus x).run = s.run := rfl
@[simp] theorem State.setStatus_stackReset (s : State) (x : Status) : (s.setStatus x).stackReset = s.stackReset := rfl
@[simp] theorem State.setStatus_prefetch (s : State) (x : Status) : (s.setStatus x).prefetch = s.prefetch := rfl
@[simp] theorem State.setStatus_dev (s : State) (x : Status) : (s.setStatus x).dev = s.dev := rfl
@[simp] theorem State.setStatus_env (s : State) (x : Status) : (s.setStatus x).env = s.env := rfl
@[simp] theorem State.setStatus_inputs (s : State) (x : Status) : (s.setStatus x).inputs = s.inputs := rfl
@[simp] theorem State.setStatus_trace (s : State) (x : Status) : (s.setStatus x).trace = s.trace := rfl
@[simp] theorem State.setStatus_free (s : State) (x : Status) : (s.setStatus x).free = s.free := rfl

/-! ### s.setPc t -/

@[simp] theorem State.setPc_w (s : State) (t : ProgAddr) : (s.setPc t).w = s.w := rfl
@[simp] theorem State.setPc_status (s : State) (t : ProgAddr) : (s.setPc t).status = s.status := rfl
@[simp] theorem State.setPc_bsr (s : State) (t : ProgAddr) : (s.setPc t).bsr = s.bsr := rfl
@[simp] theorem State.setPc_fsr0 (s : State) (t : ProgAddr) : (s.setPc t).fsr0 = s.fsr0 := rfl
@[simp] theorem State.setPc_fsr1 (s : State) (t : ProgAddr) : (s.setPc t).fsr1 = s.fsr1 := rfl
@[simp] theorem State.setPc_fsr2 (s : State) (t : ProgAddr) : (s.setPc t).fsr2 = s.fsr2 := rfl
@[simp] theorem State.setPc_pc (s : State) (t : ProgAddr) : (s.setPc t).pc = evenTarget t := rfl
@[simp] theorem State.setPc_pcHidden (s : State) (t : ProgAddr) : (s.setPc t).pcHidden = s.pcHidden := rfl
@[simp] theorem State.setPc_pclath (s : State) (t : ProgAddr) : (s.setPc t).pclath = s.pclath := rfl
@[simp] theorem State.setPc_pclatu (s : State) (t : ProgAddr) : (s.setPc t).pclatu = s.pclatu := rfl
@[simp] theorem State.setPc_stack (s : State) (t : ProgAddr) : (s.setPc t).stack = s.stack := rfl
@[simp] theorem State.setPc_sp (s : State) (t : ProgAddr) : (s.setPc t).sp = s.sp := rfl
@[simp] theorem State.setPc_stkovf (s : State) (t : ProgAddr) : (s.setPc t).stkovf = s.stkovf := rfl
@[simp] theorem State.setPc_stkunf (s : State) (t : ProgAddr) : (s.setPc t).stkunf = s.stkunf := rfl
@[simp] theorem State.setPc_prodh (s : State) (t : ProgAddr) : (s.setPc t).prodh = s.prodh := rfl
@[simp] theorem State.setPc_prodl (s : State) (t : ProgAddr) : (s.setPc t).prodl = s.prodl := rfl
@[simp] theorem State.setPc_tblptr (s : State) (t : ProgAddr) : (s.setPc t).tblptr = s.tblptr := rfl
@[simp] theorem State.setPc_tablat (s : State) (t : ProgAddr) : (s.setPc t).tablat = s.tablat := rfl
@[simp] theorem State.setPc_ws (s : State) (t : ProgAddr) : (s.setPc t).ws = s.ws := rfl
@[simp] theorem State.setPc_statuss (s : State) (t : ProgAddr) : (s.setPc t).statuss = s.statuss := rfl
@[simp] theorem State.setPc_bsrs (s : State) (t : ProgAddr) : (s.setPc t).bsrs = s.bsrs := rfl
@[simp] theorem State.setPc_ram (s : State) (t : ProgAddr) : (s.setPc t).ram = s.ram := rfl
@[simp] theorem State.setPc_pm (s : State) (t : ProgAddr) : (s.setPc t).pm = s.pm := rfl
@[simp] theorem State.setPc_gieh (s : State) (t : ProgAddr) : (s.setPc t).gieh = s.gieh := rfl
@[simp] theorem State.setPc_giel (s : State) (t : ProgAddr) : (s.setPc t).giel = s.giel := rfl
@[simp] theorem State.setPc_run (s : State) (t : ProgAddr) : (s.setPc t).run = s.run := rfl
@[simp] theorem State.setPc_stackReset (s : State) (t : ProgAddr) : (s.setPc t).stackReset = s.stackReset := rfl
@[simp] theorem State.setPc_prefetch (s : State) (t : ProgAddr) : (s.setPc t).prefetch = s.prefetch := rfl
@[simp] theorem State.setPc_dev (s : State) (t : ProgAddr) : (s.setPc t).dev = s.dev := rfl
@[simp] theorem State.setPc_env (s : State) (t : ProgAddr) : (s.setPc t).env = s.env := rfl
@[simp] theorem State.setPc_inputs (s : State) (t : ProgAddr) : (s.setPc t).inputs = s.inputs := rfl
@[simp] theorem State.setPc_trace (s : State) (t : ProgAddr) : (s.setPc t).trace = s.trace := rfl
@[simp] theorem State.setPc_free (s : State) (t : ProgAddr) : (s.setPc t).free = s.free := rfl

/-! ### s.skip -/

@[simp] theorem State.skip_w (s : State) : (s.skip).w = s.w := rfl
@[simp] theorem State.skip_status (s : State) : (s.skip).status = s.status := rfl
@[simp] theorem State.skip_bsr (s : State) : (s.skip).bsr = s.bsr := rfl
@[simp] theorem State.skip_fsr0 (s : State) : (s.skip).fsr0 = s.fsr0 := rfl
@[simp] theorem State.skip_fsr1 (s : State) : (s.skip).fsr1 = s.fsr1 := rfl
@[simp] theorem State.skip_fsr2 (s : State) : (s.skip).fsr2 = s.fsr2 := rfl
@[simp] theorem State.skip_pc (s : State) : (s.skip).pc = evenTarget (s.pc + 2#21) := rfl
@[simp] theorem State.skip_pcHidden (s : State) : (s.skip).pcHidden = s.pcHidden := rfl
@[simp] theorem State.skip_pclath (s : State) : (s.skip).pclath = s.pclath := rfl
@[simp] theorem State.skip_pclatu (s : State) : (s.skip).pclatu = s.pclatu := rfl
@[simp] theorem State.skip_stack (s : State) : (s.skip).stack = s.stack := rfl
@[simp] theorem State.skip_sp (s : State) : (s.skip).sp = s.sp := rfl
@[simp] theorem State.skip_stkovf (s : State) : (s.skip).stkovf = s.stkovf := rfl
@[simp] theorem State.skip_stkunf (s : State) : (s.skip).stkunf = s.stkunf := rfl
@[simp] theorem State.skip_prodh (s : State) : (s.skip).prodh = s.prodh := rfl
@[simp] theorem State.skip_prodl (s : State) : (s.skip).prodl = s.prodl := rfl
@[simp] theorem State.skip_tblptr (s : State) : (s.skip).tblptr = s.tblptr := rfl
@[simp] theorem State.skip_tablat (s : State) : (s.skip).tablat = s.tablat := rfl
@[simp] theorem State.skip_ws (s : State) : (s.skip).ws = s.ws := rfl
@[simp] theorem State.skip_statuss (s : State) : (s.skip).statuss = s.statuss := rfl
@[simp] theorem State.skip_bsrs (s : State) : (s.skip).bsrs = s.bsrs := rfl
@[simp] theorem State.skip_ram (s : State) : (s.skip).ram = s.ram := rfl
@[simp] theorem State.skip_pm (s : State) : (s.skip).pm = s.pm := rfl
@[simp] theorem State.skip_gieh (s : State) : (s.skip).gieh = s.gieh := rfl
@[simp] theorem State.skip_giel (s : State) : (s.skip).giel = s.giel := rfl
@[simp] theorem State.skip_run (s : State) : (s.skip).run = s.run := rfl
@[simp] theorem State.skip_stackReset (s : State) : (s.skip).stackReset = s.stackReset := rfl
@[simp] theorem State.skip_prefetch (s : State) : (s.skip).prefetch = s.prefetch := rfl
@[simp] theorem State.skip_dev (s : State) : (s.skip).dev = s.dev := rfl
@[simp] theorem State.skip_env (s : State) : (s.skip).env = s.env := rfl
@[simp] theorem State.skip_inputs (s : State) : (s.skip).inputs = s.inputs := rfl
@[simp] theorem State.skip_trace (s : State) : (s.skip).trace = s.trace := rfl
@[simp] theorem State.skip_free (s : State) : (s.skip).free = s.free := rfl

/-! ### s.loadLatches t -/

@[simp] theorem State.loadLatches_w (s : State) (t : ProgAddr) : (s.loadLatches t).w = s.w := rfl
@[simp] theorem State.loadLatches_status (s : State) (t : ProgAddr) : (s.loadLatches t).status = s.status := rfl
@[simp] theorem State.loadLatches_bsr (s : State) (t : ProgAddr) : (s.loadLatches t).bsr = s.bsr := rfl
@[simp] theorem State.loadLatches_fsr0 (s : State) (t : ProgAddr) : (s.loadLatches t).fsr0 = s.fsr0 := rfl
@[simp] theorem State.loadLatches_fsr1 (s : State) (t : ProgAddr) : (s.loadLatches t).fsr1 = s.fsr1 := rfl
@[simp] theorem State.loadLatches_fsr2 (s : State) (t : ProgAddr) : (s.loadLatches t).fsr2 = s.fsr2 := rfl
@[simp] theorem State.loadLatches_pc (s : State) (t : ProgAddr) : (s.loadLatches t).pc = s.pc := rfl
@[simp] theorem State.loadLatches_pcHidden (s : State) (t : ProgAddr) : (s.loadLatches t).pcHidden = s.pcHidden := rfl
@[simp] theorem State.loadLatches_pclath (s : State) (t : ProgAddr) : (s.loadLatches t).pclath = t.extractLsb' 8 8 := rfl
@[simp] theorem State.loadLatches_pclatu (s : State) (t : ProgAddr) : (s.loadLatches t).pclatu = t.extractLsb' 16 5 := rfl
@[simp] theorem State.loadLatches_stack (s : State) (t : ProgAddr) : (s.loadLatches t).stack = s.stack := rfl
@[simp] theorem State.loadLatches_sp (s : State) (t : ProgAddr) : (s.loadLatches t).sp = s.sp := rfl
@[simp] theorem State.loadLatches_stkovf (s : State) (t : ProgAddr) : (s.loadLatches t).stkovf = s.stkovf := rfl
@[simp] theorem State.loadLatches_stkunf (s : State) (t : ProgAddr) : (s.loadLatches t).stkunf = s.stkunf := rfl
@[simp] theorem State.loadLatches_prodh (s : State) (t : ProgAddr) : (s.loadLatches t).prodh = s.prodh := rfl
@[simp] theorem State.loadLatches_prodl (s : State) (t : ProgAddr) : (s.loadLatches t).prodl = s.prodl := rfl
@[simp] theorem State.loadLatches_tblptr (s : State) (t : ProgAddr) : (s.loadLatches t).tblptr = s.tblptr := rfl
@[simp] theorem State.loadLatches_tablat (s : State) (t : ProgAddr) : (s.loadLatches t).tablat = s.tablat := rfl
@[simp] theorem State.loadLatches_ws (s : State) (t : ProgAddr) : (s.loadLatches t).ws = s.ws := rfl
@[simp] theorem State.loadLatches_statuss (s : State) (t : ProgAddr) : (s.loadLatches t).statuss = s.statuss := rfl
@[simp] theorem State.loadLatches_bsrs (s : State) (t : ProgAddr) : (s.loadLatches t).bsrs = s.bsrs := rfl
@[simp] theorem State.loadLatches_ram (s : State) (t : ProgAddr) : (s.loadLatches t).ram = s.ram := rfl
@[simp] theorem State.loadLatches_pm (s : State) (t : ProgAddr) : (s.loadLatches t).pm = s.pm := rfl
@[simp] theorem State.loadLatches_gieh (s : State) (t : ProgAddr) : (s.loadLatches t).gieh = s.gieh := rfl
@[simp] theorem State.loadLatches_giel (s : State) (t : ProgAddr) : (s.loadLatches t).giel = s.giel := rfl
@[simp] theorem State.loadLatches_run (s : State) (t : ProgAddr) : (s.loadLatches t).run = s.run := rfl
@[simp] theorem State.loadLatches_stackReset (s : State) (t : ProgAddr) : (s.loadLatches t).stackReset = s.stackReset := rfl
@[simp] theorem State.loadLatches_prefetch (s : State) (t : ProgAddr) : (s.loadLatches t).prefetch = s.prefetch := rfl
@[simp] theorem State.loadLatches_dev (s : State) (t : ProgAddr) : (s.loadLatches t).dev = s.dev := rfl
@[simp] theorem State.loadLatches_env (s : State) (t : ProgAddr) : (s.loadLatches t).env = s.env := rfl
@[simp] theorem State.loadLatches_inputs (s : State) (t : ProgAddr) : (s.loadLatches t).inputs = s.inputs := rfl
@[simp] theorem State.loadLatches_trace (s : State) (t : ProgAddr) : (s.loadLatches t).trace = s.trace := rfl
@[simp] theorem State.loadLatches_free (s : State) (t : ProgAddr) : (s.loadLatches t).free = s.free := rfl

/-! ### s.jumpFar t -/

@[simp] theorem State.jumpFar_w (s : State) (t : ProgAddr) : (s.jumpFar t).w = s.w := rfl
@[simp] theorem State.jumpFar_status (s : State) (t : ProgAddr) : (s.jumpFar t).status = s.status := rfl
@[simp] theorem State.jumpFar_bsr (s : State) (t : ProgAddr) : (s.jumpFar t).bsr = s.bsr := rfl
@[simp] theorem State.jumpFar_fsr0 (s : State) (t : ProgAddr) : (s.jumpFar t).fsr0 = s.fsr0 := rfl
@[simp] theorem State.jumpFar_fsr1 (s : State) (t : ProgAddr) : (s.jumpFar t).fsr1 = s.fsr1 := rfl
@[simp] theorem State.jumpFar_fsr2 (s : State) (t : ProgAddr) : (s.jumpFar t).fsr2 = s.fsr2 := rfl
@[simp] theorem State.jumpFar_pc (s : State) (t : ProgAddr) : (s.jumpFar t).pc = evenTarget t := rfl
@[simp] theorem State.jumpFar_pcHidden (s : State) (t : ProgAddr) : (s.jumpFar t).pcHidden = s.pcHidden := rfl
@[simp] theorem State.jumpFar_pclath (s : State) (t : ProgAddr) : (s.jumpFar t).pclath = t.extractLsb' 8 8 := rfl
@[simp] theorem State.jumpFar_pclatu (s : State) (t : ProgAddr) : (s.jumpFar t).pclatu = t.extractLsb' 16 5 := rfl
@[simp] theorem State.jumpFar_stack (s : State) (t : ProgAddr) : (s.jumpFar t).stack = s.stack := rfl
@[simp] theorem State.jumpFar_sp (s : State) (t : ProgAddr) : (s.jumpFar t).sp = s.sp := rfl
@[simp] theorem State.jumpFar_stkovf (s : State) (t : ProgAddr) : (s.jumpFar t).stkovf = s.stkovf := rfl
@[simp] theorem State.jumpFar_stkunf (s : State) (t : ProgAddr) : (s.jumpFar t).stkunf = s.stkunf := rfl
@[simp] theorem State.jumpFar_prodh (s : State) (t : ProgAddr) : (s.jumpFar t).prodh = s.prodh := rfl
@[simp] theorem State.jumpFar_prodl (s : State) (t : ProgAddr) : (s.jumpFar t).prodl = s.prodl := rfl
@[simp] theorem State.jumpFar_tblptr (s : State) (t : ProgAddr) : (s.jumpFar t).tblptr = s.tblptr := rfl
@[simp] theorem State.jumpFar_tablat (s : State) (t : ProgAddr) : (s.jumpFar t).tablat = s.tablat := rfl
@[simp] theorem State.jumpFar_ws (s : State) (t : ProgAddr) : (s.jumpFar t).ws = s.ws := rfl
@[simp] theorem State.jumpFar_statuss (s : State) (t : ProgAddr) : (s.jumpFar t).statuss = s.statuss := rfl
@[simp] theorem State.jumpFar_bsrs (s : State) (t : ProgAddr) : (s.jumpFar t).bsrs = s.bsrs := rfl
@[simp] theorem State.jumpFar_ram (s : State) (t : ProgAddr) : (s.jumpFar t).ram = s.ram := rfl
@[simp] theorem State.jumpFar_pm (s : State) (t : ProgAddr) : (s.jumpFar t).pm = s.pm := rfl
@[simp] theorem State.jumpFar_gieh (s : State) (t : ProgAddr) : (s.jumpFar t).gieh = s.gieh := rfl
@[simp] theorem State.jumpFar_giel (s : State) (t : ProgAddr) : (s.jumpFar t).giel = s.giel := rfl
@[simp] theorem State.jumpFar_run (s : State) (t : ProgAddr) : (s.jumpFar t).run = s.run := rfl
@[simp] theorem State.jumpFar_stackReset (s : State) (t : ProgAddr) : (s.jumpFar t).stackReset = s.stackReset := rfl
@[simp] theorem State.jumpFar_prefetch (s : State) (t : ProgAddr) : (s.jumpFar t).prefetch = s.prefetch := rfl
@[simp] theorem State.jumpFar_dev (s : State) (t : ProgAddr) : (s.jumpFar t).dev = s.dev := rfl
@[simp] theorem State.jumpFar_env (s : State) (t : ProgAddr) : (s.jumpFar t).env = s.env := rfl
@[simp] theorem State.jumpFar_inputs (s : State) (t : ProgAddr) : (s.jumpFar t).inputs = s.inputs := rfl
@[simp] theorem State.jumpFar_trace (s : State) (t : ProgAddr) : (s.jumpFar t).trace = s.trace := rfl
@[simp] theorem State.jumpFar_free (s : State) (t : ProgAddr) : (s.jumpFar t).free = s.free := rfl

/-! ### s.emit e -/

@[simp] theorem State.emit_w (s : State) (e : Event) : (s.emit e).w = s.w := rfl
@[simp] theorem State.emit_status (s : State) (e : Event) : (s.emit e).status = s.status := rfl
@[simp] theorem State.emit_bsr (s : State) (e : Event) : (s.emit e).bsr = s.bsr := rfl
@[simp] theorem State.emit_fsr0 (s : State) (e : Event) : (s.emit e).fsr0 = s.fsr0 := rfl
@[simp] theorem State.emit_fsr1 (s : State) (e : Event) : (s.emit e).fsr1 = s.fsr1 := rfl
@[simp] theorem State.emit_fsr2 (s : State) (e : Event) : (s.emit e).fsr2 = s.fsr2 := rfl
@[simp] theorem State.emit_pc (s : State) (e : Event) : (s.emit e).pc = s.pc := rfl
@[simp] theorem State.emit_pcHidden (s : State) (e : Event) : (s.emit e).pcHidden = s.pcHidden := rfl
@[simp] theorem State.emit_pclath (s : State) (e : Event) : (s.emit e).pclath = s.pclath := rfl
@[simp] theorem State.emit_pclatu (s : State) (e : Event) : (s.emit e).pclatu = s.pclatu := rfl
@[simp] theorem State.emit_stack (s : State) (e : Event) : (s.emit e).stack = s.stack := rfl
@[simp] theorem State.emit_sp (s : State) (e : Event) : (s.emit e).sp = s.sp := rfl
@[simp] theorem State.emit_stkovf (s : State) (e : Event) : (s.emit e).stkovf = s.stkovf := rfl
@[simp] theorem State.emit_stkunf (s : State) (e : Event) : (s.emit e).stkunf = s.stkunf := rfl
@[simp] theorem State.emit_prodh (s : State) (e : Event) : (s.emit e).prodh = s.prodh := rfl
@[simp] theorem State.emit_prodl (s : State) (e : Event) : (s.emit e).prodl = s.prodl := rfl
@[simp] theorem State.emit_tblptr (s : State) (e : Event) : (s.emit e).tblptr = s.tblptr := rfl
@[simp] theorem State.emit_tablat (s : State) (e : Event) : (s.emit e).tablat = s.tablat := rfl
@[simp] theorem State.emit_ws (s : State) (e : Event) : (s.emit e).ws = s.ws := rfl
@[simp] theorem State.emit_statuss (s : State) (e : Event) : (s.emit e).statuss = s.statuss := rfl
@[simp] theorem State.emit_bsrs (s : State) (e : Event) : (s.emit e).bsrs = s.bsrs := rfl
@[simp] theorem State.emit_ram (s : State) (e : Event) : (s.emit e).ram = s.ram := rfl
@[simp] theorem State.emit_pm (s : State) (e : Event) : (s.emit e).pm = s.pm := rfl
@[simp] theorem State.emit_gieh (s : State) (e : Event) : (s.emit e).gieh = s.gieh := rfl
@[simp] theorem State.emit_giel (s : State) (e : Event) : (s.emit e).giel = s.giel := rfl
@[simp] theorem State.emit_run (s : State) (e : Event) : (s.emit e).run = s.run := rfl
@[simp] theorem State.emit_stackReset (s : State) (e : Event) : (s.emit e).stackReset = s.stackReset := rfl
@[simp] theorem State.emit_prefetch (s : State) (e : Event) : (s.emit e).prefetch = s.prefetch := rfl
@[simp] theorem State.emit_dev (s : State) (e : Event) : (s.emit e).dev = s.dev := rfl
@[simp] theorem State.emit_env (s : State) (e : Event) : (s.emit e).env = s.env := rfl
@[simp] theorem State.emit_inputs (s : State) (e : Event) : (s.emit e).inputs = s.inputs := rfl
@[simp] theorem State.emit_trace (s : State) (e : Event) : (s.emit e).trace = e :: s.trace := rfl
@[simp] theorem State.emit_free (s : State) (e : Event) : (s.emit e).free = s.free := rfl

/-! ### s.draw -/

@[simp] theorem State.draw_w (s : State) : (s.draw).w = s.w := rfl
@[simp] theorem State.draw_status (s : State) : (s.draw).status = s.status := rfl
@[simp] theorem State.draw_bsr (s : State) : (s.draw).bsr = s.bsr := rfl
@[simp] theorem State.draw_fsr0 (s : State) : (s.draw).fsr0 = s.fsr0 := rfl
@[simp] theorem State.draw_fsr1 (s : State) : (s.draw).fsr1 = s.fsr1 := rfl
@[simp] theorem State.draw_fsr2 (s : State) : (s.draw).fsr2 = s.fsr2 := rfl
@[simp] theorem State.draw_pc (s : State) : (s.draw).pc = s.pc := rfl
@[simp] theorem State.draw_pcHidden (s : State) : (s.draw).pcHidden = s.pcHidden := rfl
@[simp] theorem State.draw_pclath (s : State) : (s.draw).pclath = s.pclath := rfl
@[simp] theorem State.draw_pclatu (s : State) : (s.draw).pclatu = s.pclatu := rfl
@[simp] theorem State.draw_stack (s : State) : (s.draw).stack = s.stack := rfl
@[simp] theorem State.draw_sp (s : State) : (s.draw).sp = s.sp := rfl
@[simp] theorem State.draw_stkovf (s : State) : (s.draw).stkovf = s.stkovf := rfl
@[simp] theorem State.draw_stkunf (s : State) : (s.draw).stkunf = s.stkunf := rfl
@[simp] theorem State.draw_prodh (s : State) : (s.draw).prodh = s.prodh := rfl
@[simp] theorem State.draw_prodl (s : State) : (s.draw).prodl = s.prodl := rfl
@[simp] theorem State.draw_tblptr (s : State) : (s.draw).tblptr = s.tblptr := rfl
@[simp] theorem State.draw_tablat (s : State) : (s.draw).tablat = s.tablat := rfl
@[simp] theorem State.draw_ws (s : State) : (s.draw).ws = s.ws := rfl
@[simp] theorem State.draw_statuss (s : State) : (s.draw).statuss = s.statuss := rfl
@[simp] theorem State.draw_bsrs (s : State) : (s.draw).bsrs = s.bsrs := rfl
@[simp] theorem State.draw_ram (s : State) : (s.draw).ram = s.ram := rfl
@[simp] theorem State.draw_pm (s : State) : (s.draw).pm = s.pm := rfl
@[simp] theorem State.draw_gieh (s : State) : (s.draw).gieh = s.gieh := rfl
@[simp] theorem State.draw_giel (s : State) : (s.draw).giel = s.giel := rfl
@[simp] theorem State.draw_run (s : State) : (s.draw).run = s.run := rfl
@[simp] theorem State.draw_stackReset (s : State) : (s.draw).stackReset = s.stackReset := rfl
@[simp] theorem State.draw_prefetch (s : State) : (s.draw).prefetch = s.prefetch := rfl
@[simp] theorem State.draw_dev (s : State) : (s.draw).dev = s.dev := rfl
@[simp] theorem State.draw_env (s : State) : (s.draw).env = s.env := rfl
@[simp] theorem State.draw_inputs (s : State) : (s.draw).inputs = s.inputs := rfl
@[simp] theorem State.draw_trace (s : State) : (s.draw).trace = s.trace := rfl
@[simp] theorem State.draw_free (s : State) : (s.draw).free = s.free + 1 := rfl

/-! ### s.applyFlags u -/

@[simp] theorem State.applyFlags_w (s : State) (u : FlagUpdate) : (s.applyFlags u).w = s.w := rfl
@[simp] theorem State.applyFlags_status (s : State) (u : FlagUpdate) : (s.applyFlags u).status = s.status.update u := rfl
@[simp] theorem State.applyFlags_bsr (s : State) (u : FlagUpdate) : (s.applyFlags u).bsr = s.bsr := rfl
@[simp] theorem State.applyFlags_fsr0 (s : State) (u : FlagUpdate) : (s.applyFlags u).fsr0 = s.fsr0 := rfl
@[simp] theorem State.applyFlags_fsr1 (s : State) (u : FlagUpdate) : (s.applyFlags u).fsr1 = s.fsr1 := rfl
@[simp] theorem State.applyFlags_fsr2 (s : State) (u : FlagUpdate) : (s.applyFlags u).fsr2 = s.fsr2 := rfl
@[simp] theorem State.applyFlags_pc (s : State) (u : FlagUpdate) : (s.applyFlags u).pc = s.pc := rfl
@[simp] theorem State.applyFlags_pcHidden (s : State) (u : FlagUpdate) : (s.applyFlags u).pcHidden = s.pcHidden := rfl
@[simp] theorem State.applyFlags_pclath (s : State) (u : FlagUpdate) : (s.applyFlags u).pclath = s.pclath := rfl
@[simp] theorem State.applyFlags_pclatu (s : State) (u : FlagUpdate) : (s.applyFlags u).pclatu = s.pclatu := rfl
@[simp] theorem State.applyFlags_stack (s : State) (u : FlagUpdate) : (s.applyFlags u).stack = s.stack := rfl
@[simp] theorem State.applyFlags_sp (s : State) (u : FlagUpdate) : (s.applyFlags u).sp = s.sp := rfl
@[simp] theorem State.applyFlags_stkovf (s : State) (u : FlagUpdate) : (s.applyFlags u).stkovf = s.stkovf := rfl
@[simp] theorem State.applyFlags_stkunf (s : State) (u : FlagUpdate) : (s.applyFlags u).stkunf = s.stkunf := rfl
@[simp] theorem State.applyFlags_prodh (s : State) (u : FlagUpdate) : (s.applyFlags u).prodh = s.prodh := rfl
@[simp] theorem State.applyFlags_prodl (s : State) (u : FlagUpdate) : (s.applyFlags u).prodl = s.prodl := rfl
@[simp] theorem State.applyFlags_tblptr (s : State) (u : FlagUpdate) : (s.applyFlags u).tblptr = s.tblptr := rfl
@[simp] theorem State.applyFlags_tablat (s : State) (u : FlagUpdate) : (s.applyFlags u).tablat = s.tablat := rfl
@[simp] theorem State.applyFlags_ws (s : State) (u : FlagUpdate) : (s.applyFlags u).ws = s.ws := rfl
@[simp] theorem State.applyFlags_statuss (s : State) (u : FlagUpdate) : (s.applyFlags u).statuss = s.statuss := rfl
@[simp] theorem State.applyFlags_bsrs (s : State) (u : FlagUpdate) : (s.applyFlags u).bsrs = s.bsrs := rfl
@[simp] theorem State.applyFlags_ram (s : State) (u : FlagUpdate) : (s.applyFlags u).ram = s.ram := rfl
@[simp] theorem State.applyFlags_pm (s : State) (u : FlagUpdate) : (s.applyFlags u).pm = s.pm := rfl
@[simp] theorem State.applyFlags_gieh (s : State) (u : FlagUpdate) : (s.applyFlags u).gieh = s.gieh := rfl
@[simp] theorem State.applyFlags_giel (s : State) (u : FlagUpdate) : (s.applyFlags u).giel = s.giel := rfl
@[simp] theorem State.applyFlags_run (s : State) (u : FlagUpdate) : (s.applyFlags u).run = s.run := rfl
@[simp] theorem State.applyFlags_stackReset (s : State) (u : FlagUpdate) : (s.applyFlags u).stackReset = s.stackReset := rfl
@[simp] theorem State.applyFlags_prefetch (s : State) (u : FlagUpdate) : (s.applyFlags u).prefetch = s.prefetch := rfl
@[simp] theorem State.applyFlags_dev (s : State) (u : FlagUpdate) : (s.applyFlags u).dev = s.dev := rfl
@[simp] theorem State.applyFlags_env (s : State) (u : FlagUpdate) : (s.applyFlags u).env = s.env := rfl
@[simp] theorem State.applyFlags_inputs (s : State) (u : FlagUpdate) : (s.applyFlags u).inputs = s.inputs := rfl
@[simp] theorem State.applyFlags_trace (s : State) (u : FlagUpdate) : (s.applyFlags u).trace = s.trace := rfl
@[simp] theorem State.applyFlags_free (s : State) (u : FlagUpdate) : (s.applyFlags u).free = s.free := rfl

/-! ### s.setWFlags r -/

@[simp] theorem State.setWFlags_w (s : State) (r : Alu) : (s.setWFlags r).w = r.val := rfl
@[simp] theorem State.setWFlags_status (s : State) (r : Alu) : (s.setWFlags r).status = s.status.update r.flags := rfl
@[simp] theorem State.setWFlags_bsr (s : State) (r : Alu) : (s.setWFlags r).bsr = s.bsr := rfl
@[simp] theorem State.setWFlags_fsr0 (s : State) (r : Alu) : (s.setWFlags r).fsr0 = s.fsr0 := rfl
@[simp] theorem State.setWFlags_fsr1 (s : State) (r : Alu) : (s.setWFlags r).fsr1 = s.fsr1 := rfl
@[simp] theorem State.setWFlags_fsr2 (s : State) (r : Alu) : (s.setWFlags r).fsr2 = s.fsr2 := rfl
@[simp] theorem State.setWFlags_pc (s : State) (r : Alu) : (s.setWFlags r).pc = s.pc := rfl
@[simp] theorem State.setWFlags_pcHidden (s : State) (r : Alu) : (s.setWFlags r).pcHidden = s.pcHidden := rfl
@[simp] theorem State.setWFlags_pclath (s : State) (r : Alu) : (s.setWFlags r).pclath = s.pclath := rfl
@[simp] theorem State.setWFlags_pclatu (s : State) (r : Alu) : (s.setWFlags r).pclatu = s.pclatu := rfl
@[simp] theorem State.setWFlags_stack (s : State) (r : Alu) : (s.setWFlags r).stack = s.stack := rfl
@[simp] theorem State.setWFlags_sp (s : State) (r : Alu) : (s.setWFlags r).sp = s.sp := rfl
@[simp] theorem State.setWFlags_stkovf (s : State) (r : Alu) : (s.setWFlags r).stkovf = s.stkovf := rfl
@[simp] theorem State.setWFlags_stkunf (s : State) (r : Alu) : (s.setWFlags r).stkunf = s.stkunf := rfl
@[simp] theorem State.setWFlags_prodh (s : State) (r : Alu) : (s.setWFlags r).prodh = s.prodh := rfl
@[simp] theorem State.setWFlags_prodl (s : State) (r : Alu) : (s.setWFlags r).prodl = s.prodl := rfl
@[simp] theorem State.setWFlags_tblptr (s : State) (r : Alu) : (s.setWFlags r).tblptr = s.tblptr := rfl
@[simp] theorem State.setWFlags_tablat (s : State) (r : Alu) : (s.setWFlags r).tablat = s.tablat := rfl
@[simp] theorem State.setWFlags_ws (s : State) (r : Alu) : (s.setWFlags r).ws = s.ws := rfl
@[simp] theorem State.setWFlags_statuss (s : State) (r : Alu) : (s.setWFlags r).statuss = s.statuss := rfl
@[simp] theorem State.setWFlags_bsrs (s : State) (r : Alu) : (s.setWFlags r).bsrs = s.bsrs := rfl
@[simp] theorem State.setWFlags_ram (s : State) (r : Alu) : (s.setWFlags r).ram = s.ram := rfl
@[simp] theorem State.setWFlags_pm (s : State) (r : Alu) : (s.setWFlags r).pm = s.pm := rfl
@[simp] theorem State.setWFlags_gieh (s : State) (r : Alu) : (s.setWFlags r).gieh = s.gieh := rfl
@[simp] theorem State.setWFlags_giel (s : State) (r : Alu) : (s.setWFlags r).giel = s.giel := rfl
@[simp] theorem State.setWFlags_run (s : State) (r : Alu) : (s.setWFlags r).run = s.run := rfl
@[simp] theorem State.setWFlags_stackReset (s : State) (r : Alu) : (s.setWFlags r).stackReset = s.stackReset := rfl
@[simp] theorem State.setWFlags_prefetch (s : State) (r : Alu) : (s.setWFlags r).prefetch = s.prefetch := rfl
@[simp] theorem State.setWFlags_dev (s : State) (r : Alu) : (s.setWFlags r).dev = s.dev := rfl
@[simp] theorem State.setWFlags_env (s : State) (r : Alu) : (s.setWFlags r).env = s.env := rfl
@[simp] theorem State.setWFlags_inputs (s : State) (r : Alu) : (s.setWFlags r).inputs = s.inputs := rfl
@[simp] theorem State.setWFlags_trace (s : State) (r : Alu) : (s.setWFlags r).trace = s.trace := rfl
@[simp] theorem State.setWFlags_free (s : State) (r : Alu) : (s.setWFlags r).free = s.free := rfl

/-! ### s.saveShadow -/

@[simp] theorem State.saveShadow_w (s : State) : (s.saveShadow).w = s.w := rfl
@[simp] theorem State.saveShadow_status (s : State) : (s.saveShadow).status = s.status := rfl
@[simp] theorem State.saveShadow_bsr (s : State) : (s.saveShadow).bsr = s.bsr := rfl
@[simp] theorem State.saveShadow_fsr0 (s : State) : (s.saveShadow).fsr0 = s.fsr0 := rfl
@[simp] theorem State.saveShadow_fsr1 (s : State) : (s.saveShadow).fsr1 = s.fsr1 := rfl
@[simp] theorem State.saveShadow_fsr2 (s : State) : (s.saveShadow).fsr2 = s.fsr2 := rfl
@[simp] theorem State.saveShadow_pc (s : State) : (s.saveShadow).pc = s.pc := rfl
@[simp] theorem State.saveShadow_pcHidden (s : State) : (s.saveShadow).pcHidden = s.pcHidden := rfl
@[simp] theorem State.saveShadow_pclath (s : State) : (s.saveShadow).pclath = s.pclath := rfl
@[simp] theorem State.saveShadow_pclatu (s : State) : (s.saveShadow).pclatu = s.pclatu := rfl
@[simp] theorem State.saveShadow_stack (s : State) : (s.saveShadow).stack = s.stack := rfl
@[simp] theorem State.saveShadow_sp (s : State) : (s.saveShadow).sp = s.sp := rfl
@[simp] theorem State.saveShadow_stkovf (s : State) : (s.saveShadow).stkovf = s.stkovf := rfl
@[simp] theorem State.saveShadow_stkunf (s : State) : (s.saveShadow).stkunf = s.stkunf := rfl
@[simp] theorem State.saveShadow_prodh (s : State) : (s.saveShadow).prodh = s.prodh := rfl
@[simp] theorem State.saveShadow_prodl (s : State) : (s.saveShadow).prodl = s.prodl := rfl
@[simp] theorem State.saveShadow_tblptr (s : State) : (s.saveShadow).tblptr = s.tblptr := rfl
@[simp] theorem State.saveShadow_tablat (s : State) : (s.saveShadow).tablat = s.tablat := rfl
@[simp] theorem State.saveShadow_ws (s : State) : (s.saveShadow).ws = s.w := rfl
@[simp] theorem State.saveShadow_statuss (s : State) : (s.saveShadow).statuss = s.status := rfl
@[simp] theorem State.saveShadow_bsrs (s : State) : (s.saveShadow).bsrs = s.bsr := rfl
@[simp] theorem State.saveShadow_ram (s : State) : (s.saveShadow).ram = s.ram := rfl
@[simp] theorem State.saveShadow_pm (s : State) : (s.saveShadow).pm = s.pm := rfl
@[simp] theorem State.saveShadow_gieh (s : State) : (s.saveShadow).gieh = s.gieh := rfl
@[simp] theorem State.saveShadow_giel (s : State) : (s.saveShadow).giel = s.giel := rfl
@[simp] theorem State.saveShadow_run (s : State) : (s.saveShadow).run = s.run := rfl
@[simp] theorem State.saveShadow_stackReset (s : State) : (s.saveShadow).stackReset = s.stackReset := rfl
@[simp] theorem State.saveShadow_prefetch (s : State) : (s.saveShadow).prefetch = s.prefetch := rfl
@[simp] theorem State.saveShadow_dev (s : State) : (s.saveShadow).dev = s.dev := rfl
@[simp] theorem State.saveShadow_env (s : State) : (s.saveShadow).env = s.env := rfl
@[simp] theorem State.saveShadow_inputs (s : State) : (s.saveShadow).inputs = s.inputs := rfl
@[simp] theorem State.saveShadow_trace (s : State) : (s.saveShadow).trace = s.trace := rfl
@[simp] theorem State.saveShadow_free (s : State) : (s.saveShadow).free = s.free := rfl

/-! ### s.restoreShadow -/

@[simp] theorem State.restoreShadow_w (s : State) : (s.restoreShadow).w = s.ws := rfl
@[simp] theorem State.restoreShadow_status (s : State) : (s.restoreShadow).status = s.statuss := rfl
@[simp] theorem State.restoreShadow_bsr (s : State) : (s.restoreShadow).bsr = s.bsrs := rfl
@[simp] theorem State.restoreShadow_fsr0 (s : State) : (s.restoreShadow).fsr0 = s.fsr0 := rfl
@[simp] theorem State.restoreShadow_fsr1 (s : State) : (s.restoreShadow).fsr1 = s.fsr1 := rfl
@[simp] theorem State.restoreShadow_fsr2 (s : State) : (s.restoreShadow).fsr2 = s.fsr2 := rfl
@[simp] theorem State.restoreShadow_pc (s : State) : (s.restoreShadow).pc = s.pc := rfl
@[simp] theorem State.restoreShadow_pcHidden (s : State) : (s.restoreShadow).pcHidden = s.pcHidden := rfl
@[simp] theorem State.restoreShadow_pclath (s : State) : (s.restoreShadow).pclath = s.pclath := rfl
@[simp] theorem State.restoreShadow_pclatu (s : State) : (s.restoreShadow).pclatu = s.pclatu := rfl
@[simp] theorem State.restoreShadow_stack (s : State) : (s.restoreShadow).stack = s.stack := rfl
@[simp] theorem State.restoreShadow_sp (s : State) : (s.restoreShadow).sp = s.sp := rfl
@[simp] theorem State.restoreShadow_stkovf (s : State) : (s.restoreShadow).stkovf = s.stkovf := rfl
@[simp] theorem State.restoreShadow_stkunf (s : State) : (s.restoreShadow).stkunf = s.stkunf := rfl
@[simp] theorem State.restoreShadow_prodh (s : State) : (s.restoreShadow).prodh = s.prodh := rfl
@[simp] theorem State.restoreShadow_prodl (s : State) : (s.restoreShadow).prodl = s.prodl := rfl
@[simp] theorem State.restoreShadow_tblptr (s : State) : (s.restoreShadow).tblptr = s.tblptr := rfl
@[simp] theorem State.restoreShadow_tablat (s : State) : (s.restoreShadow).tablat = s.tablat := rfl
@[simp] theorem State.restoreShadow_ws (s : State) : (s.restoreShadow).ws = s.ws := rfl
@[simp] theorem State.restoreShadow_statuss (s : State) : (s.restoreShadow).statuss = s.statuss := rfl
@[simp] theorem State.restoreShadow_bsrs (s : State) : (s.restoreShadow).bsrs = s.bsrs := rfl
@[simp] theorem State.restoreShadow_ram (s : State) : (s.restoreShadow).ram = s.ram := rfl
@[simp] theorem State.restoreShadow_pm (s : State) : (s.restoreShadow).pm = s.pm := rfl
@[simp] theorem State.restoreShadow_gieh (s : State) : (s.restoreShadow).gieh = s.gieh := rfl
@[simp] theorem State.restoreShadow_giel (s : State) : (s.restoreShadow).giel = s.giel := rfl
@[simp] theorem State.restoreShadow_run (s : State) : (s.restoreShadow).run = s.run := rfl
@[simp] theorem State.restoreShadow_stackReset (s : State) : (s.restoreShadow).stackReset = s.stackReset := rfl
@[simp] theorem State.restoreShadow_prefetch (s : State) : (s.restoreShadow).prefetch = s.prefetch := rfl
@[simp] theorem State.restoreShadow_dev (s : State) : (s.restoreShadow).dev = s.dev := rfl
@[simp] theorem State.restoreShadow_env (s : State) : (s.restoreShadow).env = s.env := rfl
@[simp] theorem State.restoreShadow_inputs (s : State) : (s.restoreShadow).inputs = s.inputs := rfl
@[simp] theorem State.restoreShadow_trace (s : State) : (s.restoreShadow).trace = s.trace := rfl
@[simp] theorem State.restoreShadow_free (s : State) : (s.restoreShadow).free = s.free := rfl

/-! ### s.setProduct x y -/

@[simp] theorem State.setProduct_w (s : State) (x y : Byte) : (s.setProduct x y).w = s.w := rfl
@[simp] theorem State.setProduct_status (s : State) (x y : Byte) : (s.setProduct x y).status = s.status := rfl
@[simp] theorem State.setProduct_bsr (s : State) (x y : Byte) : (s.setProduct x y).bsr = s.bsr := rfl
@[simp] theorem State.setProduct_fsr0 (s : State) (x y : Byte) : (s.setProduct x y).fsr0 = s.fsr0 := rfl
@[simp] theorem State.setProduct_fsr1 (s : State) (x y : Byte) : (s.setProduct x y).fsr1 = s.fsr1 := rfl
@[simp] theorem State.setProduct_fsr2 (s : State) (x y : Byte) : (s.setProduct x y).fsr2 = s.fsr2 := rfl
@[simp] theorem State.setProduct_pc (s : State) (x y : Byte) : (s.setProduct x y).pc = s.pc := rfl
@[simp] theorem State.setProduct_pcHidden (s : State) (x y : Byte) : (s.setProduct x y).pcHidden = s.pcHidden := rfl
@[simp] theorem State.setProduct_pclath (s : State) (x y : Byte) : (s.setProduct x y).pclath = s.pclath := rfl
@[simp] theorem State.setProduct_pclatu (s : State) (x y : Byte) : (s.setProduct x y).pclatu = s.pclatu := rfl
@[simp] theorem State.setProduct_stack (s : State) (x y : Byte) : (s.setProduct x y).stack = s.stack := rfl
@[simp] theorem State.setProduct_sp (s : State) (x y : Byte) : (s.setProduct x y).sp = s.sp := rfl
@[simp] theorem State.setProduct_stkovf (s : State) (x y : Byte) : (s.setProduct x y).stkovf = s.stkovf := rfl
@[simp] theorem State.setProduct_stkunf (s : State) (x y : Byte) : (s.setProduct x y).stkunf = s.stkunf := rfl
@[simp] theorem State.setProduct_prodh (s : State) (x y : Byte) : (s.setProduct x y).prodh = (BitVec.ofNat 16 (x.toNat * y.toNat)).extractLsb' 8 8 := rfl
@[simp] theorem State.setProduct_prodl (s : State) (x y : Byte) : (s.setProduct x y).prodl = (BitVec.ofNat 16 (x.toNat * y.toNat)).extractLsb' 0 8 := rfl
@[simp] theorem State.setProduct_tblptr (s : State) (x y : Byte) : (s.setProduct x y).tblptr = s.tblptr := rfl
@[simp] theorem State.setProduct_tablat (s : State) (x y : Byte) : (s.setProduct x y).tablat = s.tablat := rfl
@[simp] theorem State.setProduct_ws (s : State) (x y : Byte) : (s.setProduct x y).ws = s.ws := rfl
@[simp] theorem State.setProduct_statuss (s : State) (x y : Byte) : (s.setProduct x y).statuss = s.statuss := rfl
@[simp] theorem State.setProduct_bsrs (s : State) (x y : Byte) : (s.setProduct x y).bsrs = s.bsrs := rfl
@[simp] theorem State.setProduct_ram (s : State) (x y : Byte) : (s.setProduct x y).ram = s.ram := rfl
@[simp] theorem State.setProduct_pm (s : State) (x y : Byte) : (s.setProduct x y).pm = s.pm := rfl
@[simp] theorem State.setProduct_gieh (s : State) (x y : Byte) : (s.setProduct x y).gieh = s.gieh := rfl
@[simp] theorem State.setProduct_giel (s : State) (x y : Byte) : (s.setProduct x y).giel = s.giel := rfl
@[simp] theorem State.setProduct_run (s : State) (x y : Byte) : (s.setProduct x y).run = s.run := rfl
@[simp] theorem State.setProduct_stackReset (s : State) (x y : Byte) : (s.setProduct x y).stackReset = s.stackReset := rfl
@[simp] theorem State.setProduct_prefetch (s : State) (x y : Byte) : (s.setProduct x y).prefetch = s.prefetch := rfl
@[simp] theorem State.setProduct_dev (s : State) (x y : Byte) : (s.setProduct x y).dev = s.dev := rfl
@[simp] theorem State.setProduct_env (s : State) (x y : Byte) : (s.setProduct x y).env = s.env := rfl
@[simp] theorem State.setProduct_inputs (s : State) (x y : Byte) : (s.setProduct x y).inputs = s.inputs := rfl
@[simp] theorem State.setProduct_trace (s : State) (x y : Byte) : (s.setProduct x y).trace = s.trace := rfl
@[simp] theorem State.setProduct_free (s : State) (x y : Byte) : (s.setProduct x y).free = s.free := rfl

/-! ### s.setTblptr t -/

@[simp] theorem State.setTblptr_w (s : State) (t : ProgAddr) : (s.setTblptr t).w = s.w := rfl
@[simp] theorem State.setTblptr_status (s : State) (t : ProgAddr) : (s.setTblptr t).status = s.status := rfl
@[simp] theorem State.setTblptr_bsr (s : State) (t : ProgAddr) : (s.setTblptr t).bsr = s.bsr := rfl
@[simp] theorem State.setTblptr_fsr0 (s : State) (t : ProgAddr) : (s.setTblptr t).fsr0 = s.fsr0 := rfl
@[simp] theorem State.setTblptr_fsr1 (s : State) (t : ProgAddr) : (s.setTblptr t).fsr1 = s.fsr1 := rfl
@[simp] theorem State.setTblptr_fsr2 (s : State) (t : ProgAddr) : (s.setTblptr t).fsr2 = s.fsr2 := rfl
@[simp] theorem State.setTblptr_pc (s : State) (t : ProgAddr) : (s.setTblptr t).pc = s.pc := rfl
@[simp] theorem State.setTblptr_pcHidden (s : State) (t : ProgAddr) : (s.setTblptr t).pcHidden = s.pcHidden := rfl
@[simp] theorem State.setTblptr_pclath (s : State) (t : ProgAddr) : (s.setTblptr t).pclath = s.pclath := rfl
@[simp] theorem State.setTblptr_pclatu (s : State) (t : ProgAddr) : (s.setTblptr t).pclatu = s.pclatu := rfl
@[simp] theorem State.setTblptr_stack (s : State) (t : ProgAddr) : (s.setTblptr t).stack = s.stack := rfl
@[simp] theorem State.setTblptr_sp (s : State) (t : ProgAddr) : (s.setTblptr t).sp = s.sp := rfl
@[simp] theorem State.setTblptr_stkovf (s : State) (t : ProgAddr) : (s.setTblptr t).stkovf = s.stkovf := rfl
@[simp] theorem State.setTblptr_stkunf (s : State) (t : ProgAddr) : (s.setTblptr t).stkunf = s.stkunf := rfl
@[simp] theorem State.setTblptr_prodh (s : State) (t : ProgAddr) : (s.setTblptr t).prodh = s.prodh := rfl
@[simp] theorem State.setTblptr_prodl (s : State) (t : ProgAddr) : (s.setTblptr t).prodl = s.prodl := rfl
@[simp] theorem State.setTblptr_tblptr (s : State) (t : ProgAddr) : (s.setTblptr t).tblptr = t := rfl
@[simp] theorem State.setTblptr_tablat (s : State) (t : ProgAddr) : (s.setTblptr t).tablat = s.tablat := rfl
@[simp] theorem State.setTblptr_ws (s : State) (t : ProgAddr) : (s.setTblptr t).ws = s.ws := rfl
@[simp] theorem State.setTblptr_statuss (s : State) (t : ProgAddr) : (s.setTblptr t).statuss = s.statuss := rfl
@[simp] theorem State.setTblptr_bsrs (s : State) (t : ProgAddr) : (s.setTblptr t).bsrs = s.bsrs := rfl
@[simp] theorem State.setTblptr_ram (s : State) (t : ProgAddr) : (s.setTblptr t).ram = s.ram := rfl
@[simp] theorem State.setTblptr_pm (s : State) (t : ProgAddr) : (s.setTblptr t).pm = s.pm := rfl
@[simp] theorem State.setTblptr_gieh (s : State) (t : ProgAddr) : (s.setTblptr t).gieh = s.gieh := rfl
@[simp] theorem State.setTblptr_giel (s : State) (t : ProgAddr) : (s.setTblptr t).giel = s.giel := rfl
@[simp] theorem State.setTblptr_run (s : State) (t : ProgAddr) : (s.setTblptr t).run = s.run := rfl
@[simp] theorem State.setTblptr_stackReset (s : State) (t : ProgAddr) : (s.setTblptr t).stackReset = s.stackReset := rfl
@[simp] theorem State.setTblptr_prefetch (s : State) (t : ProgAddr) : (s.setTblptr t).prefetch = s.prefetch := rfl
@[simp] theorem State.setTblptr_dev (s : State) (t : ProgAddr) : (s.setTblptr t).dev = s.dev := rfl
@[simp] theorem State.setTblptr_env (s : State) (t : ProgAddr) : (s.setTblptr t).env = s.env := rfl
@[simp] theorem State.setTblptr_inputs (s : State) (t : ProgAddr) : (s.setTblptr t).inputs = s.inputs := rfl
@[simp] theorem State.setTblptr_trace (s : State) (t : ProgAddr) : (s.setTblptr t).trace = s.trace := rfl
@[simp] theorem State.setTblptr_free (s : State) (t : ProgAddr) : (s.setTblptr t).free = s.free := rfl

/-! ### s.advance n -/

@[simp] theorem State.advance_w (s : State) (n : Nat) : (s.advance n).w = s.w := rfl
@[simp] theorem State.advance_status (s : State) (n : Nat) : (s.advance n).status = s.status := rfl
@[simp] theorem State.advance_bsr (s : State) (n : Nat) : (s.advance n).bsr = s.bsr := rfl
@[simp] theorem State.advance_fsr0 (s : State) (n : Nat) : (s.advance n).fsr0 = s.fsr0 := rfl
@[simp] theorem State.advance_fsr1 (s : State) (n : Nat) : (s.advance n).fsr1 = s.fsr1 := rfl
@[simp] theorem State.advance_fsr2 (s : State) (n : Nat) : (s.advance n).fsr2 = s.fsr2 := rfl
@[simp] theorem State.advance_pc (s : State) (n : Nat) : (s.advance n).pc = evenTarget (s.pc + BitVec.ofNat 21 (2 * n)) := rfl
@[simp] theorem State.advance_pcHidden (s : State) (n : Nat) : (s.advance n).pcHidden = s.pcHidden := rfl
@[simp] theorem State.advance_pclath (s : State) (n : Nat) : (s.advance n).pclath = s.pclath := rfl
@[simp] theorem State.advance_pclatu (s : State) (n : Nat) : (s.advance n).pclatu = s.pclatu := rfl
@[simp] theorem State.advance_stack (s : State) (n : Nat) : (s.advance n).stack = s.stack := rfl
@[simp] theorem State.advance_sp (s : State) (n : Nat) : (s.advance n).sp = s.sp := rfl
@[simp] theorem State.advance_stkovf (s : State) (n : Nat) : (s.advance n).stkovf = s.stkovf := rfl
@[simp] theorem State.advance_stkunf (s : State) (n : Nat) : (s.advance n).stkunf = s.stkunf := rfl
@[simp] theorem State.advance_prodh (s : State) (n : Nat) : (s.advance n).prodh = s.prodh := rfl
@[simp] theorem State.advance_prodl (s : State) (n : Nat) : (s.advance n).prodl = s.prodl := rfl
@[simp] theorem State.advance_tblptr (s : State) (n : Nat) : (s.advance n).tblptr = s.tblptr := rfl
@[simp] theorem State.advance_tablat (s : State) (n : Nat) : (s.advance n).tablat = s.tablat := rfl
@[simp] theorem State.advance_ws (s : State) (n : Nat) : (s.advance n).ws = s.ws := rfl
@[simp] theorem State.advance_statuss (s : State) (n : Nat) : (s.advance n).statuss = s.statuss := rfl
@[simp] theorem State.advance_bsrs (s : State) (n : Nat) : (s.advance n).bsrs = s.bsrs := rfl
@[simp] theorem State.advance_ram (s : State) (n : Nat) : (s.advance n).ram = s.ram := rfl
@[simp] theorem State.advance_pm (s : State) (n : Nat) : (s.advance n).pm = s.pm := rfl
@[simp] theorem State.advance_gieh (s : State) (n : Nat) : (s.advance n).gieh = s.gieh := rfl
@[simp] theorem State.advance_giel (s : State) (n : Nat) : (s.advance n).giel = s.giel := rfl
@[simp] theorem State.advance_run (s : State) (n : Nat) : (s.advance n).run = s.run := rfl
@[simp] theorem State.advance_stackReset (s : State) (n : Nat) : (s.advance n).stackReset = s.stackReset := rfl
@[simp] theorem State.advance_prefetch (s : State) (n : Nat) : (s.advance n).prefetch = none := rfl
@[simp] theorem State.advance_dev (s : State) (n : Nat) : (s.advance n).dev = s.dev := rfl
@[simp] theorem State.advance_env (s : State) (n : Nat) : (s.advance n).env = s.env := rfl
@[simp] theorem State.advance_inputs (s : State) (n : Nat) : (s.advance n).inputs = s.inputs := rfl
@[simp] theorem State.advance_trace (s : State) (n : Nat) : (s.advance n).trace = s.trace := rfl
@[simp] theorem State.advance_free (s : State) (n : Nat) : (s.advance n).free = s.free := rfl

/-! ### s.setFsr n v -/

@[simp] theorem State.setFsr_w (s : State) (n : Fsr) (v : DataAddr) : (s.setFsr n v).w = s.w := by cases n <;> rfl
@[simp] theorem State.setFsr_status (s : State) (n : Fsr) (v : DataAddr) : (s.setFsr n v).status = s.status := by cases n <;> rfl
@[simp] theorem State.setFsr_bsr (s : State) (n : Fsr) (v : DataAddr) : (s.setFsr n v).bsr = s.bsr := by cases n <;> rfl
@[simp] theorem State.setFsr_pc (s : State) (n : Fsr) (v : DataAddr) : (s.setFsr n v).pc = s.pc := by cases n <;> rfl
@[simp] theorem State.setFsr_pcHidden (s : State) (n : Fsr) (v : DataAddr) : (s.setFsr n v).pcHidden = s.pcHidden := by cases n <;> rfl
@[simp] theorem State.setFsr_pclath (s : State) (n : Fsr) (v : DataAddr) : (s.setFsr n v).pclath = s.pclath := by cases n <;> rfl
@[simp] theorem State.setFsr_pclatu (s : State) (n : Fsr) (v : DataAddr) : (s.setFsr n v).pclatu = s.pclatu := by cases n <;> rfl
@[simp] theorem State.setFsr_stack (s : State) (n : Fsr) (v : DataAddr) : (s.setFsr n v).stack = s.stack := by cases n <;> rfl
@[simp] theorem State.setFsr_sp (s : State) (n : Fsr) (v : DataAddr) : (s.setFsr n v).sp = s.sp := by cases n <;> rfl
@[simp] theorem State.setFsr_stkovf (s : State) (n : Fsr) (v : DataAddr) : (s.setFsr n v).stkovf = s.stkovf := by cases n <;> rfl
@[simp] theorem State.setFsr_stkunf (s : State) (n : Fsr) (v : DataAddr) : (s.setFsr n v).stkunf = s.stkunf := by cases n <;> rfl
@[simp] theorem State.setFsr_prodh (s : State) (n : Fsr) (v : DataAddr) : (s.setFsr n v).prodh = s.prodh := by cases n <;> rfl
@[simp] theorem State.setFsr_prodl (s : State) (n : Fsr) (v : DataAddr) : (s.setFsr n v).prodl = s.prodl := by cases n <;> rfl
@[simp] theorem State.setFsr_tblptr (s : State) (n : Fsr) (v : DataAddr) : (s.setFsr n v).tblptr = s.tblptr := by cases n <;> rfl
@[simp] theorem State.setFsr_tablat (s : State) (n : Fsr) (v : DataAddr) : (s.setFsr n v).tablat = s.tablat := by cases n <;> rfl
@[simp] theorem State.setFsr_ws (s : State) (n : Fsr) (v : DataAddr) : (s.setFsr n v).ws = s.ws := by cases n <;> rfl
@[simp] theorem State.setFsr_statuss (s : State) (n : Fsr) (v : DataAddr) : (s.setFsr n v).statuss = s.statuss := by cases n <;> rfl
@[simp] theorem State.setFsr_bsrs (s : State) (n : Fsr) (v : DataAddr) : (s.setFsr n v).bsrs = s.bsrs := by cases n <;> rfl
@[simp] theorem State.setFsr_ram (s : State) (n : Fsr) (v : DataAddr) : (s.setFsr n v).ram = s.ram := by cases n <;> rfl
@[simp] theorem State.setFsr_pm (s : State) (n : Fsr) (v : DataAddr) : (s.setFsr n v).pm = s.pm := by cases n <;> rfl
@[simp] theorem State.setFsr_gieh (s : State) (n : Fsr) (v : DataAddr) : (s.setFsr n v).gieh = s.gieh := by cases n <;> rfl
@[simp] theorem State.setFsr_giel (s : State) (n : Fsr) (v : DataAddr) : (s.setFsr n v).giel = s.giel := by cases n <;> rfl
@[simp] theorem State.setFsr_run (s : State) (n : Fsr) (v : DataAddr) : (s.setFsr n v).run = s.run := by cases n <;> rfl
@[simp] theorem State.setFsr_stackReset (s : State) (n : Fsr) (v : DataAddr) : (s.setFsr n v).stackReset = s.stackReset := by cases n <;> rfl
@[simp] theorem State.setFsr_prefetch (s : State) (n : Fsr) (v : DataAddr) : (s.setFsr n v).prefetch = s.prefetch := by cases n <;> rfl
@[simp] theorem State.setFsr_dev (s : State) (n : Fsr) (v : DataAddr) : (s.setFsr n v).dev = s.dev := by cases n <;> rfl
@[simp] theorem State.setFsr_env (s : State) (n : Fsr) (v : DataAddr) : (s.setFsr n v).env = s.env := by cases n <;> rfl
@[simp] theorem State.setFsr_inputs (s : State) (n : Fsr) (v : DataAddr) : (s.setFsr n v).inputs = s.inputs := by cases n <;> rfl
@[simp] theorem State.setFsr_trace (s : State) (n : Fsr) (v : DataAddr) : (s.setFsr n v).trace = s.trace := by cases n <;> rfl
@[simp] theorem State.setFsr_free (s : State) (n : Fsr) (v : DataAddr) : (s.setFsr n v).free = s.free := by cases n <;> rfl

/-! ### s.maskLevel l -/

@[simp] theorem State.maskLevel_w (s : State) (l : IrqLevel) : (s.maskLevel l).w = s.w := by cases l <;> rfl
@[simp] theorem State.maskLevel_status (s : State) (l : IrqLevel) : (s.maskLevel l).status = s.status := by cases l <;> rfl
@[simp] theorem State.maskLevel_bsr (s : State) (l : IrqLevel) : (s.maskLevel l).bsr = s.bsr := by cases l <;> rfl
@[simp] theorem State.maskLevel_fsr0 (s : State) (l : IrqLevel) : (s.maskLevel l).fsr0 = s.fsr0 := by cases l <;> rfl
@[simp] theorem State.maskLevel_fsr1 (s : State) (l : IrqLevel) : (s.maskLevel l).fsr1 = s.fsr1 := by cases l <;> rfl
@[simp] theorem State.maskLevel_fsr2 (s : State) (l : IrqLevel) : (s.maskLevel l).fsr2 = s.fsr2 := by cases l <;> rfl
@[simp] theorem State.maskLevel_pc (s : State) (l : IrqLevel) : (s.maskLevel l).pc = s.pc := by cases l <;> rfl
@[simp] theorem State.maskLevel_pcHidden (s : State) (l : IrqLevel) : (s.maskLevel l).pcHidden = s.pcHidden := by cases l <;> rfl
@[simp] theorem State.maskLevel_pclath (s : State) (l : IrqLevel) : (s.maskLevel l).pclath = s.pclath := by cases l <;> rfl
@[simp] theorem State.maskLevel_pclatu (s : State) (l : IrqLevel) : (s.maskLevel l).pclatu = s.pclatu := by cases l <;> rfl
@[simp] theorem State.maskLevel_stack (s : State) (l : IrqLevel) : (s.maskLevel l).stack = s.stack := by cases l <;> rfl
@[simp] theorem State.maskLevel_sp (s : State) (l : IrqLevel) : (s.maskLevel l).sp = s.sp := by cases l <;> rfl
@[simp] theorem State.maskLevel_stkovf (s : State) (l : IrqLevel) : (s.maskLevel l).stkovf = s.stkovf := by cases l <;> rfl
@[simp] theorem State.maskLevel_stkunf (s : State) (l : IrqLevel) : (s.maskLevel l).stkunf = s.stkunf := by cases l <;> rfl
@[simp] theorem State.maskLevel_prodh (s : State) (l : IrqLevel) : (s.maskLevel l).prodh = s.prodh := by cases l <;> rfl
@[simp] theorem State.maskLevel_prodl (s : State) (l : IrqLevel) : (s.maskLevel l).prodl = s.prodl := by cases l <;> rfl
@[simp] theorem State.maskLevel_tblptr (s : State) (l : IrqLevel) : (s.maskLevel l).tblptr = s.tblptr := by cases l <;> rfl
@[simp] theorem State.maskLevel_tablat (s : State) (l : IrqLevel) : (s.maskLevel l).tablat = s.tablat := by cases l <;> rfl
@[simp] theorem State.maskLevel_ws (s : State) (l : IrqLevel) : (s.maskLevel l).ws = s.ws := by cases l <;> rfl
@[simp] theorem State.maskLevel_statuss (s : State) (l : IrqLevel) : (s.maskLevel l).statuss = s.statuss := by cases l <;> rfl
@[simp] theorem State.maskLevel_bsrs (s : State) (l : IrqLevel) : (s.maskLevel l).bsrs = s.bsrs := by cases l <;> rfl
@[simp] theorem State.maskLevel_ram (s : State) (l : IrqLevel) : (s.maskLevel l).ram = s.ram := by cases l <;> rfl
@[simp] theorem State.maskLevel_pm (s : State) (l : IrqLevel) : (s.maskLevel l).pm = s.pm := by cases l <;> rfl
@[simp] theorem State.maskLevel_run (s : State) (l : IrqLevel) : (s.maskLevel l).run = s.run := by cases l <;> rfl
@[simp] theorem State.maskLevel_stackReset (s : State) (l : IrqLevel) : (s.maskLevel l).stackReset = s.stackReset := by cases l <;> rfl
@[simp] theorem State.maskLevel_prefetch (s : State) (l : IrqLevel) : (s.maskLevel l).prefetch = s.prefetch := by cases l <;> rfl
@[simp] theorem State.maskLevel_dev (s : State) (l : IrqLevel) : (s.maskLevel l).dev = s.dev := by cases l <;> rfl
@[simp] theorem State.maskLevel_env (s : State) (l : IrqLevel) : (s.maskLevel l).env = s.env := by cases l <;> rfl
@[simp] theorem State.maskLevel_inputs (s : State) (l : IrqLevel) : (s.maskLevel l).inputs = s.inputs := by cases l <;> rfl
@[simp] theorem State.maskLevel_trace (s : State) (l : IrqLevel) : (s.maskLevel l).trace = s.trace := by cases l <;> rfl
@[simp] theorem State.maskLevel_free (s : State) (l : IrqLevel) : (s.maskLevel l).free = s.free := by cases l <;> rfl

/-! ### s.setTos v -/

@[simp] theorem State.setTos_w (s : State) (v : ProgAddr) : (s.setTos v).w = s.w := by unfold State.setTos; split <;> rfl
@[simp] theorem State.setTos_status (s : State) (v : ProgAddr) : (s.setTos v).status = s.status := by unfold State.setTos; split <;> rfl
@[simp] theorem State.setTos_bsr (s : State) (v : ProgAddr) : (s.setTos v).bsr = s.bsr := by unfold State.setTos; split <;> rfl
@[simp] theorem State.setTos_fsr0 (s : State) (v : ProgAddr) : (s.setTos v).fsr0 = s.fsr0 := by unfold State.setTos; split <;> rfl
@[simp] theorem State.setTos_fsr1 (s : State) (v : ProgAddr) : (s.setTos v).fsr1 = s.fsr1 := by unfold State.setTos; split <;> rfl
@[simp] theorem State.setTos_fsr2 (s : State) (v : ProgAddr) : (s.setTos v).fsr2 = s.fsr2 := by unfold State.setTos; split <;> rfl
@[simp] theorem State.setTos_pc (s : State) (v : ProgAddr) : (s.setTos v).pc = s.pc := by unfold State.setTos; split <;> rfl
@[simp] theorem State.setTos_pcHidden (s : State) (v : ProgAddr) : (s.setTos v).pcHidden = s.pcHidden := by unfold State.setTos; split <;> rfl
@[simp] theorem State.setTos_pclath (s : State) (v : ProgAddr) : (s.setTos v).pclath = s.pclath := by unfold State.setTos; split <;> rfl
@[simp] theorem State.setTos_pclatu (s : State) (v : ProgAddr) : (s.setTos v).pclatu = s.pclatu := by unfold State.setTos; split <;> rfl
@[simp] theorem State.setTos_sp (s : State) (v : ProgAddr) : (s.setTos v).sp = s.sp := by unfold State.setTos; split <;> rfl
@[simp] theorem State.setTos_stkovf (s : State) (v : ProgAddr) : (s.setTos v).stkovf = s.stkovf := by unfold State.setTos; split <;> rfl
@[simp] theorem State.setTos_stkunf (s : State) (v : ProgAddr) : (s.setTos v).stkunf = s.stkunf := by unfold State.setTos; split <;> rfl
@[simp] theorem State.setTos_prodh (s : State) (v : ProgAddr) : (s.setTos v).prodh = s.prodh := by unfold State.setTos; split <;> rfl
@[simp] theorem State.setTos_prodl (s : State) (v : ProgAddr) : (s.setTos v).prodl = s.prodl := by unfold State.setTos; split <;> rfl
@[simp] theorem State.setTos_tblptr (s : State) (v : ProgAddr) : (s.setTos v).tblptr = s.tblptr := by unfold State.setTos; split <;> rfl
@[simp] theorem State.setTos_tablat (s : State) (v : ProgAddr) : (s.setTos v).tablat = s.tablat := by unfold State.setTos; split <;> rfl
@[simp] theorem State.setTos_ws (s : State) (v : ProgAddr) : (s.setTos v).ws = s.ws := by unfold State.setTos; split <;> rfl
@[simp] theorem State.setTos_statuss (s : State) (v : ProgAddr) : (s.setTos v).statuss = s.statuss := by unfold State.setTos; split <;> rfl
@[simp] theorem State.setTos_bsrs (s : State) (v : ProgAddr) : (s.setTos v).bsrs = s.bsrs := by unfold State.setTos; split <;> rfl
@[simp] theorem State.setTos_ram (s : State) (v : ProgAddr) : (s.setTos v).ram = s.ram := by unfold State.setTos; split <;> rfl
@[simp] theorem State.setTos_pm (s : State) (v : ProgAddr) : (s.setTos v).pm = s.pm := by unfold State.setTos; split <;> rfl
@[simp] theorem State.setTos_gieh (s : State) (v : ProgAddr) : (s.setTos v).gieh = s.gieh := by unfold State.setTos; split <;> rfl
@[simp] theorem State.setTos_giel (s : State) (v : ProgAddr) : (s.setTos v).giel = s.giel := by unfold State.setTos; split <;> rfl
@[simp] theorem State.setTos_run (s : State) (v : ProgAddr) : (s.setTos v).run = s.run := by unfold State.setTos; split <;> rfl
@[simp] theorem State.setTos_stackReset (s : State) (v : ProgAddr) : (s.setTos v).stackReset = s.stackReset := by unfold State.setTos; split <;> rfl
@[simp] theorem State.setTos_prefetch (s : State) (v : ProgAddr) : (s.setTos v).prefetch = s.prefetch := by unfold State.setTos; split <;> rfl
@[simp] theorem State.setTos_dev (s : State) (v : ProgAddr) : (s.setTos v).dev = s.dev := by unfold State.setTos; split <;> rfl
@[simp] theorem State.setTos_env (s : State) (v : ProgAddr) : (s.setTos v).env = s.env := by unfold State.setTos; split <;> rfl
@[simp] theorem State.setTos_inputs (s : State) (v : ProgAddr) : (s.setTos v).inputs = s.inputs := by unfold State.setTos; split <;> rfl
@[simp] theorem State.setTos_trace (s : State) (v : ProgAddr) : (s.setTos v).trace = s.trace := by unfold State.setTos; split <;> rfl
@[simp] theorem State.setTos_free (s : State) (v : ProgAddr) : (s.setTos v).free = s.free := by unfold State.setTos; split <;> rfl

/-! ### s.stackError e -/

@[simp] theorem State.stackError_w (s : State) (e : StackError) : (s.stackError e).w = s.w := by unfold State.stackError; split <;> rfl
@[simp] theorem State.stackError_status (s : State) (e : StackError) : (s.stackError e).status = s.status := by unfold State.stackError; split <;> rfl
@[simp] theorem State.stackError_bsr (s : State) (e : StackError) : (s.stackError e).bsr = s.bsr := by unfold State.stackError; split <;> rfl
@[simp] theorem State.stackError_fsr0 (s : State) (e : StackError) : (s.stackError e).fsr0 = s.fsr0 := by unfold State.stackError; split <;> rfl
@[simp] theorem State.stackError_fsr1 (s : State) (e : StackError) : (s.stackError e).fsr1 = s.fsr1 := by unfold State.stackError; split <;> rfl
@[simp] theorem State.stackError_fsr2 (s : State) (e : StackError) : (s.stackError e).fsr2 = s.fsr2 := by unfold State.stackError; split <;> rfl
@[simp] theorem State.stackError_pc (s : State) (e : StackError) : (s.stackError e).pc = s.pc := by unfold State.stackError; split <;> rfl
@[simp] theorem State.stackError_pcHidden (s : State) (e : StackError) : (s.stackError e).pcHidden = s.pcHidden := by unfold State.stackError; split <;> rfl
@[simp] theorem State.stackError_pclath (s : State) (e : StackError) : (s.stackError e).pclath = s.pclath := by unfold State.stackError; split <;> rfl
@[simp] theorem State.stackError_pclatu (s : State) (e : StackError) : (s.stackError e).pclatu = s.pclatu := by unfold State.stackError; split <;> rfl
@[simp] theorem State.stackError_stack (s : State) (e : StackError) : (s.stackError e).stack = s.stack := by unfold State.stackError; split <;> rfl
@[simp] theorem State.stackError_sp (s : State) (e : StackError) : (s.stackError e).sp = s.sp := by unfold State.stackError; split <;> rfl
@[simp] theorem State.stackError_stkovf (s : State) (e : StackError) : (s.stackError e).stkovf = s.stkovf := by unfold State.stackError; split <;> rfl
@[simp] theorem State.stackError_stkunf (s : State) (e : StackError) : (s.stackError e).stkunf = s.stkunf := by unfold State.stackError; split <;> rfl
@[simp] theorem State.stackError_prodh (s : State) (e : StackError) : (s.stackError e).prodh = s.prodh := by unfold State.stackError; split <;> rfl
@[simp] theorem State.stackError_prodl (s : State) (e : StackError) : (s.stackError e).prodl = s.prodl := by unfold State.stackError; split <;> rfl
@[simp] theorem State.stackError_tblptr (s : State) (e : StackError) : (s.stackError e).tblptr = s.tblptr := by unfold State.stackError; split <;> rfl
@[simp] theorem State.stackError_tablat (s : State) (e : StackError) : (s.stackError e).tablat = s.tablat := by unfold State.stackError; split <;> rfl
@[simp] theorem State.stackError_ws (s : State) (e : StackError) : (s.stackError e).ws = s.ws := by unfold State.stackError; split <;> rfl
@[simp] theorem State.stackError_statuss (s : State) (e : StackError) : (s.stackError e).statuss = s.statuss := by unfold State.stackError; split <;> rfl
@[simp] theorem State.stackError_bsrs (s : State) (e : StackError) : (s.stackError e).bsrs = s.bsrs := by unfold State.stackError; split <;> rfl
@[simp] theorem State.stackError_ram (s : State) (e : StackError) : (s.stackError e).ram = s.ram := by unfold State.stackError; split <;> rfl
@[simp] theorem State.stackError_pm (s : State) (e : StackError) : (s.stackError e).pm = s.pm := by unfold State.stackError; split <;> rfl
@[simp] theorem State.stackError_gieh (s : State) (e : StackError) : (s.stackError e).gieh = s.gieh := by unfold State.stackError; split <;> rfl
@[simp] theorem State.stackError_giel (s : State) (e : StackError) : (s.stackError e).giel = s.giel := by unfold State.stackError; split <;> rfl
@[simp] theorem State.stackError_run (s : State) (e : StackError) : (s.stackError e).run = s.run := by unfold State.stackError; split <;> rfl
@[simp] theorem State.stackError_prefetch (s : State) (e : StackError) : (s.stackError e).prefetch = s.prefetch := by unfold State.stackError; split <;> rfl
@[simp] theorem State.stackError_dev (s : State) (e : StackError) : (s.stackError e).dev = s.dev := by unfold State.stackError; split <;> rfl
@[simp] theorem State.stackError_env (s : State) (e : StackError) : (s.stackError e).env = s.env := by unfold State.stackError; split <;> rfl
@[simp] theorem State.stackError_inputs (s : State) (e : StackError) : (s.stackError e).inputs = s.inputs := by unfold State.stackError; split <;> rfl
@[simp] theorem State.stackError_trace (s : State) (e : StackError) : (s.stackError e).trace = s.trace := by unfold State.stackError; split <;> rfl
@[simp] theorem State.stackError_free (s : State) (e : StackError) : (s.stackError e).free = s.free := by unfold State.stackError; split <;> rfl

/-! ### s.push v -/

@[simp] theorem State.push_w (s : State) (v : ProgAddr) : (s.push v).w = s.w := by unfold State.push; split <;> simp
@[simp] theorem State.push_status (s : State) (v : ProgAddr) : (s.push v).status = s.status := by unfold State.push; split <;> simp
@[simp] theorem State.push_bsr (s : State) (v : ProgAddr) : (s.push v).bsr = s.bsr := by unfold State.push; split <;> simp
@[simp] theorem State.push_fsr0 (s : State) (v : ProgAddr) : (s.push v).fsr0 = s.fsr0 := by unfold State.push; split <;> simp
@[simp] theorem State.push_fsr1 (s : State) (v : ProgAddr) : (s.push v).fsr1 = s.fsr1 := by unfold State.push; split <;> simp
@[simp] theorem State.push_fsr2 (s : State) (v : ProgAddr) : (s.push v).fsr2 = s.fsr2 := by unfold State.push; split <;> simp
@[simp] theorem State.push_pc (s : State) (v : ProgAddr) : (s.push v).pc = s.pc := by unfold State.push; split <;> simp
@[simp] theorem State.push_pcHidden (s : State) (v : ProgAddr) : (s.push v).pcHidden = s.pcHidden := by unfold State.push; split <;> simp
@[simp] theorem State.push_pclath (s : State) (v : ProgAddr) : (s.push v).pclath = s.pclath := by unfold State.push; split <;> simp
@[simp] theorem State.push_pclatu (s : State) (v : ProgAddr) : (s.push v).pclatu = s.pclatu := by unfold State.push; split <;> simp
@[simp] theorem State.push_stkunf (s : State) (v : ProgAddr) : (s.push v).stkunf = s.stkunf := by unfold State.push; split <;> simp
@[simp] theorem State.push_prodh (s : State) (v : ProgAddr) : (s.push v).prodh = s.prodh := by unfold State.push; split <;> simp
@[simp] theorem State.push_prodl (s : State) (v : ProgAddr) : (s.push v).prodl = s.prodl := by unfold State.push; split <;> simp
@[simp] theorem State.push_tblptr (s : State) (v : ProgAddr) : (s.push v).tblptr = s.tblptr := by unfold State.push; split <;> simp
@[simp] theorem State.push_tablat (s : State) (v : ProgAddr) : (s.push v).tablat = s.tablat := by unfold State.push; split <;> simp
@[simp] theorem State.push_ws (s : State) (v : ProgAddr) : (s.push v).ws = s.ws := by unfold State.push; split <;> simp
@[simp] theorem State.push_statuss (s : State) (v : ProgAddr) : (s.push v).statuss = s.statuss := by unfold State.push; split <;> simp
@[simp] theorem State.push_bsrs (s : State) (v : ProgAddr) : (s.push v).bsrs = s.bsrs := by unfold State.push; split <;> simp
@[simp] theorem State.push_ram (s : State) (v : ProgAddr) : (s.push v).ram = s.ram := by unfold State.push; split <;> simp
@[simp] theorem State.push_pm (s : State) (v : ProgAddr) : (s.push v).pm = s.pm := by unfold State.push; split <;> simp
@[simp] theorem State.push_gieh (s : State) (v : ProgAddr) : (s.push v).gieh = s.gieh := by unfold State.push; split <;> simp
@[simp] theorem State.push_giel (s : State) (v : ProgAddr) : (s.push v).giel = s.giel := by unfold State.push; split <;> simp
@[simp] theorem State.push_run (s : State) (v : ProgAddr) : (s.push v).run = s.run := by unfold State.push; split <;> simp
@[simp] theorem State.push_prefetch (s : State) (v : ProgAddr) : (s.push v).prefetch = s.prefetch := by unfold State.push; split <;> simp
@[simp] theorem State.push_dev (s : State) (v : ProgAddr) : (s.push v).dev = s.dev := by unfold State.push; split <;> simp
@[simp] theorem State.push_env (s : State) (v : ProgAddr) : (s.push v).env = s.env := by unfold State.push; split <;> simp
@[simp] theorem State.push_inputs (s : State) (v : ProgAddr) : (s.push v).inputs = s.inputs := by unfold State.push; split <;> simp
@[simp] theorem State.push_trace (s : State) (v : ProgAddr) : (s.push v).trace = s.trace := by unfold State.push; split <;> simp
@[simp] theorem State.push_free (s : State) (v : ProgAddr) : (s.push v).free = s.free := by unfold State.push; split <;> simp

/-! ### s.pop.2 -/

@[simp] theorem State.pop_snd_w (s : State) : (s.pop.2).w = s.w := by unfold State.pop; split <;> simp
@[simp] theorem State.pop_snd_status (s : State) : (s.pop.2).status = s.status := by unfold State.pop; split <;> simp
@[simp] theorem State.pop_snd_bsr (s : State) : (s.pop.2).bsr = s.bsr := by unfold State.pop; split <;> simp
@[simp] theorem State.pop_snd_fsr0 (s : State) : (s.pop.2).fsr0 = s.fsr0 := by unfold State.pop; split <;> simp
@[simp] theorem State.pop_snd_fsr1 (s : State) : (s.pop.2).fsr1 = s.fsr1 := by unfold State.pop; split <;> simp
@[simp] theorem State.pop_snd_fsr2 (s : State) : (s.pop.2).fsr2 = s.fsr2 := by unfold State.pop; split <;> simp
@[simp] theorem State.pop_snd_pc (s : State) : (s.pop.2).pc = s.pc := by unfold State.pop; split <;> simp
@[simp] theorem State.pop_snd_pcHidden (s : State) : (s.pop.2).pcHidden = s.pcHidden := by unfold State.pop; split <;> simp
@[simp] theorem State.pop_snd_pclath (s : State) : (s.pop.2).pclath = s.pclath := by unfold State.pop; split <;> simp
@[simp] theorem State.pop_snd_pclatu (s : State) : (s.pop.2).pclatu = s.pclatu := by unfold State.pop; split <;> simp
@[simp] theorem State.pop_snd_stack (s : State) : (s.pop.2).stack = s.stack := by unfold State.pop; split <;> simp
@[simp] theorem State.pop_snd_stkovf (s : State) : (s.pop.2).stkovf = s.stkovf := by unfold State.pop; split <;> simp
@[simp] theorem State.pop_snd_prodh (s : State) : (s.pop.2).prodh = s.prodh := by unfold State.pop; split <;> simp
@[simp] theorem State.pop_snd_prodl (s : State) : (s.pop.2).prodl = s.prodl := by unfold State.pop; split <;> simp
@[simp] theorem State.pop_snd_tblptr (s : State) : (s.pop.2).tblptr = s.tblptr := by unfold State.pop; split <;> simp
@[simp] theorem State.pop_snd_tablat (s : State) : (s.pop.2).tablat = s.tablat := by unfold State.pop; split <;> simp
@[simp] theorem State.pop_snd_ws (s : State) : (s.pop.2).ws = s.ws := by unfold State.pop; split <;> simp
@[simp] theorem State.pop_snd_statuss (s : State) : (s.pop.2).statuss = s.statuss := by unfold State.pop; split <;> simp
@[simp] theorem State.pop_snd_bsrs (s : State) : (s.pop.2).bsrs = s.bsrs := by unfold State.pop; split <;> simp
@[simp] theorem State.pop_snd_ram (s : State) : (s.pop.2).ram = s.ram := by unfold State.pop; split <;> simp
@[simp] theorem State.pop_snd_pm (s : State) : (s.pop.2).pm = s.pm := by unfold State.pop; split <;> simp
@[simp] theorem State.pop_snd_gieh (s : State) : (s.pop.2).gieh = s.gieh := by unfold State.pop; split <;> simp
@[simp] theorem State.pop_snd_giel (s : State) : (s.pop.2).giel = s.giel := by unfold State.pop; split <;> simp
@[simp] theorem State.pop_snd_run (s : State) : (s.pop.2).run = s.run := by unfold State.pop; split <;> simp
@[simp] theorem State.pop_snd_prefetch (s : State) : (s.pop.2).prefetch = s.prefetch := by unfold State.pop; split <;> simp
@[simp] theorem State.pop_snd_dev (s : State) : (s.pop.2).dev = s.dev := by unfold State.pop; split <;> simp
@[simp] theorem State.pop_snd_env (s : State) : (s.pop.2).env = s.env := by unfold State.pop; split <;> simp
@[simp] theorem State.pop_snd_inputs (s : State) : (s.pop.2).inputs = s.inputs := by unfold State.pop; split <;> simp
@[simp] theorem State.pop_snd_trace (s : State) : (s.pop.2).trace = s.trace := by unfold State.pop; split <;> simp
@[simp] theorem State.pop_snd_free (s : State) : (s.pop.2).free = s.free := by unfold State.pop; split <;> simp

/-! ### s.skipIf b -/

@[simp] theorem State.skipIf_w (s : State) (b : Bool) : (s.skipIf b).w = s.w := by cases b <;> rfl
@[simp] theorem State.skipIf_status (s : State) (b : Bool) : (s.skipIf b).status = s.status := by cases b <;> rfl
@[simp] theorem State.skipIf_bsr (s : State) (b : Bool) : (s.skipIf b).bsr = s.bsr := by cases b <;> rfl
@[simp] theorem State.skipIf_fsr0 (s : State) (b : Bool) : (s.skipIf b).fsr0 = s.fsr0 := by cases b <;> rfl
@[simp] theorem State.skipIf_fsr1 (s : State) (b : Bool) : (s.skipIf b).fsr1 = s.fsr1 := by cases b <;> rfl
@[simp] theorem State.skipIf_fsr2 (s : State) (b : Bool) : (s.skipIf b).fsr2 = s.fsr2 := by cases b <;> rfl
@[simp] theorem State.skipIf_pcHidden (s : State) (b : Bool) : (s.skipIf b).pcHidden = s.pcHidden := by cases b <;> rfl
@[simp] theorem State.skipIf_pclath (s : State) (b : Bool) : (s.skipIf b).pclath = s.pclath := by cases b <;> rfl
@[simp] theorem State.skipIf_pclatu (s : State) (b : Bool) : (s.skipIf b).pclatu = s.pclatu := by cases b <;> rfl
@[simp] theorem State.skipIf_stack (s : State) (b : Bool) : (s.skipIf b).stack = s.stack := by cases b <;> rfl
@[simp] theorem State.skipIf_sp (s : State) (b : Bool) : (s.skipIf b).sp = s.sp := by cases b <;> rfl
@[simp] theorem State.skipIf_stkovf (s : State) (b : Bool) : (s.skipIf b).stkovf = s.stkovf := by cases b <;> rfl
@[simp] theorem State.skipIf_stkunf (s : State) (b : Bool) : (s.skipIf b).stkunf = s.stkunf := by cases b <;> rfl
@[simp] theorem State.skipIf_prodh (s : State) (b : Bool) : (s.skipIf b).prodh = s.prodh := by cases b <;> rfl
@[simp] theorem State.skipIf_prodl (s : State) (b : Bool) : (s.skipIf b).prodl = s.prodl := by cases b <;> rfl
@[simp] theorem State.skipIf_tblptr (s : State) (b : Bool) : (s.skipIf b).tblptr = s.tblptr := by cases b <;> rfl
@[simp] theorem State.skipIf_tablat (s : State) (b : Bool) : (s.skipIf b).tablat = s.tablat := by cases b <;> rfl
@[simp] theorem State.skipIf_ws (s : State) (b : Bool) : (s.skipIf b).ws = s.ws := by cases b <;> rfl
@[simp] theorem State.skipIf_statuss (s : State) (b : Bool) : (s.skipIf b).statuss = s.statuss := by cases b <;> rfl
@[simp] theorem State.skipIf_bsrs (s : State) (b : Bool) : (s.skipIf b).bsrs = s.bsrs := by cases b <;> rfl
@[simp] theorem State.skipIf_ram (s : State) (b : Bool) : (s.skipIf b).ram = s.ram := by cases b <;> rfl
@[simp] theorem State.skipIf_pm (s : State) (b : Bool) : (s.skipIf b).pm = s.pm := by cases b <;> rfl
@[simp] theorem State.skipIf_gieh (s : State) (b : Bool) : (s.skipIf b).gieh = s.gieh := by cases b <;> rfl
@[simp] theorem State.skipIf_giel (s : State) (b : Bool) : (s.skipIf b).giel = s.giel := by cases b <;> rfl
@[simp] theorem State.skipIf_run (s : State) (b : Bool) : (s.skipIf b).run = s.run := by cases b <;> rfl
@[simp] theorem State.skipIf_stackReset (s : State) (b : Bool) : (s.skipIf b).stackReset = s.stackReset := by cases b <;> rfl
@[simp] theorem State.skipIf_prefetch (s : State) (b : Bool) : (s.skipIf b).prefetch = s.prefetch := by cases b <;> rfl
@[simp] theorem State.skipIf_dev (s : State) (b : Bool) : (s.skipIf b).dev = s.dev := by cases b <;> rfl
@[simp] theorem State.skipIf_env (s : State) (b : Bool) : (s.skipIf b).env = s.env := by cases b <;> rfl
@[simp] theorem State.skipIf_inputs (s : State) (b : Bool) : (s.skipIf b).inputs = s.inputs := by cases b <;> rfl
@[simp] theorem State.skipIf_trace (s : State) (b : Bool) : (s.skipIf b).trace = s.trace := by cases b <;> rfl
@[simp] theorem State.skipIf_free (s : State) (b : Bool) : (s.skipIf b).free = s.free := by cases b <;> rfl

/-! ### s.branchIf b n -/

@[simp] theorem State.branchIf_w (s : State) (b : Bool) (n : Byte) : (s.branchIf b n).w = s.w := by cases b <;> rfl
@[simp] theorem State.branchIf_status (s : State) (b : Bool) (n : Byte) : (s.branchIf b n).status = s.status := by cases b <;> rfl
@[simp] theorem State.branchIf_bsr (s : State) (b : Bool) (n : Byte) : (s.branchIf b n).bsr = s.bsr := by cases b <;> rfl
@[simp] theorem State.branchIf_fsr0 (s : State) (b : Bool) (n : Byte) : (s.branchIf b n).fsr0 = s.fsr0 := by cases b <;> rfl
@[simp] theorem State.branchIf_fsr1 (s : State) (b : Bool) (n : Byte) : (s.branchIf b n).fsr1 = s.fsr1 := by cases b <;> rfl
@[simp] theorem State.branchIf_fsr2 (s : State) (b : Bool) (n : Byte) : (s.branchIf b n).fsr2 = s.fsr2 := by cases b <;> rfl
@[simp] theorem State.branchIf_pcHidden (s : State) (b : Bool) (n : Byte) : (s.branchIf b n).pcHidden = s.pcHidden := by cases b <;> rfl
@[simp] theorem State.branchIf_pclath (s : State) (b : Bool) (n : Byte) : (s.branchIf b n).pclath = s.pclath := by cases b <;> rfl
@[simp] theorem State.branchIf_pclatu (s : State) (b : Bool) (n : Byte) : (s.branchIf b n).pclatu = s.pclatu := by cases b <;> rfl
@[simp] theorem State.branchIf_stack (s : State) (b : Bool) (n : Byte) : (s.branchIf b n).stack = s.stack := by cases b <;> rfl
@[simp] theorem State.branchIf_sp (s : State) (b : Bool) (n : Byte) : (s.branchIf b n).sp = s.sp := by cases b <;> rfl
@[simp] theorem State.branchIf_stkovf (s : State) (b : Bool) (n : Byte) : (s.branchIf b n).stkovf = s.stkovf := by cases b <;> rfl
@[simp] theorem State.branchIf_stkunf (s : State) (b : Bool) (n : Byte) : (s.branchIf b n).stkunf = s.stkunf := by cases b <;> rfl
@[simp] theorem State.branchIf_prodh (s : State) (b : Bool) (n : Byte) : (s.branchIf b n).prodh = s.prodh := by cases b <;> rfl
@[simp] theorem State.branchIf_prodl (s : State) (b : Bool) (n : Byte) : (s.branchIf b n).prodl = s.prodl := by cases b <;> rfl
@[simp] theorem State.branchIf_tblptr (s : State) (b : Bool) (n : Byte) : (s.branchIf b n).tblptr = s.tblptr := by cases b <;> rfl
@[simp] theorem State.branchIf_tablat (s : State) (b : Bool) (n : Byte) : (s.branchIf b n).tablat = s.tablat := by cases b <;> rfl
@[simp] theorem State.branchIf_ws (s : State) (b : Bool) (n : Byte) : (s.branchIf b n).ws = s.ws := by cases b <;> rfl
@[simp] theorem State.branchIf_statuss (s : State) (b : Bool) (n : Byte) : (s.branchIf b n).statuss = s.statuss := by cases b <;> rfl
@[simp] theorem State.branchIf_bsrs (s : State) (b : Bool) (n : Byte) : (s.branchIf b n).bsrs = s.bsrs := by cases b <;> rfl
@[simp] theorem State.branchIf_ram (s : State) (b : Bool) (n : Byte) : (s.branchIf b n).ram = s.ram := by cases b <;> rfl
@[simp] theorem State.branchIf_pm (s : State) (b : Bool) (n : Byte) : (s.branchIf b n).pm = s.pm := by cases b <;> rfl
@[simp] theorem State.branchIf_gieh (s : State) (b : Bool) (n : Byte) : (s.branchIf b n).gieh = s.gieh := by cases b <;> rfl
@[simp] theorem State.branchIf_giel (s : State) (b : Bool) (n : Byte) : (s.branchIf b n).giel = s.giel := by cases b <;> rfl
@[simp] theorem State.branchIf_run (s : State) (b : Bool) (n : Byte) : (s.branchIf b n).run = s.run := by cases b <;> rfl
@[simp] theorem State.branchIf_stackReset (s : State) (b : Bool) (n : Byte) : (s.branchIf b n).stackReset = s.stackReset := by cases b <;> rfl
@[simp] theorem State.branchIf_prefetch (s : State) (b : Bool) (n : Byte) : (s.branchIf b n).prefetch = s.prefetch := by cases b <;> rfl
@[simp] theorem State.branchIf_dev (s : State) (b : Bool) (n : Byte) : (s.branchIf b n).dev = s.dev := by cases b <;> rfl
@[simp] theorem State.branchIf_env (s : State) (b : Bool) (n : Byte) : (s.branchIf b n).env = s.env := by cases b <;> rfl
@[simp] theorem State.branchIf_inputs (s : State) (b : Bool) (n : Byte) : (s.branchIf b n).inputs = s.inputs := by cases b <;> rfl
@[simp] theorem State.branchIf_trace (s : State) (b : Bool) (n : Byte) : (s.branchIf b n).trace = s.trace := by cases b <;> rfl
@[simp] theorem State.branchIf_free (s : State) (b : Bool) (n : Byte) : (s.branchIf b n).free = s.free := by cases b <;> rfl

/-! ### s.reenableInterrupts -/

@[simp] theorem State.reenableInterrupts_w (s : State) : (s.reenableInterrupts).w = s.w := by unfold State.reenableInterrupts; split <;> rfl
@[simp] theorem State.reenableInterrupts_status (s : State) : (s.reenableInterrupts).status = s.status := by unfold State.reenableInterrupts; split <;> rfl
@[simp] theorem State.reenableInterrupts_bsr (s : State) : (s.reenableInterrupts).bsr = s.bsr := by unfold State.reenableInterrupts; split <;> rfl
@[simp] theorem State.reenableInterrupts_fsr0 (s : State) : (s.reenableInterrupts).fsr0 = s.fsr0 := by unfold State.reenableInterrupts; split <;> rfl
@[simp] theorem State.reenableInterrupts_fsr1 (s : State) : (s.reenableInterrupts).fsr1 = s.fsr1 := by unfold State.reenableInterrupts; split <;> rfl
@[simp] theorem State.reenableInterrupts_fsr2 (s : State) : (s.reenableInterrupts).fsr2 = s.fsr2 := by unfold State.reenableInterrupts; split <;> rfl
@[simp] theorem State.reenableInterrupts_pc (s : State) : (s.reenableInterrupts).pc = s.pc := by unfold State.reenableInterrupts; split <;> rfl
@[simp] theorem State.reenableInterrupts_pcHidden (s : State) : (s.reenableInterrupts).pcHidden = s.pcHidden := by unfold State.reenableInterrupts; split <;> rfl
@[simp] theorem State.reenableInterrupts_pclath (s : State) : (s.reenableInterrupts).pclath = s.pclath := by unfold State.reenableInterrupts; split <;> rfl
@[simp] theorem State.reenableInterrupts_pclatu (s : State) : (s.reenableInterrupts).pclatu = s.pclatu := by unfold State.reenableInterrupts; split <;> rfl
@[simp] theorem State.reenableInterrupts_stack (s : State) : (s.reenableInterrupts).stack = s.stack := by unfold State.reenableInterrupts; split <;> rfl
@[simp] theorem State.reenableInterrupts_sp (s : State) : (s.reenableInterrupts).sp = s.sp := by unfold State.reenableInterrupts; split <;> rfl
@[simp] theorem State.reenableInterrupts_stkovf (s : State) : (s.reenableInterrupts).stkovf = s.stkovf := by unfold State.reenableInterrupts; split <;> rfl
@[simp] theorem State.reenableInterrupts_stkunf (s : State) : (s.reenableInterrupts).stkunf = s.stkunf := by unfold State.reenableInterrupts; split <;> rfl
@[simp] theorem State.reenableInterrupts_prodh (s : State) : (s.reenableInterrupts).prodh = s.prodh := by unfold State.reenableInterrupts; split <;> rfl
@[simp] theorem State.reenableInterrupts_prodl (s : State) : (s.reenableInterrupts).prodl = s.prodl := by unfold State.reenableInterrupts; split <;> rfl
@[simp] theorem State.reenableInterrupts_tblptr (s : State) : (s.reenableInterrupts).tblptr = s.tblptr := by unfold State.reenableInterrupts; split <;> rfl
@[simp] theorem State.reenableInterrupts_tablat (s : State) : (s.reenableInterrupts).tablat = s.tablat := by unfold State.reenableInterrupts; split <;> rfl
@[simp] theorem State.reenableInterrupts_ws (s : State) : (s.reenableInterrupts).ws = s.ws := by unfold State.reenableInterrupts; split <;> rfl
@[simp] theorem State.reenableInterrupts_statuss (s : State) : (s.reenableInterrupts).statuss = s.statuss := by unfold State.reenableInterrupts; split <;> rfl
@[simp] theorem State.reenableInterrupts_bsrs (s : State) : (s.reenableInterrupts).bsrs = s.bsrs := by unfold State.reenableInterrupts; split <;> rfl
@[simp] theorem State.reenableInterrupts_ram (s : State) : (s.reenableInterrupts).ram = s.ram := by unfold State.reenableInterrupts; split <;> rfl
@[simp] theorem State.reenableInterrupts_pm (s : State) : (s.reenableInterrupts).pm = s.pm := by unfold State.reenableInterrupts; split <;> rfl
@[simp] theorem State.reenableInterrupts_run (s : State) : (s.reenableInterrupts).run = s.run := by unfold State.reenableInterrupts; split <;> rfl
@[simp] theorem State.reenableInterrupts_stackReset (s : State) : (s.reenableInterrupts).stackReset = s.stackReset := by unfold State.reenableInterrupts; split <;> rfl
@[simp] theorem State.reenableInterrupts_prefetch (s : State) : (s.reenableInterrupts).prefetch = s.prefetch := by unfold State.reenableInterrupts; split <;> rfl
@[simp] theorem State.reenableInterrupts_dev (s : State) : (s.reenableInterrupts).dev = s.dev := by unfold State.reenableInterrupts; split <;> rfl
@[simp] theorem State.reenableInterrupts_env (s : State) : (s.reenableInterrupts).env = s.env := by unfold State.reenableInterrupts; split <;> rfl
@[simp] theorem State.reenableInterrupts_inputs (s : State) : (s.reenableInterrupts).inputs = s.inputs := by unfold State.reenableInterrupts; split <;> rfl
@[simp] theorem State.reenableInterrupts_trace (s : State) : (s.reenableInterrupts).trace = s.trace := by unfold State.reenableInterrupts; split <;> rfl
@[simp] theorem State.reenableInterrupts_free (s : State) : (s.reenableInterrupts).free = s.free := by unfold State.reenableInterrupts; split <;> rfl

/-! ### (s.periphRead t).2 -/

@[simp] theorem State.periphRead_snd_w (s : State) (t : DataAddr) : (s.periphRead t).2.w = s.w := by unfold State.periphRead; split <;> rfl
@[simp] theorem State.periphRead_snd_status (s : State) (t : DataAddr) : (s.periphRead t).2.status = s.status := by unfold State.periphRead; split <;> rfl
@[simp] theorem State.periphRead_snd_bsr (s : State) (t : DataAddr) : (s.periphRead t).2.bsr = s.bsr := by unfold State.periphRead; split <;> rfl
@[simp] theorem State.periphRead_snd_fsr0 (s : State) (t : DataAddr) : (s.periphRead t).2.fsr0 = s.fsr0 := by unfold State.periphRead; split <;> rfl
@[simp] theorem State.periphRead_snd_fsr1 (s : State) (t : DataAddr) : (s.periphRead t).2.fsr1 = s.fsr1 := by unfold State.periphRead; split <;> rfl
@[simp] theorem State.periphRead_snd_fsr2 (s : State) (t : DataAddr) : (s.periphRead t).2.fsr2 = s.fsr2 := by unfold State.periphRead; split <;> rfl
@[simp] theorem State.periphRead_snd_pc (s : State) (t : DataAddr) : (s.periphRead t).2.pc = s.pc := by unfold State.periphRead; split <;> rfl
@[simp] theorem State.periphRead_snd_pcHidden (s : State) (t : DataAddr) : (s.periphRead t).2.pcHidden = s.pcHidden := by unfold State.periphRead; split <;> rfl
@[simp] theorem State.periphRead_snd_pclath (s : State) (t : DataAddr) : (s.periphRead t).2.pclath = s.pclath := by unfold State.periphRead; split <;> rfl
@[simp] theorem State.periphRead_snd_pclatu (s : State) (t : DataAddr) : (s.periphRead t).2.pclatu = s.pclatu := by unfold State.periphRead; split <;> rfl
@[simp] theorem State.periphRead_snd_stack (s : State) (t : DataAddr) : (s.periphRead t).2.stack = s.stack := by unfold State.periphRead; split <;> rfl
@[simp] theorem State.periphRead_snd_sp (s : State) (t : DataAddr) : (s.periphRead t).2.sp = s.sp := by unfold State.periphRead; split <;> rfl
@[simp] theorem State.periphRead_snd_stkovf (s : State) (t : DataAddr) : (s.periphRead t).2.stkovf = s.stkovf := by unfold State.periphRead; split <;> rfl
@[simp] theorem State.periphRead_snd_stkunf (s : State) (t : DataAddr) : (s.periphRead t).2.stkunf = s.stkunf := by unfold State.periphRead; split <;> rfl
@[simp] theorem State.periphRead_snd_prodh (s : State) (t : DataAddr) : (s.periphRead t).2.prodh = s.prodh := by unfold State.periphRead; split <;> rfl
@[simp] theorem State.periphRead_snd_prodl (s : State) (t : DataAddr) : (s.periphRead t).2.prodl = s.prodl := by unfold State.periphRead; split <;> rfl
@[simp] theorem State.periphRead_snd_tblptr (s : State) (t : DataAddr) : (s.periphRead t).2.tblptr = s.tblptr := by unfold State.periphRead; split <;> rfl
@[simp] theorem State.periphRead_snd_tablat (s : State) (t : DataAddr) : (s.periphRead t).2.tablat = s.tablat := by unfold State.periphRead; split <;> rfl
@[simp] theorem State.periphRead_snd_ws (s : State) (t : DataAddr) : (s.periphRead t).2.ws = s.ws := by unfold State.periphRead; split <;> rfl
@[simp] theorem State.periphRead_snd_statuss (s : State) (t : DataAddr) : (s.periphRead t).2.statuss = s.statuss := by unfold State.periphRead; split <;> rfl
@[simp] theorem State.periphRead_snd_bsrs (s : State) (t : DataAddr) : (s.periphRead t).2.bsrs = s.bsrs := by unfold State.periphRead; split <;> rfl
@[simp] theorem State.periphRead_snd_ram (s : State) (t : DataAddr) : (s.periphRead t).2.ram = s.ram := by unfold State.periphRead; split <;> rfl
@[simp] theorem State.periphRead_snd_pm (s : State) (t : DataAddr) : (s.periphRead t).2.pm = s.pm := by unfold State.periphRead; split <;> rfl
@[simp] theorem State.periphRead_snd_gieh (s : State) (t : DataAddr) : (s.periphRead t).2.gieh = s.gieh := by unfold State.periphRead; split <;> rfl
@[simp] theorem State.periphRead_snd_giel (s : State) (t : DataAddr) : (s.periphRead t).2.giel = s.giel := by unfold State.periphRead; split <;> rfl
@[simp] theorem State.periphRead_snd_run (s : State) (t : DataAddr) : (s.periphRead t).2.run = s.run := by unfold State.periphRead; split <;> rfl
@[simp] theorem State.periphRead_snd_stackReset (s : State) (t : DataAddr) : (s.periphRead t).2.stackReset = s.stackReset := by unfold State.periphRead; split <;> rfl
@[simp] theorem State.periphRead_snd_prefetch (s : State) (t : DataAddr) : (s.periphRead t).2.prefetch = s.prefetch := by unfold State.periphRead; split <;> rfl
@[simp] theorem State.periphRead_snd_dev (s : State) (t : DataAddr) : (s.periphRead t).2.dev = s.dev := by unfold State.periphRead; split <;> rfl
@[simp] theorem State.periphRead_snd_env (s : State) (t : DataAddr) : (s.periphRead t).2.env = s.env := by unfold State.periphRead; split <;> rfl
@[simp] theorem State.periphRead_snd_inputs (s : State) (t : DataAddr) : (s.periphRead t).2.inputs = s.inputs := by unfold State.periphRead; split <;> rfl
@[simp] theorem State.periphRead_snd_trace (s : State) (t : DataAddr) : (s.periphRead t).2.trace = .sfrRead t :: s.trace := by unfold State.periphRead; split <;> rfl

/-! ### s.sample -/

@[simp] theorem State.sample_w (s : State) : (s.sample).w = s.w := by unfold State.sample; split <;> rfl
@[simp] theorem State.sample_status (s : State) : (s.sample).status = s.status := by unfold State.sample; split <;> rfl
@[simp] theorem State.sample_bsr (s : State) : (s.sample).bsr = s.bsr := by unfold State.sample; split <;> rfl
@[simp] theorem State.sample_fsr0 (s : State) : (s.sample).fsr0 = s.fsr0 := by unfold State.sample; split <;> rfl
@[simp] theorem State.sample_fsr1 (s : State) : (s.sample).fsr1 = s.fsr1 := by unfold State.sample; split <;> rfl
@[simp] theorem State.sample_fsr2 (s : State) : (s.sample).fsr2 = s.fsr2 := by unfold State.sample; split <;> rfl
@[simp] theorem State.sample_pc (s : State) : (s.sample).pc = s.pc := by unfold State.sample; split <;> rfl
@[simp] theorem State.sample_pcHidden (s : State) : (s.sample).pcHidden = s.pcHidden := by unfold State.sample; split <;> rfl
@[simp] theorem State.sample_pclath (s : State) : (s.sample).pclath = s.pclath := by unfold State.sample; split <;> rfl
@[simp] theorem State.sample_pclatu (s : State) : (s.sample).pclatu = s.pclatu := by unfold State.sample; split <;> rfl
@[simp] theorem State.sample_stack (s : State) : (s.sample).stack = s.stack := by unfold State.sample; split <;> rfl
@[simp] theorem State.sample_sp (s : State) : (s.sample).sp = s.sp := by unfold State.sample; split <;> rfl
@[simp] theorem State.sample_stkovf (s : State) : (s.sample).stkovf = s.stkovf := by unfold State.sample; split <;> rfl
@[simp] theorem State.sample_stkunf (s : State) : (s.sample).stkunf = s.stkunf := by unfold State.sample; split <;> rfl
@[simp] theorem State.sample_prodh (s : State) : (s.sample).prodh = s.prodh := by unfold State.sample; split <;> rfl
@[simp] theorem State.sample_prodl (s : State) : (s.sample).prodl = s.prodl := by unfold State.sample; split <;> rfl
@[simp] theorem State.sample_tblptr (s : State) : (s.sample).tblptr = s.tblptr := by unfold State.sample; split <;> rfl
@[simp] theorem State.sample_tablat (s : State) : (s.sample).tablat = s.tablat := by unfold State.sample; split <;> rfl
@[simp] theorem State.sample_ws (s : State) : (s.sample).ws = s.ws := by unfold State.sample; split <;> rfl
@[simp] theorem State.sample_statuss (s : State) : (s.sample).statuss = s.statuss := by unfold State.sample; split <;> rfl
@[simp] theorem State.sample_bsrs (s : State) : (s.sample).bsrs = s.bsrs := by unfold State.sample; split <;> rfl
@[simp] theorem State.sample_ram (s : State) : (s.sample).ram = s.ram := by unfold State.sample; split <;> rfl
@[simp] theorem State.sample_pm (s : State) : (s.sample).pm = s.pm := by unfold State.sample; split <;> rfl
@[simp] theorem State.sample_gieh (s : State) : (s.sample).gieh = s.gieh := by unfold State.sample; split <;> rfl
@[simp] theorem State.sample_giel (s : State) : (s.sample).giel = s.giel := by unfold State.sample; split <;> rfl
@[simp] theorem State.sample_run (s : State) : (s.sample).run = s.run := by unfold State.sample; split <;> rfl
@[simp] theorem State.sample_stackReset (s : State) : (s.sample).stackReset = s.stackReset := by unfold State.sample; split <;> rfl
@[simp] theorem State.sample_prefetch (s : State) : (s.sample).prefetch = s.prefetch := by unfold State.sample; split <;> rfl
@[simp] theorem State.sample_dev (s : State) : (s.sample).dev = s.dev := by unfold State.sample; split <;> rfl
@[simp] theorem State.sample_trace (s : State) : (s.sample).trace = s.trace := by unfold State.sample; split <;> rfl
@[simp] theorem State.sample_free (s : State) : (s.sample).free = s.free := by unfold State.sample; split <;> rfl

/-! ### FSRn after setFsr, and reads through the device -/

@[simp] theorem State.setFsr_fsr_same (s : State) (n : Fsr) (v : DataAddr) : (s.setFsr n v).fsr n = v := by
  cases n <;> rfl

theorem State.setFsr_fsr_other (s : State) (n m : Fsr) (v : DataAddr) (h : m ≠ n) :
    (s.setFsr n v).fsr m = s.fsr m := by
  cases n <;> cases m <;> first | rfl | exact absurd rfl h

/-- What an address denotes depends on the device only. -/
theorem State.place_congr (s t : State) (a : DataAddr) (h : t.dev = s.dev) : t.place a = s.place a := by
  unfold State.place
  rw [h]

end Sys2Proof.Machine
end

