-- ==== Sys2Proof/Laws/Ops.lean ====
section
/-! SUPPORT. One lemma per shared operation of Machine/Ops.lean: the memory laws, the stack, reset, interrupt entry and
return, table access. Later proofs cite these and unfold none of the operations. -/

namespace Sys2Proof.Machine

open Sys2Proof

/-! ### Memory -/

/-- A canonical memory lists nothing below its bound. -/
theorem Memory.read_below (m : Memory) (lo a : Nat) (h : Memory.wfFrom lo m = true) (ha : a < lo) :
    Memory.read m a = Memory.unlisted := by
  induction m generalizing lo with
  | nil => rfl
  | cons c rest ih =>
    obtain ⟨b, v⟩ := c
    simp only [Memory.wfFrom, Bool.and_eq_true, decide_eq_true_eq] at h
    have hb : b ≠ a := by omega
    simpa [Memory.read, hb] using ih (b + 1) h.2 (by omega)

/-- A lower bound may be lowered. -/
theorem Memory.wfFrom_mono (m : Memory) (lo lo' : Nat) (h : Memory.wfFrom lo m = true) (hl : lo' ≤ lo) :
    Memory.wfFrom lo' m = true := by
  cases m with
  | nil => rfl
  | cons c rest =>
    obtain ⟨b, v⟩ := c
    simp only [Memory.wfFrom, Bool.and_eq_true, decide_eq_true_eq] at h ⊢
    exact ⟨⟨by omega, h.1.2⟩, h.2⟩

/-- A write at or above the bound keeps the canonical form. -/
theorem Memory.wfFrom_write (m : Memory) (lo a : Nat) (v : Byte) (h : Memory.wfFrom lo m = true) (ha : lo ≤ a) :
    Memory.wfFrom lo (Memory.write m a v) = true := by
  induction m generalizing lo with
  | nil =>
    unfold Memory.write
    split
    · rfl
    · simp_all [Memory.wfFrom]
  | cons c rest ih =>
    obtain ⟨b, u⟩ := c
    simp only [Memory.wfFrom, Bool.and_eq_true, decide_eq_true_eq] at h
    unfold Memory.write
    split_ifs with h1 h2 h3 h4
    · simp only [Memory.wfFrom, Bool.and_eq_true, decide_eq_true_eq]
      exact h
    · simp only [Memory.wfFrom, Bool.and_eq_true, decide_eq_true_eq]
      exact ⟨⟨ha, by simpa using h2⟩, ⟨⟨by omega, h.1.2⟩, h.2⟩⟩
    · exact Memory.wfFrom_mono rest (b + 1) lo h.2 (by omega)
    · simp only [Memory.wfFrom, Bool.and_eq_true, decide_eq_true_eq]
      exact ⟨⟨ha, by simpa using h4⟩, by rw [h3]; exact h.2⟩
    · simp only [Memory.wfFrom, Bool.and_eq_true, decide_eq_true_eq]
      exact ⟨h.1, ih (b + 1) h.2 (by omega)⟩

/-- Every write keeps the canonical form. -/
theorem Memory.wf_write (m : Memory) (a : Nat) (v : Byte) (h : Memory.wf m = true) :
    Memory.wf (Memory.write m a v) = true :=
  Memory.wfFrom_write m 0 a v h (Nat.zero_le a)

/-- A read after a write, in a memory canonical from some bound on. -/
theorem Memory.read_write_from (m : Memory) (lo a b : Nat) (v : Byte) (h : Memory.wfFrom lo m = true) :
    Memory.read (Memory.write m a v) b = if b = a then v else Memory.read m b := by
  induction m generalizing lo with
  | nil =>
    unfold Memory.write
    split_ifs with h1 h2 h2
    · simp [Memory.read, h1]
    · simp [Memory.read]
    · simp [Memory.read, h2]
    · simp [Memory.read, Ne.symm h2]
  | cons c rest ih =>
    obtain ⟨k, u⟩ := c
    simp only [Memory.wfFrom, Bool.and_eq_true, decide_eq_true_eq] at h
    unfold Memory.write
    split_ifs with h1 h2 h3 h4 h5 h6 h7 h8 h9
    · subst h3
      have : Memory.read ((k, u) :: rest) b = Memory.unlisted :=
        Memory.read_below _ k b (by simp [Memory.wfFrom]; exact ⟨by simpa using h.1.2, h.2⟩) h1
      rw [this, h2]
    · rfl
    · subst h4; simp [Memory.read]
    · simp [Memory.read, Ne.symm h4]
    · subst h7; subst h5
      rw [Memory.read_below rest (b + 1) b h.2 (by omega), h6]
    · have : ¬ k = b := by omega
      simp [Memory.read, this]
    · subst h8; simp [Memory.read]
    · subst h5
      simp [Memory.read, Ne.symm h8]
    · subst h9
      have : ¬ k = b := by omega
      simp [Memory.read, this, ih (k + 1) h.2]
    · by_cases hk : k = b
      · simp [Memory.read, hk]
      · simp [Memory.read, hk, ih (k + 1) h.2, h9]

/-- A byte read after a byte write. -/
theorem Memory.read_write (m : Memory) (a b : Nat) (v : Byte) (h : Memory.wf m = true) :
    Memory.read (Memory.write m a v) b = if b = a then v else Memory.read m b :=
  Memory.read_write_from m 0 a b v h

/-- The data memory a reset leaves is canonical. -/
theorem Memory.wfFrom_afterResetFrom (draw k a : Nat) :
    Memory.wfFrom a (Memory.afterResetFrom draw k a) = true := by
  induction k generalizing a with
  | zero => rfl
  | succ k ih =>
    unfold Memory.afterResetFrom
    split_ifs with h
    · exact Memory.wfFrom_mono _ (a + 1) a (ih (a + 1)) (Nat.le_succ a)
    · simp [Memory.wfFrom, ih (a + 1), h]

/-- The data memory a reset leaves is canonical. -/
theorem Memory.wf_afterReset (draw : Nat) : Memory.wf (Memory.afterReset draw) = true :=
  Memory.wfFrom_afterResetFrom draw 4096 0

/-- Both memories of the reset state are canonical. -/
theorem State.reset_wf : Memory.wf State.reset.ram = true ∧ Memory.wf State.reset.pm = true := ⟨rfl, rfl⟩

/-! ### What is kept -/

theorem keepsAllBut_refl (rs : List Reg) (s : State) : keepsAllBut rs s s := by
  intro r _
  cases r <;> rfl

theorem keepsAllBut_mono (rs rs' : List Reg) (s t : State) (h : keepsAllBut rs s t) (hs : ∀ r ∈ rs, r ∈ rs') :
    keepsAllBut rs' s t := fun r hr => h r fun h' => hr (hs r h')

theorem Reg.kept_trans (r : Reg) (s t u : State) (h1 : r.kept s t) (h2 : r.kept t u) : r.kept s u := by
  cases r <;> simp_all [Reg.kept]

theorem keepsAllBut_trans (rs rs' : List Reg) (s t u : State) (h1 : keepsAllBut rs s t) (h2 : keepsAllBut rs' t u) :
    keepsAllBut (rs ++ rs') s u := by
  intro r hr
  simp only [List.mem_append, not_or] at hr
  exact Reg.kept_trans r s t u (h1 r hr.1) (h2 r hr.2)

/-! ### The stack -/

/-- What a push does with room on the stack. -/
theorem State.push_room (s : State) (v : ProgAddr) (h : s.sp.toNat < 31) :
    s.push v = { s with sp := s.sp + 1#5, stack := s.stack.setIfInBounds s.sp.toNat v } := by
  have h1 : (s.sp + 1#5).toNat = s.sp.toNat + 1 := by simp [BitVec.toNat_add]; omega
  have h2 : s.sp + 1#5 ≠ 0#5 := by intro h'; rw [h'] at h1; simp at h1
  simp [State.push, h, State.setTos, h1, h2]

/-- What a push does on a full stack. -/
theorem State.push_full (s : State) (v : ProgAddr) (h : ¬ s.sp.toNat < 31) :
    s.push v = { s with
      stack := s.stack.setIfInBounds 30 v, stkovf := true,
      stackReset := if s.dev.stvre then some .overflow else s.stackReset } := by
  have h1 : s.sp.toNat = 31 := by have := s.sp.isLt; omega
  have h2 : s.sp ≠ 0#5 := by intro h'; rw [h'] at h1; simp at h1
  simp only [State.push, if_false, State.setTos, h2, h1]
  unfold State.stackError
  by_cases hs : s.dev.stvre <;> simp [hs]

/-- The word pushed is the top word. -/
theorem State.push_tos (s : State) (v : ProgAddr) : (s.push v).tos = v := by
  by_cases h : s.sp.toNat < 31
  · have h1 : (s.sp + 1#5).toNat = s.sp.toNat + 1 := by simp [BitVec.toNat_add]; omega
    have h2 : s.sp + 1#5 ≠ 0#5 := by intro h'; rw [h'] at h1; simp at h1
    rw [State.push_room s v h]
    simp [State.tos, h1, h2, h]
  · have h1 : s.sp.toNat = 31 := by have := s.sp.isLt; omega
    have h2 : s.sp ≠ 0#5 := by intro h'; rw [h'] at h1; simp at h1
    rw [State.push_full s v h]
    simp [State.tos, h1, h2]

/-- What a pop does above the bottom of the stack. -/
theorem State.pop_some (s : State) (h : s.sp ≠ 0#5) : s.pop = (s.tos, { s with sp := s.sp - 1#5 }) := by
  simp [State.pop, h]

/-- What a pop does at SP = 0. -/
theorem State.pop_empty (s : State) (h : s.sp = 0#5) :
    s.pop = (0#21, { s with stkunf := true, stackReset := if s.dev.stvre then some .underflow else s.stackReset }) := by
  unfold State.pop State.stackError
  by_cases hs : s.dev.stvre <;> simp [h, hs]

/-- A push changes the stack, SP, STKOVF and the pending reset only. -/
theorem State.push_keeps (s : State) (v : ProgAddr) :
    keepsAllBut [.stack, .sp, .stkovf, .stackReset] s (s.push v) := by
  intro r hr
  cases r <;> simp_all [Reg.kept]
  case fsr n => cases n <;> simp [State.fsr]

/-- A pop changes SP, STKUNF and the pending reset only. -/
theorem State.pop_keeps (s : State) : keepsAllBut [.sp, .stkunf, .stackReset] s s.pop.2 := by
  intro r hr
  cases r <;> simp_all [Reg.kept]
  case fsr n => cases n <;> simp [State.fsr]

/-- The stored target is the target with bit 0 dropped. -/
theorem evenTarget_toNat (t : ProgAddr) : (evenTarget t).toNat = t.toNat / 2 * 2 := by
  have ht := t.isLt
  simp only [evenTarget, BitVec.toNat_setWidth, BitVec.toNat_append, BitVec.extractLsb'_toNat]
  simp [Nat.shiftRight_eq_div_pow, Nat.shiftLeft_eq]
  omega

/-- The pc takes even values only. -/
theorem evenTarget_even (t : ProgAddr) : (evenTarget t).getLsbD 0 = false := by
  have h := evenTarget_toNat t
  have h2 : (evenTarget t).toNat % 2 = 0 := by omega
  simpa [BitVec.getLsbD, Nat.testBit_zero] using h2

/-- An even target is stored as it is. -/
theorem evenTarget_of_even (t : ProgAddr) (h : t.getLsbD 0 = false) : evenTarget t = t := by
  have h2 : t.toNat % 2 = 0 := by
    have := h
    simp [BitVec.getLsbD, Nat.testBit_zero] at this
    exact this
  apply BitVec.eq_of_toNat_eq
  rw [evenTarget_toNat]
  omega

/-! ### Reset, interrupt entry and the return -/

/-- What a reset of any cause leaves fixed. -/
theorem State.resetBy_spec (s : State) (c : ResetCause) :
    (s.resetBy c).pc = 0#21 ∧ (s.resetBy c).pcHidden = false ∧ (s.resetBy c).sp = 0#5 ∧ (s.resetBy c).run = .running ∧
    (s.resetBy c).stackReset = none ∧ (s.resetBy c).prefetch = none ∧ (s.resetBy c).pm = s.pm ∧ (s.resetBy c).dev = s.dev ∧
    (s.resetBy c).ram = Memory.afterReset s.free := ⟨rfl, rfl, rfl, rfl, rfl, rfl, rfl, rfl, rfl⟩

/-- Everything an interrupt entry does, in terms of the push. -/
theorem State.enterInterrupt_eq (s : State) (l : IrqLevel) :
    s.enterInterrupt l = { s.push s.pc with
      ws := s.w, statuss := s.status, bsrs := s.bsr, pc := l.vector, prefetch := none,
      gieh := if l = .high then false else s.gieh, giel := if l = .low then false else s.giel } := by
  cases l <;> simp [State.enterInterrupt, State.maskLevel, State.setPc, State.saveShadow, IrqLevel.vector] <;> decide

/-- No interrupt is taken without a request and its enables. -/
theorem State.takeInterrupt_none (s : State) (h : s.irqTaken = none) : s.takeInterrupt = s := by
  simp [State.takeInterrupt, h]

theorem State.takeInterrupt_some (s : State) (l : IrqLevel) (h : s.irqTaken = some l) :
    s.takeInterrupt = s.enterInterrupt l := by
  simp [State.takeInterrupt, h]

/-- Everything a return does. -/
theorem State.returnFrom_eq (s : State) (fast : Bool) :
    s.returnFrom fast = { s.pop.2 with
      pc := evenTarget s.pop.1,
      w := if fast then s.ws else s.w, status := if fast then s.statuss else s.status, bsr := if fast then s.bsrs else s.bsr } := by
  cases fast <;> simp [State.returnFrom, State.setPc, State.restoreShadow]

/-! ### The environment's byte -/

/-- Everything a peripheral read does: the sampled byte or a free value, the output, and the count of free values. -/
theorem State.periphRead_eq (s : State) (t : DataAddr) :
    s.periphRead t = (s.env.periph.getD (Config.peripheralByte s.free),
      { s with trace := .sfrRead t :: s.trace, free := if s.env.periph.isSome then s.free else s.free + 1 }) := by
  unfold State.periphRead
  cases h : s.env.periph <;> rfl

/-! ### Program memory -/

/-- A table read changes the count of free values only. -/
theorem State.tableRead8_state (s : State) (a : ProgAddr) :
    (s.tableRead8 a).2 = if tableReadPrevented s.dev a then s.draw else s := by
  unfold State.tableRead8
  split_ifs <;> rfl

/-- A table write is always an output; it stores a byte where the device allows it, with the word at the pc saved. -/
theorem State.tableWrite8_eq (s : State) (a : ProgAddr) (v : Byte) :
    s.tableWrite8 a v =
      if tableWritable s.dev a then
        { s with pm := Memory.write s.pm a.toNat v, prefetch := some (s.pmRead16 s.pc), trace := .tableWrite a v true :: s.trace }
      else { s with trace := .tableWrite a v false :: s.trace } := rfl

/-- A table write keeps program memory canonical. -/
theorem State.tableWrite8_wf (s : State) (a : ProgAddr) (v : Byte) (h : Memory.wf s.pm = true) :
    Memory.wf (s.tableWrite8 a v).pm = true := by
  rw [State.tableWrite8_eq]
  split_ifs
  · exact Memory.wf_write s.pm a.toNat v h
  · exact h

end Sys2Proof.Machine
end

