-- ==== Sys2Proof/Laws/Operands.lean ====
section
/-! SUPPORT. One lemma per shared operation of Machine/Operands.lean and Machine/Flags.lean: what it keeps, and what it does to
the two memories. -/

namespace Sys2Proof.Machine

open Sys2Proof

/-! ### Flags -/

@[simp] theorem Status.update_nothing (x : Status) : x.update FlagUpdate.nothing = x := rfl

@[simp] theorem State.applyFlags_nothing (s : State) : s.applyFlags FlagUpdate.nothing = s := rfl

@[simp] theorem FlagUpdate.affects_nothing : FlagUpdate.nothing.affects = false := rfl

@[simp] theorem noFlags_flags (r : Byte) : (noFlags r).flags = FlagUpdate.nothing := rfl

@[simp] theorem noFlags_val (r : Byte) : (noFlags r).val = r := rfl

/-- The flags an update writes. -/
def FlagUpdate.regs (u : FlagUpdate) : List Reg :=
  (if u.n.isSome then [.flagN] else []) ++ (if u.ov.isSome then [.flagOv] else []) ++
  (if u.z.isSome then [.flagZ] else []) ++ (if u.dc.isSome then [.flagDc] else []) ++
  (if u.c.isSome then [.flagC] else [])

/-- Writing flags changes those flags only. -/
theorem State.applyFlags_keeps (s : State) (u : FlagUpdate) : keepsAllBut u.regs s (s.applyFlags u) := by
  obtain ⟨n, ov, z, dc, c⟩ := u
  intro r hr
  cases r <;> simp [Reg.kept, Status.update]
  case fsr n => cases n <;> rfl
  case flagN => cases n <;> simp_all [FlagUpdate.regs]
  case flagOv => cases ov <;> simp_all [FlagUpdate.regs]
  case flagZ => cases z <;> simp_all [FlagUpdate.regs]
  case flagDc => cases dc <;> simp_all [FlagUpdate.regs]
  case flagC => cases c <;> simp_all [FlagUpdate.regs]

/-- Writing W changes W only. -/
theorem State.setW_keeps (s : State) (v : Byte) : keepsAllBut [.w] s (s.setW v) := by
  intro r hr
  cases r <;> simp_all [Reg.kept]
  case fsr n => cases n <;> rfl

/-- Writing an FSR changes that FSR only. -/
theorem State.setFsr_keeps (s : State) (n : Fsr) (v : DataAddr) : keepsAllBut [.fsr n] s (s.setFsr n v) := by
  intro r hr
  cases r <;> simp_all [Reg.kept]
  case fsr m => exact State.setFsr_fsr_other s n m v hr

/-- Assigning the pc changes the pc only. -/
theorem State.setPc_keeps (s : State) (t : ProgAddr) : keepsAllBut [.pc] s (s.setPc t) := by
  intro r hr
  cases r <;> simp_all [Reg.kept]
  case fsr n => cases n <;> rfl

/-- A skip changes the pc only. -/
theorem State.skipIf_keeps (s : State) (b : Bool) : keepsAllBut [.pc] s (s.skipIf b) := by
  unfold State.skipIf
  split
  · exact State.setPc_keeps s _
  · exact keepsAllBut_refl _ s

/-- A skip as a condition on the pc alone. -/
theorem State.skipIf_eq (s : State) (b : Bool) :
    s.skipIf b = if b then { s with pc := evenTarget (s.pc + 2#21) } else s := rfl

/-! ### Addresses -/

@[simp] theorem State.place_setFsr (s : State) (n : Fsr) (v t : DataAddr) : (s.setFsr n v).place t = s.place t :=
  State.place_congr _ _ _ (by simp)

/-- Naming an operand changes at most the FSR that PREINC steps. -/
theorem operandBegin_keeps (t0 : DataAddr) (s : State) :
    keepsAllBut (s.fsrOf t0) s (operandBegin t0 s).2 ∧
    (operandBegin t0 s).2.ram = s.ram ∧ (operandBegin t0 s).2.pm = s.pm ∧ (operandBegin t0 s).1.named = t0 := by
  unfold operandBegin State.fsrOf
  generalize s.place t0 = p
  cases p with
  | sfr r =>
    cases r with
    | ind n m => cases m <;> simp [keepsAllBut_refl, State.setFsr_keeps]
    | _ => simp [keepsAllBut_refl]
  | _ => simp [keepsAllBut_refl]

/-- The end of an operand changes at most the FSR that POSTINC or POSTDEC steps. -/
theorem operandEnd_keeps (loc : Loc) (wrote : Bool) (s : State) :
    keepsAllBut (s.fsrOf loc.named) s (operandEnd loc wrote s) ∧
    (operandEnd loc wrote s).ram = s.ram ∧ (operandEnd loc wrote s).pm = s.pm := by
  unfold operandEnd State.fsrOf
  generalize s.place loc.named = p
  cases p with
  | sfr r =>
    cases r with
    | ind n m => cases m <;> simp only <;> (try split_ifs) <;> simp [keepsAllBut_refl, State.setFsr_keeps]
    | _ => simp [keepsAllBut_refl]
  | _ => simp [keepsAllBut_refl]

/-- Neither end of an operand changes the device. -/
@[simp] theorem operandBegin_dev (t0 : DataAddr) (s : State) : (operandBegin t0 s).2.dev = s.dev := by
  unfold operandBegin
  split <;> simp

@[simp] theorem operandEnd_dev (loc : Loc) (wrote : Bool) (s : State) : (operandEnd loc wrote s).dev = s.dev := by
  unfold operandEnd
  split <;> (try split_ifs) <;> simp

@[simp] theorem operandEnd_pc (loc : Loc) (wrote : Bool) (s : State) : (operandEnd loc wrote s).pc = s.pc := by
  unfold operandEnd
  split <;> (try split_ifs) <;> simp

@[simp] theorem operandBegin_pc (t0 : DataAddr) (s : State) : (operandBegin t0 s).2.pc = s.pc := by
  unfold operandBegin
  split <;> simp

/-! ### The access functions -/

/-- The value read does not depend on the class of the read. -/
theorem dataRead_val (readClass : Bool) (pcSeen : ProgAddr) (t : DataAddr) (s : State) :
    (dataRead readClass pcSeen t s).1 = (dataRead true pcSeen t s).1 := by
  unfold dataRead
  split <;> rfl

/-- A read changes the latches where it is a read-class read of PCL, and the outputs and the count of free values where the
environment presents the byte; nothing else. -/
theorem dataRead_keeps (u : FileUse) (pcSeen : ProgAddr) (t : DataAddr) (s : State) :
    keepsAllBut (Place.reads u (s.place t)) s (dataRead (decide (u = .read)) pcSeen t s).2 ∧
    (dataRead (decide (u = .read)) pcSeen t s).2.ram = s.ram ∧ (dataRead (decide (u = .read)) pcSeen t s).2.pm = s.pm := by
  unfold dataRead
  split
  · exact ⟨keepsAllBut_refl _ s, rfl, rfl⟩
  · rename_i h
    by_cases hu : u = .read
    · refine ⟨?_, by simp [hu], by simp [hu]⟩
      intro r hr
      simp only [h, Place.reads, hu, if_true] at hr
      cases r <;> simp_all [Reg.kept]
      case fsr n => cases n <;> simp [State.fsr]
    · simp [hu, keepsAllBut_refl]
  · exact ⟨keepsAllBut_refl _ s, rfl, rfl⟩
  · rename_i h
    refine ⟨?_, by simp, by simp⟩
    intro r hr
    simp only [h, Place.reads] at hr
    cases r <;> simp_all [Reg.kept]
    case fsr n => cases n <;> simp [State.fsr]
  · rename_i h
    refine ⟨?_, by simp, by simp⟩
    intro r hr
    simp only [h, Place.reads] at hr
    cases r <;> simp_all [Reg.kept]
    case fsr n => cases n <;> simp [State.fsr]
  · exact ⟨keepsAllBut_refl _ s, rfl, rfl⟩

/-- A write to a core register changes that register only, and no memory. -/
theorem State.writeSfr_keeps (s : State) (affects : Bool) (r : Sfr) (v : Byte) :
    keepsAllBut (if r = .status ∧ affects = true then [] else Place.writes (.sfr r)) s (s.writeSfr affects r v) ∧
    (s.writeSfr affects r v).ram = s.ram ∧ (s.writeSfr affects r v).pm = s.pm := by
  refine ⟨?_, by cases r <;> simp [State.writeSfr]; split <;> simp,
    by cases r <;> simp [State.writeSfr]; split <;> simp⟩
  intro q hq
  cases r <;> simp only [State.writeSfr, reduceCtorEq, false_and, if_false, Place.writes] at hq ⊢
  case ind => cases q <;> rfl
  case fsrh n => exact State.setFsr_keeps s n _ q hq
  case fsrl n => exact State.setFsr_keeps s n _ q hq
  case status =>
    cases affects
    · simp only [true_and, Bool.false_eq_true, if_false, Reg.flags] at hq ⊢
      cases q <;> simp_all [Reg.kept]
      case fsr n => cases n <;> rfl
    · cases q <;> rfl
  all_goals
    cases q <;> simp_all [Reg.kept]
    case fsr n => cases n <;> simp [State.fsr]

/-- A write through DataWrite changes what the place's row says, data memory at a GPR address alone, and no program
memory. -/
theorem dataWrite_keeps (affects : Bool) (t : DataAddr) (v : Byte) (s : State) :
    keepsAllBut (if s.place t = .sfr .status ∧ affects = true then [] else Place.writes (s.place t)) s (dataWrite affects t v s) ∧
    (dataWrite affects t v s).ram = (if s.place t = .gpr then Memory.write s.ram t.toNat v else s.ram) ∧
    (dataWrite affects t v s).pm = s.pm := by
  unfold dataWrite
  generalize s.place t = p
  cases p with
  | gpr => exact ⟨fun q _ => by cases q <;> rfl, by simp, rfl⟩
  | sfr r =>
    simp only [Place.sfr.injEq, reduceCtorEq, if_false]
    exact State.writeSfr_keeps s affects r v
  | unimplemented => exact ⟨keepsAllBut_refl _ s, by simp, rfl⟩
  | _ =>
    refine ⟨?_, by simp, by simp⟩
    intro q hq
    simp only [Place.writes, reduceCtorEq, false_and, if_false] at hq
    cases q <;> simp_all [Reg.kept]
    case fsr n => cases n <;> simp [State.fsr]

/-- A write keeps data memory canonical. -/
theorem dataWrite_wf (affects : Bool) (t : DataAddr) (v : Byte) (s : State) (h : Memory.wf s.ram = true) :
    Memory.wf (dataWrite affects t v s).ram = true := by
  rw [(dataWrite_keeps affects t v s).2.1]
  split_ifs
  · exact Memory.wf_write s.ram t.toNat v h
  · exact h

/-- A write assigns the pc an even value or leaves it. -/
theorem dataWrite_pc (affects : Bool) (t : DataAddr) (v : Byte) (s : State) (h : s.pc.getLsbD 0 = false) :
    (dataWrite affects t v s).pc.getLsbD 0 = false := by
  unfold dataWrite
  split
  · exact h
  · rename_i r _
    cases r <;> simp [State.writeSfr, h, evenTarget_even, -BitVec.getLsbD_eq_getElem]
    split <;> simp [h, -BitVec.getLsbD_eq_getElem]
  · simpa using h
  · simpa using h
  · exact h

end Sys2Proof.Machine
end

