-- ==== Sys2Proof/Laws/PerInstr.lean ====
section
/-! SUPPORT. The family `LengthFromFirstWord`, instruction by instruction: the first word of an encoding tells how many words
the instruction takes, and the encoding has that many (spec/30_encoding.md R130). -/

namespace Sys2Proof

/-- A two-word first word, as a number. -/
theorem isTwoWord_eq (w : Word) : isTwoWord w = decide (w.toNat / 4096 = 12 ∨ w.toNat / 1024 = 59) := by
  have hw := w.isLt
  have h1 : (w.extractLsb' 12 4 == 0xC#4) = decide (w.toNat / 4096 = 12) := by
    rw [Bool.eq_iff_iff]
    simp only [beq_iff_eq, decide_eq_true_eq, ← BitVec.toNat_inj, BitVec.extractLsb'_toNat, Nat.shiftRight_eq_div_pow]
    simp
    omega
  have h2 : (w.extractLsb' 10 6 == 0b111011#6) = decide (w.toNat / 1024 = 59) := by
    rw [Bool.eq_iff_iff]
    simp only [beq_iff_eq, decide_eq_true_eq, ← BitVec.toNat_inj, BitVec.extractLsb'_toNat, Nat.shiftRight_eq_div_pow]
    simp
    omega
  rw [isTwoWord, h1, h2]
  simp

end Sys2Proof

namespace Sys2Proof.Laws.LengthFromFirstWord

open Sys2Proof

/-- The encoding has as many words as the instruction takes, and its first word announces a second exactly when it takes
two. -/
def Statement (i : Instr) : Prop :=
  (encode i).length = i.words ∧ ∀ w1 ∈ (encode i).head?, isTwoWord w1 = decide (i.words = 2)

theorem addwf (f : Byte) (d : Dest) (a : Access) : Statement (.addwf f d a) := by
  refine ⟨rfl, ?_⟩
  intro w1 h
  cases h
  have h0 := (f).isLt
  have h1 := (d.bit).isLt
  have h2 := (a.bit).isLt
  rw [isTwoWord_eq, decide_eq_decide, encByteDA_toNat]
  simp only [Instr.words, BitVec.toNat_ofNat]
  omega

theorem addwfc (f : Byte) (d : Dest) (a : Access) : Statement (.addwfc f d a) := by
  refine ⟨rfl, ?_⟩
  intro w1 h
  cases h
  have h0 := (f).isLt
  have h1 := (d.bit).isLt
  have h2 := (a.bit).isLt
  rw [isTwoWord_eq, decide_eq_decide, encByteDA_toNat]
  simp only [Instr.words, BitVec.toNat_ofNat]
  omega

theorem andwf (f : Byte) (d : Dest) (a : Access) : Statement (.andwf f d a) := by
  refine ⟨rfl, ?_⟩
  intro w1 h
  cases h
  have h0 := (f).isLt
  have h1 := (d.bit).isLt
  have h2 := (a.bit).isLt
  rw [isTwoWord_eq, decide_eq_decide, encByteDA_toNat]
  simp only [Instr.words, BitVec.toNat_ofNat]
  omega

theorem comf (f : Byte) (d : Dest) (a : Access) : Statement (.comf f d a) := by
  refine ⟨rfl, ?_⟩
  intro w1 h
  cases h
  have h0 := (f).isLt
  have h1 := (d.bit).isLt
  have h2 := (a.bit).isLt
  rw [isTwoWord_eq, decide_eq_decide, encByteDA_toNat]
  simp only [Instr.words, BitVec.toNat_ofNat]
  omega

theorem decf (f : Byte) (d : Dest) (a : Access) : Statement (.decf f d a) := by
  refine ⟨rfl, ?_⟩
  intro w1 h
  cases h
  have h0 := (f).isLt
  have h1 := (d.bit).isLt
  have h2 := (a.bit).isLt
  rw [isTwoWord_eq, decide_eq_decide, encByteDA_toNat]
  simp only [Instr.words, BitVec.toNat_ofNat]
  omega

theorem incf (f : Byte) (d : Dest) (a : Access) : Statement (.incf f d a) := by
  refine ⟨rfl, ?_⟩
  intro w1 h
  cases h
  have h0 := (f).isLt
  have h1 := (d.bit).isLt
  have h2 := (a.bit).isLt
  rw [isTwoWord_eq, decide_eq_decide, encByteDA_toNat]
  simp only [Instr.words, BitVec.toNat_ofNat]
  omega

theorem iorwf (f : Byte) (d : Dest) (a : Access) : Statement (.iorwf f d a) := by
  refine ⟨rfl, ?_⟩
  intro w1 h
  cases h
  have h0 := (f).isLt
  have h1 := (d.bit).isLt
  have h2 := (a.bit).isLt
  rw [isTwoWord_eq, decide_eq_decide, encByteDA_toNat]
  simp only [Instr.words, BitVec.toNat_ofNat]
  omega

theorem movf (f : Byte) (d : Dest) (a : Access) : Statement (.movf f d a) := by
  refine ⟨rfl, ?_⟩
  intro w1 h
  cases h
  have h0 := (f).isLt
  have h1 := (d.bit).isLt
  have h2 := (a.bit).isLt
  rw [isTwoWord_eq, decide_eq_decide, encByteDA_toNat]
  simp only [Instr.words, BitVec.toNat_ofNat]
  omega

theorem rlcf (f : Byte) (d : Dest) (a : Access) : Statement (.rlcf f d a) := by
  refine ⟨rfl, ?_⟩
  intro w1 h
  cases h
  have h0 := (f).isLt
  have h1 := (d.bit).isLt
  have h2 := (a.bit).isLt
  rw [isTwoWord_eq, decide_eq_decide, encByteDA_toNat]
  simp only [Instr.words, BitVec.toNat_ofNat]
  omega

theorem rlncf (f : Byte) (d : Dest) (a : Access) : Statement (.rlncf f d a) := by
  refine ⟨rfl, ?_⟩
  intro w1 h
  cases h
  have h0 := (f).isLt
  have h1 := (d.bit).isLt
  have h2 := (a.bit).isLt
  rw [isTwoWord_eq, decide_eq_decide, encByteDA_toNat]
  simp only [Instr.words, BitVec.toNat_ofNat]
  omega

theorem rrcf (f : Byte) (d : Dest) (a : Access) : Statement (.rrcf f d a) := by
  refine ⟨rfl, ?_⟩
  intro w1 h
  cases h
  have h0 := (f).isLt
  have h1 := (d.bit).isLt
  have h2 := (a.bit).isLt
  rw [isTwoWord_eq, decide_eq_decide, encByteDA_toNat]
  simp only [Instr.words, BitVec.toNat_ofNat]
  omega

theorem rrncf (f : Byte) (d : Dest) (a : Access) : Statement (.rrncf f d a) := by
  refine ⟨rfl, ?_⟩
  intro w1 h
  cases h
  have h0 := (f).isLt
  have h1 := (d.bit).isLt
  have h2 := (a.bit).isLt
  rw [isTwoWord_eq, decide_eq_decide, encByteDA_toNat]
  simp only [Instr.words, BitVec.toNat_ofNat]
  omega

theorem subfwb (f : Byte) (d : Dest) (a : Access) : Statement (.subfwb f d a) := by
  refine ⟨rfl, ?_⟩
  intro w1 h
  cases h
  have h0 := (f).isLt
  have h1 := (d.bit).isLt
  have h2 := (a.bit).isLt
  rw [isTwoWord_eq, decide_eq_decide, encByteDA_toNat]
  simp only [Instr.words, BitVec.toNat_ofNat]
  omega

theorem subwf (f : Byte) (d : Dest) (a : Access) : Statement (.subwf f d a) := by
  refine ⟨rfl, ?_⟩
  intro w1 h
  cases h
  have h0 := (f).isLt
  have h1 := (d.bit).isLt
  have h2 := (a.bit).isLt
  rw [isTwoWord_eq, decide_eq_decide, encByteDA_toNat]
  simp only [Instr.words, BitVec.toNat_ofNat]
  omega

theorem subwfb (f : Byte) (d : Dest) (a : Access) : Statement (.subwfb f d a) := by
  refine ⟨rfl, ?_⟩
  intro w1 h
  cases h
  have h0 := (f).isLt
  have h1 := (d.bit).isLt
  have h2 := (a.bit).isLt
  rw [isTwoWord_eq, decide_eq_decide, encByteDA_toNat]
  simp only [Instr.words, BitVec.toNat_ofNat]
  omega

theorem swapf (f : Byte) (d : Dest) (a : Access) : Statement (.swapf f d a) := by
  refine ⟨rfl, ?_⟩
  intro w1 h
  cases h
  have h0 := (f).isLt
  have h1 := (d.bit).isLt
  have h2 := (a.bit).isLt
  rw [isTwoWord_eq, decide_eq_decide, encByteDA_toNat]
  simp only [Instr.words, BitVec.toNat_ofNat]
  omega

theorem xorwf (f : Byte) (d : Dest) (a : Access) : Statement (.xorwf f d a) := by
  refine ⟨rfl, ?_⟩
  intro w1 h
  cases h
  have h0 := (f).isLt
  have h1 := (d.bit).isLt
  have h2 := (a.bit).isLt
  rw [isTwoWord_eq, decide_eq_decide, encByteDA_toNat]
  simp only [Instr.words, BitVec.toNat_ofNat]
  omega

theorem movwf (f : Byte) (a : Access) : Statement (.movwf f a) := by
  refine ⟨rfl, ?_⟩
  intro w1 h
  cases h
  have h0 := (f).isLt
  have h1 := (a.bit).isLt
  rw [isTwoWord_eq, decide_eq_decide, encByteA_toNat]
  simp only [Instr.words, BitVec.toNat_ofNat]
  omega

theorem clrf (f : Byte) (a : Access) : Statement (.clrf f a) := by
  refine ⟨rfl, ?_⟩
  intro w1 h
  cases h
  have h0 := (f).isLt
  have h1 := (a.bit).isLt
  rw [isTwoWord_eq, decide_eq_decide, encByteA_toNat]
  simp only [Instr.words, BitVec.toNat_ofNat]
  omega

theorem negf (f : Byte) (a : Access) : Statement (.negf f a) := by
  refine ⟨rfl, ?_⟩
  intro w1 h
  cases h
  have h0 := (f).isLt
  have h1 := (a.bit).isLt
  rw [isTwoWord_eq, decide_eq_decide, encByteA_toNat]
  simp only [Instr.words, BitVec.toNat_ofNat]
  omega

theorem setf (f : Byte) (a : Access) : Statement (.setf f a) := by
  refine ⟨rfl, ?_⟩
  intro w1 h
  cases h
  have h0 := (f).isLt
  have h1 := (a.bit).isLt
  rw [isTwoWord_eq, decide_eq_decide, encByteA_toNat]
  simp only [Instr.words, BitVec.toNat_ofNat]
  omega

theorem decfsz (f : Byte) (d : Dest) (a : Access) : Statement (.decfsz f d a) := by
  refine ⟨rfl, ?_⟩
  intro w1 h
  cases h
  have h0 := (f).isLt
  have h1 := (d.bit).isLt
  have h2 := (a.bit).isLt
  rw [isTwoWord_eq, decide_eq_decide, encByteDA_toNat]
  simp only [Instr.words, BitVec.toNat_ofNat]
  omega

theorem dcfsnz (f : Byte) (d : Dest) (a : Access) : Statement (.dcfsnz f d a) := by
  refine ⟨rfl, ?_⟩
  intro w1 h
  cases h
  have h0 := (f).isLt
  have h1 := (d.bit).isLt
  have h2 := (a.bit).isLt
  rw [isTwoWord_eq, decide_eq_decide, encByteDA_toNat]
  simp only [Instr.words, BitVec.toNat_ofNat]
  omega

theorem incfsz (f : Byte) (d : Dest) (a : Access) : Statement (.incfsz f d a) := by
  refine ⟨rfl, ?_⟩
  intro w1 h
  cases h
  have h0 := (f).isLt
  have h1 := (d.bit).isLt
  have h2 := (a.bit).isLt
  rw [isTwoWord_eq, decide_eq_decide, encByteDA_toNat]
  simp only [Instr.words, BitVec.toNat_ofNat]
  omega

theorem icfsnz (f : Byte) (d : Dest) (a : Access) : Statement (.icfsnz f d a) := by
  refine ⟨rfl, ?_⟩
  intro w1 h
  cases h
  have h0 := (f).isLt
  have h1 := (d.bit).isLt
  have h2 := (a.bit).isLt
  rw [isTwoWord_eq, decide_eq_decide, encByteDA_toNat]
  simp only [Instr.words, BitVec.toNat_ofNat]
  omega

theorem cpfseq (f : Byte) (a : Access) : Statement (.cpfseq f a) := by
  refine ⟨rfl, ?_⟩
  intro w1 h
  cases h
  have h0 := (f).isLt
  have h1 := (a.bit).isLt
  rw [isTwoWord_eq, decide_eq_decide, encByteA_toNat]
  simp only [Instr.words, BitVec.toNat_ofNat]
  omega

theorem cpfsgt (f : Byte) (a : Access) : Statement (.cpfsgt f a) := by
  refine ⟨rfl, ?_⟩
  intro w1 h
  cases h
  have h0 := (f).isLt
  have h1 := (a.bit).isLt
  rw [isTwoWord_eq, decide_eq_decide, encByteA_toNat]
  simp only [Instr.words, BitVec.toNat_ofNat]
  omega

theorem cpfslt (f : Byte) (a : Access) : Statement (.cpfslt f a) := by
  refine ⟨rfl, ?_⟩
  intro w1 h
  cases h
  have h0 := (f).isLt
  have h1 := (a.bit).isLt
  rw [isTwoWord_eq, decide_eq_decide, encByteA_toNat]
  simp only [Instr.words, BitVec.toNat_ofNat]
  omega

theorem tstfsz (f : Byte) (a : Access) : Statement (.tstfsz f a) := by
  refine ⟨rfl, ?_⟩
  intro w1 h
  cases h
  have h0 := (f).isLt
  have h1 := (a.bit).isLt
  rw [isTwoWord_eq, decide_eq_decide, encByteA_toNat]
  simp only [Instr.words, BitVec.toNat_ofNat]
  omega

theorem mulwf (f : Byte) (a : Access) : Statement (.mulwf f a) := by
  refine ⟨rfl, ?_⟩
  intro w1 h
  cases h
  have h0 := (f).isLt
  have h1 := (a.bit).isLt
  rw [isTwoWord_eq, decide_eq_decide, encByteA_toNat]
  simp only [Instr.words, BitVec.toNat_ofNat]
  omega

theorem movff (f g : DataAddr) : Statement (.movff f g) := by
  refine ⟨rfl, ?_⟩
  intro w1 h
  cases h
  have h0 := (f).isLt
  rw [isTwoWord_eq, encLow12_toNat]
  simp only [Instr.words, BitVec.toNat_ofNat, decide_true, decide_eq_true_eq]
  omega

theorem bcf (f : Byte) (b : BitVec 3) (a : Access) : Statement (.bcf f b a) := by
  refine ⟨rfl, ?_⟩
  intro w1 h
  cases h
  have h0 := (f).isLt
  have h1 := (b).isLt
  have h2 := (a.bit).isLt
  rw [isTwoWord_eq, decide_eq_decide, encBit_toNat]
  simp only [Instr.words, BitVec.toNat_ofNat]
  omega

theorem bsf (f : Byte) (b : BitVec 3) (a : Access) : Statement (.bsf f b a) := by
  refine ⟨rfl, ?_⟩
  intro w1 h
  cases h
  have h0 := (f).isLt
  have h1 := (b).isLt
  have h2 := (a.bit).isLt
  rw [isTwoWord_eq, decide_eq_decide, encBit_toNat]
  simp only [Instr.words, BitVec.toNat_ofNat]
  omega

theorem btg (f : Byte) (b : BitVec 3) (a : Access) : Statement (.btg f b a) := by
  refine ⟨rfl, ?_⟩
  intro w1 h
  cases h
  have h0 := (f).isLt
  have h1 := (b).isLt
  have h2 := (a.bit).isLt
  rw [isTwoWord_eq, decide_eq_decide, encBit_toNat]
  simp only [Instr.words, BitVec.toNat_ofNat]
  omega

theorem btfsc (f : Byte) (b : BitVec 3) (a : Access) : Statement (.btfsc f b a) := by
  refine ⟨rfl, ?_⟩
  intro w1 h
  cases h
  have h0 := (f).isLt
  have h1 := (b).isLt
  have h2 := (a.bit).isLt
  rw [isTwoWord_eq, decide_eq_decide, encBit_toNat]
  simp only [Instr.words, BitVec.toNat_ofNat]
  omega

theorem btfss (f : Byte) (b : BitVec 3) (a : Access) : Statement (.btfss f b a) := by
  refine ⟨rfl, ?_⟩
  intro w1 h
  cases h
  have h0 := (f).isLt
  have h1 := (b).isLt
  have h2 := (a.bit).isLt
  rw [isTwoWord_eq, decide_eq_decide, encBit_toNat]
  simp only [Instr.words, BitVec.toNat_ofNat]
  omega

theorem addlw (k : Byte) : Statement (.addlw k) := by
  refine ⟨rfl, ?_⟩
  intro w1 h
  cases h
  have h0 := (k).isLt
  rw [isTwoWord_eq, decide_eq_decide, encLit_toNat]
  simp only [Instr.words, BitVec.toNat_ofNat]
  omega

theorem andlw (k : Byte) : Statement (.andlw k) := by
  refine ⟨rfl, ?_⟩
  intro w1 h
  cases h
  have h0 := (k).isLt
  rw [isTwoWord_eq, decide_eq_decide, encLit_toNat]
  simp only [Instr.words, BitVec.toNat_ofNat]
  omega

theorem iorlw (k : Byte) : Statement (.iorlw k) := by
  refine ⟨rfl, ?_⟩
  intro w1 h
  cases h
  have h0 := (k).isLt
  rw [isTwoWord_eq, decide_eq_decide, encLit_toNat]
  simp only [Instr.words, BitVec.toNat_ofNat]
  omega

theorem movlw (k : Byte) : Statement (.movlw k) := by
  refine ⟨rfl, ?_⟩
  intro w1 h
  cases h
  have h0 := (k).isLt
  rw [isTwoWord_eq, decide_eq_decide, encLit_toNat]
  simp only [Instr.words, BitVec.toNat_ofNat]
  omega

theorem sublw (k : Byte) : Statement (.sublw k) := by
  refine ⟨rfl, ?_⟩
  intro w1 h
  cases h
  have h0 := (k).isLt
  rw [isTwoWord_eq, decide_eq_decide, encLit_toNat]
  simp only [Instr.words, BitVec.toNat_ofNat]
  omega

theorem xorlw (k : Byte) : Statement (.xorlw k) := by
  refine ⟨rfl, ?_⟩
  intro w1 h
  cases h
  have h0 := (k).isLt
  rw [isTwoWord_eq, decide_eq_decide, encLit_toNat]
  simp only [Instr.words, BitVec.toNat_ofNat]
  omega

theorem mullw (k : Byte) : Statement (.mullw k) := by
  refine ⟨rfl, ?_⟩
  intro w1 h
  cases h
  have h0 := (k).isLt
  rw [isTwoWord_eq, decide_eq_decide, encLit_toNat]
  simp only [Instr.words, BitVec.toNat_ofNat]
  omega

theorem movlb (k : Byte) : Statement (.movlb k) := by
  refine ⟨rfl, ?_⟩
  intro w1 h
  cases h
  have h0 := (k).isLt
  rw [isTwoWord_eq, decide_eq_decide, encLit_toNat]
  simp only [Instr.words, BitVec.toNat_ofNat]
  omega

theorem lfsr (ff : BitVec 2) (k : DataAddr) : Statement (.lfsr ff k) := by
  refine ⟨rfl, ?_⟩
  intro w1 h
  cases h
  have h0 := (ff).isLt
  have h1 := (k.extractLsb' 8 4).isLt
  rw [isTwoWord_eq]
  simp only [BitVec.toNat_setWidth, toNat_append_add, Instr.words, BitVec.toNat_ofNat, decide_true, decide_eq_true_eq]
  omega

theorem daw : Statement (.daw) := by
  refine ⟨rfl, ?_⟩
  intro w1 h
  cases h
  decide

theorem nop : Statement (.nop) := by
  refine ⟨rfl, ?_⟩
  intro w1 h
  cases h
  decide

theorem nopx (x : BitVec 12) : Statement (.nopx x) := by
  refine ⟨rfl, ?_⟩
  intro w1 h
  cases h
  have h0 := (x).isLt
  rw [isTwoWord_eq, decide_eq_decide, encLow12_toNat]
  simp only [Instr.words, BitVec.toNat_ofNat]
  omega

theorem clrwdt : Statement (.clrwdt) := by
  refine ⟨rfl, ?_⟩
  intro w1 h
  cases h
  decide

theorem halt : Statement (.halt) := by
  refine ⟨rfl, ?_⟩
  intro w1 h
  cases h
  decide

theorem reset : Statement (.reset) := by
  refine ⟨rfl, ?_⟩
  intro w1 h
  cases h
  decide

theorem sleep : Statement (.sleep) := by
  refine ⟨rfl, ?_⟩
  intro w1 h
  cases h
  decide

theorem trap : Statement (.trap) := by
  refine ⟨rfl, ?_⟩
  intro w1 h
  cases h
  decide

theorem tret : Statement (.tret) := by
  refine ⟨rfl, ?_⟩
  intro w1 h
  cases h
  decide

theorem bc (n : Byte) : Statement (.bc n) := by
  refine ⟨rfl, ?_⟩
  intro w1 h
  cases h
  have h0 := (n).isLt
  rw [isTwoWord_eq, decide_eq_decide, encLit_toNat]
  simp only [Instr.words, BitVec.toNat_ofNat]
  omega

theorem bn (n : Byte) : Statement (.bn n) := by
  refine ⟨rfl, ?_⟩
  intro w1 h
  cases h
  have h0 := (n).isLt
  rw [isTwoWord_eq, decide_eq_decide, encLit_toNat]
  simp only [Instr.words, BitVec.toNat_ofNat]
  omega

theorem bnc (n : Byte) : Statement (.bnc n) := by
  refine ⟨rfl, ?_⟩
  intro w1 h
  cases h
  have h0 := (n).isLt
  rw [isTwoWord_eq, decide_eq_decide, encLit_toNat]
  simp only [Instr.words, BitVec.toNat_ofNat]
  omega

theorem bnn (n : Byte) : Statement (.bnn n) := by
  refine ⟨rfl, ?_⟩
  intro w1 h
  cases h
  have h0 := (n).isLt
  rw [isTwoWord_eq, decide_eq_decide, encLit_toNat]
  simp only [Instr.words, BitVec.toNat_ofNat]
  omega

theorem bnv (n : Byte) : Statement (.bnv n) := by
  refine ⟨rfl, ?_⟩
  intro w1 h
  cases h
  have h0 := (n).isLt
  rw [isTwoWord_eq, decide_eq_decide, encLit_toNat]
  simp only [Instr.words, BitVec.toNat_ofNat]
  omega

theorem bnz (n : Byte) : Statement (.bnz n) := by
  refine ⟨rfl, ?_⟩
  intro w1 h
  cases h
  have h0 := (n).isLt
  rw [isTwoWord_eq, decide_eq_decide, encLit_toNat]
  simp only [Instr.words, BitVec.toNat_ofNat]
  omega

theorem bv (n : Byte) : Statement (.bv n) := by
  refine ⟨rfl, ?_⟩
  intro w1 h
  cases h
  have h0 := (n).isLt
  rw [isTwoWord_eq, decide_eq_decide, encLit_toNat]
  simp only [Instr.words, BitVec.toNat_ofNat]
  omega

theorem bz (n : Byte) : Statement (.bz n) := by
  refine ⟨rfl, ?_⟩
  intro w1 h
  cases h
  have h0 := (n).isLt
  rw [isTwoWord_eq, decide_eq_decide, encLit_toNat]
  simp only [Instr.words, BitVec.toNat_ofNat]
  omega

theorem bra (n : BitVec 11) : Statement (.bra n) := by
  refine ⟨rfl, ?_⟩
  intro w1 h
  cases h
  have h0 := (n).isLt
  rw [isTwoWord_eq, decide_eq_decide, encBr11_toNat]
  simp only [Instr.words, BitVec.toNat_ofNat]
  omega

theorem rcall (n : BitVec 11) : Statement (.rcall n) := by
  refine ⟨rfl, ?_⟩
  intro w1 h
  cases h
  have h0 := (n).isLt
  rw [isTwoWord_eq, decide_eq_decide, encBr11_toNat]
  simp only [Instr.words, BitVec.toNat_ofNat]
  omega

theorem push : Statement (.push) := by
  refine ⟨rfl, ?_⟩
  intro w1 h
  cases h
  decide

theorem pop : Statement (.pop) := by
  refine ⟨rfl, ?_⟩
  intro w1 h
  cases h
  decide

theorem ret (fast : Bool) : Statement (.ret fast) := by
  refine ⟨rfl, ?_⟩
  intro w1 h
  cases h
  cases fast <;> decide

theorem retfie (fast : Bool) : Statement (.retfie fast) := by
  refine ⟨rfl, ?_⟩
  intro w1 h
  cases h
  cases fast <;> decide

theorem retlw (k : Byte) : Statement (.retlw k) := by
  refine ⟨rfl, ?_⟩
  intro w1 h
  cases h
  have h0 := (k).isLt
  rw [isTwoWord_eq, decide_eq_decide, encLit_toNat]
  simp only [Instr.words, BitVec.toNat_ofNat]
  omega

theorem call (k : BitVec 20) (fast : Bool) : Statement (.call k fast) := by
  refine ⟨rfl, ?_⟩
  intro w1 h
  cases h
  have h0 := (BitVec.ofBool fast).isLt
  have h1 := (k.extractLsb' 0 8).isLt
  rw [isTwoWord_eq]
  simp only [BitVec.toNat_setWidth, toNat_append_add, Instr.words, BitVec.toNat_ofNat, decide_true, decide_eq_true_eq]
  omega

theorem goto (k : BitVec 20) : Statement (.goto k) := by
  refine ⟨rfl, ?_⟩
  intro w1 h
  cases h
  have h0 := (k.extractLsb' 0 8).isLt
  rw [isTwoWord_eq, encLit_toNat]
  simp only [Instr.words, BitVec.toNat_ofNat, decide_true, decide_eq_true_eq]
  omega

theorem tblrd : Statement (.tblrd) := by
  refine ⟨rfl, ?_⟩
  intro w1 h
  cases h
  decide

theorem tblrdPostInc : Statement (.tblrdPostInc) := by
  refine ⟨rfl, ?_⟩
  intro w1 h
  cases h
  decide

theorem tblrdPostDec : Statement (.tblrdPostDec) := by
  refine ⟨rfl, ?_⟩
  intro w1 h
  cases h
  decide

theorem tblrdPreInc : Statement (.tblrdPreInc) := by
  refine ⟨rfl, ?_⟩
  intro w1 h
  cases h
  decide

theorem tblwt : Statement (.tblwt) := by
  refine ⟨rfl, ?_⟩
  intro w1 h
  cases h
  decide

theorem tblwtPostInc : Statement (.tblwtPostInc) := by
  refine ⟨rfl, ?_⟩
  intro w1 h
  cases h
  decide

theorem tblwtPostDec : Statement (.tblwtPostDec) := by
  refine ⟨rfl, ?_⟩
  intro w1 h
  cases h
  decide

theorem tblwtPreInc : Statement (.tblwtPreInc) := by
  refine ⟨rfl, ?_⟩
  intro w1 h
  cases h
  decide

end Sys2Proof.Laws.LengthFromFirstWord
end

