-- ==== Sys2Proof/Laws/Run.lean ====
section
/-! SUPPORT. What a step can do, once and for all (spec/60_exceptions.md R430), and what fetch and advance are. -/

namespace Sys2Proof.Machine

open Sys2Proof

/-- What an instruction does at a boundary that reaches it: its words decode, and its meaning runs past them. -/
theorem runInstr_next (s t : State) (h : runInstr s = .next t) :
    s.pcHidden = false ∧ ∃ i, decode s.fetchWord (s.pmRead16 (s.pc + 2#21)) = .ok i ∧ exec i (s.advance i.words) = .next t := by
  unfold runInstr at h
  cases hp : s.pcHidden with
  | true => simp [hp] at h
  | false =>
    simp only [hp, Bool.false_eq_true, if_false] at h
    cases hd : decode s.fetchWord (s.pmRead16 (s.pc + 2#21)) with
    | error e => simp [hd] at h
    | ok i => exact ⟨rfl, i, rfl, by simpa [hd] using h⟩

/-- Words that decode run their instruction, with the pc past them. -/
theorem runInstr_ok (s : State) (i : Instr) (hp : s.pcHidden = false)
    (hd : decode s.fetchWord (s.pmRead16 (s.pc + 2#21)) = .ok i) : runInstr s = exec i (s.advance i.words) := by
  simp [runInstr, hp, hd]

/-- Words that do not decode end in the refusal named for them. -/
theorem runInstr_error (s : State) (e : DecodeError) (hp : s.pcHidden = false)
    (hd : decode s.fetchWord (s.pmRead16 (s.pc + 2#21)) = .error e) :
    runInstr s = .refused (refusalOf e s.fetchWord (s.pmRead16 (s.pc + 2#21))) := by
  simp [runInstr, hp, hd]

/-- The fetch takes the saved word, or else the word at the pc. -/
theorem State.fetchWord_eq (s : State) : s.fetchWord = s.prefetch.getD (s.pmRead16 s.pc) := by
  unfold State.fetchWord
  cases s.prefetch <;> rfl

/-- What the boundary of a running core gives: the interrupt entry alone where its push is a stack error that resets the
device, else the entry, if any, and the instruction then at the pc. -/
theorem boundaryRun_next (s t : State) (h : boundaryRun s = .next t) :
    (s.takeInterrupt.stackReset ≠ none ∧ t = s.takeInterrupt) ∨
    (s.takeInterrupt.stackReset = none ∧ runInstr s.takeInterrupt = .next t) := by
  unfold boundaryRun at h
  cases hs : s.takeInterrupt.stackReset with
  | none => exact .inr ⟨rfl, by simpa [hs] using h⟩
  | some e => exact .inl ⟨by simp, by simpa [hs, eq_comm] using h⟩

/-- Every way a step can go on: a reset, no change but the inputs sampled, or the boundary of a running core, sleeping
before it or not. -/
theorem step_next (s t : State) (h : step s = .next t) :
    (∃ c, t = s.sample.resetBy c) ∨ t = s.sample ∨
    (s.stackReset = none ∧ (boundaryRun s.sample = .next t ∨ boundaryRun { s.sample with run := .running } = .next t)) := by
  unfold step boundary at h
  split at h
  · rename_i c _
    exact .inl ⟨c, by simpa [eq_comm] using h⟩
  · split at h
    · rename_i e _
      exact .inl ⟨e.cause, by simpa [eq_comm] using h⟩
    · rename_i hs
      have hs' : s.stackReset = none := by simpa using hs
      split at h
      · exact .inr (.inl (by simpa [eq_comm] using h))
      · split at h
        · exact .inr (.inr ⟨hs', .inr h⟩)
        · exact .inr (.inl (by simpa [eq_comm] using h))
      · split at h
        · exact .inl ⟨.wdt, by simpa [eq_comm] using h⟩
        · exact .inr (.inr ⟨hs', .inl h⟩)

/-- Advancing keeps the pc even and uses up the saved word. -/
theorem State.advance_eq (s : State) (n : Nat) :
    s.advance n = { s with pc := evenTarget (s.pc + BitVec.ofNat 21 (2 * n)), prefetch := none } := rfl

/-- With no saved word the fetch reads the word at the pc. -/
theorem State.fetchWord_none (s : State) (h : s.prefetch = none) : s.fetchWord = s.pmRead16 s.pc := by
  simp [State.fetchWord, h]

end Sys2Proof.Machine
end

