-- ==== Sys2Proof/Tests/Slice0.lean ====
section
/-! SUPPORT. Tests of the model: words written out from the spec's encodings, the spec's examples one step each, and for every
statement with hypotheses a state and operands that meet them. Expected results are the spec's (the rule is named). -/

namespace Sys2Proof.Tests

open Sys2Proof Sys2Proof.Machine

/-! ### WellFormed -/

/-- `ff` = 3 of LFSR is the one ill-formed term (spec/30_encoding.md R143); its words are refused. -/
theorem test_lfsr3_ill_formed :
    (Instr.lfsr 3#2 0#12).wf = false ∧ (Instr.lfsr 2#2 0#12).wf = true ∧
    decode 0b1110111000110000#16 0b1111000000000000#16 = .error .reservedFsr := by decide

/-! ### Decoding, word by word -/

/-- `oooo ooda ffff ffff` (spec/40_byte_file_ops.md R202 to R210). -/
theorem test_decode_byte_da :
    decode 0b0010011000100000#16 0#16 = .ok (.addwf 0x20#8 .file .virt) ∧
    decode 0b0010000000100000#16 0#16 = .ok (.addwfc 0x20#8 .w .virt) ∧
    decode 0b0001010100100000#16 0#16 = .ok (.andwf 0x20#8 .w .banked) ∧
    decode 0b0001111000100000#16 0#16 = .ok (.comf 0x20#8 .file .virt) ∧
    decode 0b0000011000100000#16 0#16 = .ok (.decf 0x20#8 .file .virt) ∧
    decode 0b0010101000100000#16 0#16 = .ok (.incf 0x20#8 .file .virt) ∧
    decode 0b0001000000100000#16 0#16 = .ok (.iorwf 0x20#8 .w .virt) ∧
    decode 0b0101000000100000#16 0#16 = .ok (.movf 0x20#8 .w .virt) ∧
    decode 0b0011011000100000#16 0#16 = .ok (.rlcf 0x20#8 .file .virt) := by decide

/-- `oooo ooda ffff ffff` (spec/40_byte_file_ops.md R211 to R218). -/
theorem test_decode_byte_da_2 :
    decode 0b0100011000100000#16 0#16 = .ok (.rlncf 0x20#8 .file .virt) ∧
    decode 0b0011000000100000#16 0#16 = .ok (.rrcf 0x20#8 .w .virt) ∧
    decode 0b0100001000100000#16 0#16 = .ok (.rrncf 0x20#8 .file .virt) ∧
    decode 0b0101011000100000#16 0#16 = .ok (.subfwb 0x20#8 .file .virt) ∧
    decode 0b0101111000100000#16 0#16 = .ok (.subwf 0x20#8 .file .virt) ∧
    decode 0b0101101100100000#16 0#16 = .ok (.subwfb 0x20#8 .file .banked) ∧
    decode 0b0011101000100000#16 0#16 = .ok (.swapf 0x20#8 .file .virt) ∧
    decode 0b0001101000100000#16 0#16 = .ok (.xorwf 0x20#8 .file .virt) := by decide

/-- `oooo oooa ffff ffff` (spec/40_byte_file_ops.md R219 to R222; spec/41_skip_mul_move.md R244 to R248). -/
theorem test_decode_byte_a :
    decode 0b0110111000100000#16 0#16 = .ok (.movwf 0x20#8 .virt) ∧
    decode 0b0110101000100000#16 0#16 = .ok (.clrf 0x20#8 .virt) ∧
    decode 0b0110110100100000#16 0#16 = .ok (.negf 0x20#8 .banked) ∧
    decode 0b0110100000100000#16 0#16 = .ok (.setf 0x20#8 .virt) ∧
    decode 0b0110001000100000#16 0#16 = .ok (.cpfseq 0x20#8 .virt) ∧
    decode 0b0110010000100000#16 0#16 = .ok (.cpfsgt 0x20#8 .virt) ∧
    decode 0b0110000000100000#16 0#16 = .ok (.cpfslt 0x20#8 .virt) ∧
    decode 0b0110011000100000#16 0#16 = .ok (.tstfsz 0x20#8 .virt) ∧
    decode 0b0000001100100000#16 0#16 = .ok (.mulwf 0x20#8 .banked) := by decide

/-- spec/41_skip_mul_move.md R240 to R243. -/
theorem test_decode_skips :
    decode 0b0010111000100000#16 0#16 = .ok (.decfsz 0x20#8 .file .virt) ∧
    decode 0b0100111000100000#16 0#16 = .ok (.dcfsnz 0x20#8 .file .virt) ∧
    decode 0b0011110000100000#16 0#16 = .ok (.incfsz 0x20#8 .w .virt) ∧
    decode 0b0100101000100000#16 0#16 = .ok (.icfsnz 0x20#8 .file .virt) := by decide

/-- `oooo bbba ffff ffff` (spec/42_bit_ops.md R261 to R265). -/
theorem test_decode_bit :
    decode 0b1001011011000111#16 0#16 = .ok (.bcf 0xC7#8 3#3 .virt) ∧
    decode 0b1000111000100000#16 0#16 = .ok (.bsf 0x20#8 7#3 .virt) ∧
    decode 0b0111100100100000#16 0#16 = .ok (.btg 0x20#8 4#3 .banked) ∧
    decode 0b1011001000100000#16 0#16 = .ok (.btfsc 0x20#8 1#3 .virt) ∧
    decode 0b1010000011011000#16 0#16 = .ok (.btfss 0xD8#8 0#3 .virt) := by decide

/-- `oooo oooo kkkk kkkk` (spec/43_literal_ops.md R270 to R280; spec/45_branch_call_return.md R315). -/
theorem test_decode_literal :
    decode 0b0000111100010101#16 0#16 = .ok (.addlw 0x15#8) ∧
    decode 0b0000101101011111#16 0#16 = .ok (.andlw 0x5F#8) ∧
    decode 0b0000100100110101#16 0#16 = .ok (.iorlw 0x35#8) ∧
    decode 0b0000111001011010#16 0#16 = .ok (.movlw 0x5A#8) ∧
    decode 0b0000100000000010#16 0#16 = .ok (.sublw 0x02#8) ∧
    decode 0b0000101010101111#16 0#16 = .ok (.xorlw 0xAF#8) ∧
    decode 0b0000110111000100#16 0#16 = .ok (.mullw 0xC4#8) ∧
    decode 0b0000000100000101#16 0#16 = .ok (.movlb 0x05#8) ∧
    decode 0b0000110001011010#16 0#16 = .ok (.retlw 0x5A#8) := by decide

/-- The fixed words (spec/43_literal_ops.md R277; spec/44_system_ops.md R290 to R296; spec/45_branch_call_return.md R311, R312). -/
theorem test_decode_control :
    decode 0b0000000000000111#16 0#16 = .ok (.daw) ∧
    decode 0b0000000000000000#16 0#16 = .ok (.nop) ∧
    decode 0b1111000100100011#16 0#16 = .ok (.nopx 0x123#12) ∧
    decode 0b0000000000000100#16 0#16 = .ok (.clrwdt) ∧
    decode 0b0000000000000001#16 0#16 = .ok (.halt) ∧
    decode 0b0000000011111111#16 0#16 = .ok (.reset) ∧
    decode 0b0000000000000011#16 0#16 = .ok (.sleep) ∧
    decode 0b0000000011100000#16 0#16 = .ok (.trap) ∧
    decode 0b0000000011100001#16 0#16 = .ok (.tret) ∧
    decode 0b0000000000000101#16 0#16 = .ok (.push) ∧
    decode 0b0000000000000110#16 0#16 = .ok (.pop) := by decide

/-- `1110 0ccc nnnn nnnn` and `1101 onnn nnnn nnnn` (spec/45_branch_call_return.md R301 to R310). -/
theorem test_decode_branch :
    decode 0b1110001000000101#16 0#16 = .ok (.bc 5#8) ∧
    decode 0b1110011000000101#16 0#16 = .ok (.bn 5#8) ∧
    decode 0b1110001111111101#16 0#16 = .ok (.bnc 0xFD#8) ∧
    decode 0b1110011100000001#16 0#16 = .ok (.bnn 1#8) ∧
    decode 0b1110010100000100#16 0#16 = .ok (.bnv 4#8) ∧
    decode 0b1110000111111110#16 0#16 = .ok (.bnz 0xFE#8) ∧
    decode 0b1110010000000100#16 0#16 = .ok (.bv 4#8) ∧
    decode 0b1110000011111111#16 0#16 = .ok (.bz 0xFF#8) ∧
    decode 0b1101011111111111#16 0#16 = .ok (.bra 0x7FF#11) ∧
    decode 0b1101100000000011#16 0#16 = .ok (.rcall 3#11) := by decide

/-- `0000 0000 0001 00os` (spec/45_branch_call_return.md R313, R314). -/
theorem test_decode_return :
    decode 0b0000000000010010#16 0#16 = .ok (.ret false) ∧
    decode 0b0000000000010011#16 0#16 = .ok (.ret true) ∧
    decode 0b0000000000010000#16 0#16 = .ok (.retfie false) ∧
    decode 0b0000000000010001#16 0#16 = .ok (.retfie true) := by decide

/-- The two-word instructions (spec/41_skip_mul_move.md R250; spec/43_literal_ops.md R276; spec/45_branch_call_return.md R320, R321). -/
theorem test_decode_two_words :
    decode 0b1100000100100000#16 0b1111001101000101#16 = .ok (.movff 0x120#12 0x345#12) ∧
    decode 0b1110111000100011#16 0b1111000010101011#16 = .ok (.lfsr 2#2 0x3AB#12) ∧
    decode 0b1110110010100011#16 0b1111000010010001#16 = .ok (.call 0x091A3#20 false) ∧
    decode 0b1110110110100011#16 0b1111000010010001#16 = .ok (.call 0x091A3#20 true) ∧
    decode 0b1110111100000000#16 0b1111000000000001#16 = .ok (.goto 0x00100#20) := by decide

/-- `0000 0000 0000 1onn` (spec/46_table_ops.md R330, R335). -/
theorem test_decode_table :
    decode 0b0000000000001000#16 0#16 = .ok (.tblrd) ∧
    decode 0b0000000000001001#16 0#16 = .ok (.tblrdPostInc) ∧
    decode 0b0000000000001010#16 0#16 = .ok (.tblrdPostDec) ∧
    decode 0b0000000000001011#16 0#16 = .ok (.tblrdPreInc) ∧
    decode 0b0000000000001100#16 0#16 = .ok (.tblwt) ∧
    decode 0b0000000000001101#16 0#16 = .ok (.tblwtPostInc) ∧
    decode 0b0000000000001110#16 0#16 = .ok (.tblwtPostDec) ∧
    decode 0b0000000000001111#16 0#16 = .ok (.tblwtPreInc) := by decide

/-- The table's numbering: the second word of GOTO 0x000200 is bits 31..16 (spec/opcode_table.json); without it, a zero
second word is refused (spec/30_encoding.md R141). -/
theorem test_decodeTableWord :
    decodeTableWord 16 0x2620 = some (.addwf 0x20#8 .file .virt) ∧
    decodeTableWord 32 0xF001EF00 = some (.goto 0x00100#20) ∧
    decodeTableWord 16 0xEF00 = none := by decide

/-- The words around each undefined range (spec/30_encoding.md R142). -/
theorem test_undefined_words :
    decode 0x0002#16 0#16 = .error .undefinedOpcode ∧ decode 0x0014#16 0#16 = .error .undefinedOpcode ∧
    decode 0x00DF#16 0#16 = .error .undefinedOpcode ∧ decode 0x00E2#16 0#16 = .error .undefinedOpcode ∧
    decode 0x00FE#16 0#16 = .error .undefinedOpcode ∧ decode 0xE800#16 0#16 = .error .undefinedOpcode ∧
    decode 0xEBFF#16 0#16 = .error .undefinedOpcode ∧ decode 0xEE40#16 0xF000#16 = .error .undefinedOpcode := by decide

/-! ### One step each -/

/-- Shorthand: the next state. -/
def after (i : Instr) (s : State) : Option State :=
  match exec i s with
  | .next t => some t
  | .fault _ => none
  | .refused _ => none

/-- The reset state with W, the GPR at 020h and C as given, its pc past the instruction at 0100h. -/
def small (w v : Byte) (c : Bool) : State :=
  { State.reset with
    w := w, ram := Memory.write [] 0x20 v, status := { Status.zero with c := c }, pc := 0x102#21 }

/-- Flags from `N OV Z DC C`. -/
def flags (n ov z dc c : Bool) : Status := { n := n, ov := ov, z := z, dc := dc, c := c }

/-- The byte at 020h. -/
def at20 (s : State) : Byte := Memory.read s.ram 0x20

/-- spec/40_byte_file_ops.md R202, example. -/
theorem test_addwf :
    (after (.addwf 0x20#8 .file .virt) (small 0x17#8 0xC2#8 false)).map (fun t => (at20 t, t.w, t.status)) =
      some (0xD9#8, 0x17#8, flags true false false false false) := by decide

/-- spec/40_byte_file_ops.md R203, example. -/
theorem test_addwfc :
    (after (.addwfc 0x20#8 .w .virt) (small 0x4D#8 0x02#8 true)).map (fun t => (at20 t, t.w, t.status)) =
      some (0x02#8, 0x50#8, flags false false false true false) := by decide

/-- spec/40_byte_file_ops.md R203: FFh + 00h + 1. -/
theorem test_addwfc_wraps :
    (after (.addwfc 0x20#8 .w .virt) (small 0x00#8 0xFF#8 true)).map (fun t => (t.w, t.status)) =
      some (0x00#8, flags false false true true true) := by decide

/-- spec/40_byte_file_ops.md R204, example. -/
theorem test_andwf :
    (after (.andwf 0x20#8 .w .virt) (small 0x17#8 0xC2#8 false)).map (fun t => (at20 t, t.w, t.status)) =
      some (0xC2#8, 0x02#8, flags false false false false false) := by decide

/-- spec/40_byte_file_ops.md R205, example. -/
theorem test_comf :
    (after (.comf 0x20#8 .w .virt) (small 0x00#8 0x13#8 false)).map (fun t => (at20 t, t.w, t.status)) =
      some (0x13#8, 0xEC#8, flags true false false false false) := by decide

/-- spec/40_byte_file_ops.md R206, example. -/
theorem test_decf :
    (after (.decf 0x20#8 .file .virt) (small 0x00#8 0x01#8 false)).map (fun t => (at20 t, t.status)) =
      some (0x00#8, flags false false true true true) := by decide

/-- spec/40_byte_file_ops.md R206: 00h wraps to FFh. -/
theorem test_decf_borrows :
    (after (.decf 0x20#8 .file .virt) (small 0x00#8 0x00#8 true)).map (fun t => (at20 t, t.status)) =
      some (0xFF#8, flags true false false false false) := by decide

/-- spec/40_byte_file_ops.md R207, example. -/
theorem test_incf :
    (after (.incf 0x20#8 .file .virt) (small 0x00#8 0xFF#8 false)).map (fun t => (at20 t, t.status)) =
      some (0x00#8, flags false false true true true) := by decide

/-- spec/40_byte_file_ops.md R207: 7Fh gives 80h. -/
theorem test_incf_overflows :
    (after (.incf 0x20#8 .file .virt) (small 0x00#8 0x7F#8 false)).map (fun t => (at20 t, t.status)) =
      some (0x80#8, flags true true false true false) := by decide

/-- spec/40_byte_file_ops.md R208: 91h | 13h; the spec prints N=0, bit 7 of 93h is 1 (R23). -/
theorem test_iorwf :
    (after (.iorwf 0x20#8 .w .virt) (small 0x91#8 0x13#8 false)).map (fun t => (at20 t, t.w, t.status)) =
      some (0x13#8, 0x93#8, flags true false false false false) := by decide

/-- spec/40_byte_file_ops.md R209, example. -/
theorem test_movf :
    (after (.movf 0x20#8 .w .virt) (small 0x5A#8 0x00#8 false)).map (fun t => (t.w, t.status)) =
      some (0x00#8, flags false false true false false) := by decide

/-- spec/40_byte_file_ops.md R210, example. -/
theorem test_rlcf :
    (after (.rlcf 0x20#8 .w .virt) (small 0x00#8 0xE6#8 false)).map (fun t => (t.w, t.status)) =
      some (0xCC#8, flags true false false false true) := by decide

/-- spec/40_byte_file_ops.md R211, example; C kept. -/
theorem test_rlncf :
    (after (.rlncf 0x20#8 .file .virt) (small 0x00#8 0xAB#8 true)).map (fun t => (at20 t, t.status)) =
      some (0x57#8, flags false false false false true) := by decide

/-- spec/40_byte_file_ops.md R212, example. -/
theorem test_rrcf :
    (after (.rrcf 0x20#8 .w .virt) (small 0x00#8 0xE6#8 false)).map (fun t => (t.w, t.status)) =
      some (0x73#8, flags false false false false false) := by decide

/-- spec/40_byte_file_ops.md R213, example. -/
theorem test_rrncf :
    (after (.rrncf 0x20#8 .file .virt) (small 0x00#8 0xD7#8 false)).map (fun t => (at20 t, t.status)) =
      some (0xEB#8, flags true false false false false) := by decide

/-- spec/40_byte_file_ops.md R214, example. -/
theorem test_subfwb :
    (after (.subfwb 0x20#8 .file .virt) (small 0x02#8 0x03#8 true)).map (fun t => (at20 t, t.w, t.status)) =
      some (0xFF#8, 0x02#8, flags true false false false false) := by decide

/-- spec/40_byte_file_ops.md R215, example. -/
theorem test_subwf :
    (after (.subwf 0x20#8 .file .virt) (small 0x02#8 0x01#8 false)).map (fun t => (at20 t, t.status)) =
      some (0xFF#8, flags true false false false false) := by decide

/-- spec/40_byte_file_ops.md R216, example. -/
theorem test_subwfb :
    (after (.subwfb 0x20#8 .file .virt) (small 0x0D#8 0x19#8 true)).map (fun t => (at20 t, t.status)) =
      some (0x0C#8, flags false false false false true) := by decide

/-- spec/40_byte_file_ops.md R216: v = 00h, W = FFh, C = 0. -/
theorem test_subwfb_full_borrow :
    (after (.subwfb 0x20#8 .file .virt) (small 0xFF#8 0x00#8 false)).map (fun t => (at20 t, t.status.c, t.status.z)) =
      some (0x00#8, false, true) := by decide

/-- spec/40_byte_file_ops.md R217, example. -/
theorem test_swapf :
    (after (.swapf 0x20#8 .file .virt) (small 0x00#8 0x53#8 true)).map (fun t => (at20 t, t.status)) =
      some (0x35#8, flags false false false false true) := by decide

/-- spec/40_byte_file_ops.md R218, example. -/
theorem test_xorwf :
    (after (.xorwf 0x20#8 .file .virt) (small 0xB5#8 0xAF#8 false)).map (fun t => (at20 t, t.status)) =
      some (0x1A#8, flags false false false false false) := by decide

/-- spec/40_byte_file_ops.md R219, example. -/
theorem test_movwf :
    (after (.movwf 0x20#8 .virt) (small 0x4F#8 0xFF#8 false)).map (fun t => (at20 t)) =
      some (0x4F#8) := by decide

/-- spec/40_byte_file_ops.md R220, example. -/
theorem test_clrf :
    (after (.clrf 0x20#8 .virt) (small 0x00#8 0x5A#8 true)).map (fun t => (at20 t, t.status)) =
      some (0x00#8, flags false false true false true) := by decide

/-- spec/40_byte_file_ops.md R221, example. -/
theorem test_negf :
    (after (.negf 0x20#8 .virt) (small 0x00#8 0x3A#8 false)).map (fun t => (at20 t, t.status)) =
      some (0xC6#8, flags true false false false false) := by decide

/-- spec/40_byte_file_ops.md R222, example. -/
theorem test_setf :
    (after (.setf 0x20#8 .virt) (small 0x00#8 0x5A#8 false)).map (fun t => (at20 t, t.status)) =
      some (0xFF#8, flags false false false false false) := by decide

/-- spec/41_skip_mul_move.md R240, example. -/
theorem test_decfsz :
    (after (.decfsz 0x20#8 .file .virt) (small 0x00#8 0x01#8 false)).map (fun t => (at20 t, t.pc)) =
      some (0x00#8, 0x104#21) := by decide

/-- spec/41_skip_mul_move.md R241, example. -/
theorem test_dcfsnz :
    (after (.dcfsnz 0x20#8 .file .virt) (small 0x00#8 0x02#8 false)).map (fun t => (at20 t, t.pc)) =
      some (0x01#8, 0x104#21) := by decide

/-- spec/41_skip_mul_move.md R242, example. -/
theorem test_incfsz :
    (after (.incfsz 0x20#8 .file .virt) (small 0x00#8 0xFF#8 false)).map (fun t => (at20 t, t.pc)) =
      some (0x00#8, 0x104#21) := by decide

/-- spec/41_skip_mul_move.md R243, example. -/
theorem test_icfsnz :
    (after (.icfsnz 0x20#8 .file .virt) (small 0x00#8 0x00#8 false)).map (fun t => (at20 t, t.pc)) =
      some (0x01#8, 0x104#21) := by decide

/-- spec/41_skip_mul_move.md R244, example. -/
theorem test_cpfseq :
    (after (.cpfseq 0x20#8 .virt) (small 0x5A#8 0x5A#8 false)).map (fun t => (at20 t, t.pc)) =
      some (0x5A#8, 0x104#21) := by decide

/-- spec/41_skip_mul_move.md R245: unsigned, v = 80h, W = 7Fh skips. -/
theorem test_cpfsgt :
    (after (.cpfsgt 0x20#8 .virt) (small 0x7F#8 0x80#8 false)).map (fun t => (t.pc)) =
      some (0x104#21) := by decide

/-- spec/41_skip_mul_move.md R246: v = W does not skip. -/
theorem test_cpfslt :
    (after (.cpfslt 0x20#8 .virt) (small 0x10#8 0x10#8 false)).map (fun t => (t.pc)) =
      some (0x102#21) := by decide

/-- spec/41_skip_mul_move.md R247, example. -/
theorem test_tstfsz :
    (after (.tstfsz 0x20#8 .virt) (small 0x00#8 0x00#8 false)).map (fun t => (t.pc)) =
      some (0x104#21) := by decide

/-- spec/41_skip_mul_move.md R248, example. -/
theorem test_mulwf :
    (after (.mulwf 0x20#8 .virt) (small 0xC4#8 0xB5#8 false)).map (fun t => (t.prodh, t.prodl)) =
      some (0x8A#8, 0x94#8) := by decide

/-- spec/41_skip_mul_move.md R250, in the manner of its example. -/
theorem test_movff :
    (after (.movff 0x020#12 0x345#12) (small 0x00#8 0x33#8 false)).map (fun t => (Memory.read t.ram 0x345, at20 t)) =
      some (0x33#8, 0x33#8) := by decide

/-- spec/42_bit_ops.md R261, example. -/
theorem test_bcf :
    (after (.bcf 0x20#8 7#3 .virt) (small 0x00#8 0xC7#8 false)).map (fun t => (at20 t)) =
      some (0x47#8) := by decide

/-- spec/42_bit_ops.md R262, example. -/
theorem test_bsf :
    (after (.bsf 0x20#8 7#3 .virt) (small 0x00#8 0x0A#8 false)).map (fun t => (at20 t)) =
      some (0x8A#8) := by decide

/-- spec/42_bit_ops.md R263, example. -/
theorem test_btg :
    (after (.btg 0x20#8 4#3 .virt) (small 0x00#8 0x75#8 false)).map (fun t => (at20 t)) =
      some (0x65#8) := by decide

/-- spec/42_bit_ops.md R264, example. -/
theorem test_btfsc :
    (after (.btfsc 0x20#8 1#3 .virt) (small 0x00#8 0x04#8 false)).map (fun t => (t.pc)) =
      some (0x104#21) := by decide

/-- spec/42_bit_ops.md R265, example. -/
theorem test_btfss :
    (after (.btfss 0xD8#8 0#3 .virt) (small 0x00#8 0x00#8 true)).map (fun t => (t.pc)) =
      some (0x104#21) := by decide

/-- spec/43_literal_ops.md R270, example. -/
theorem test_addlw :
    (after (.addlw 0x15#8) (small 0xF0#8 0x00#8 false)).map (fun t => (t.w, t.status.c)) =
      some (0x05#8, true) := by decide

/-- spec/43_literal_ops.md R271, example. -/
theorem test_andlw :
    (after (.andlw 0x5F#8) (small 0xA3#8 0x00#8 false)).map (fun t => (t.w, t.status)) =
      some (0x03#8, flags false false false false false) := by decide

/-- spec/43_literal_ops.md R272, example. -/
theorem test_iorlw :
    (after (.iorlw 0x35#8) (small 0x9A#8 0x00#8 false)).map (fun t => (t.w, t.status)) =
      some (0xBF#8, flags true false false false false) := by decide

/-- spec/43_literal_ops.md R273, example. -/
theorem test_movlw :
    (after (.movlw 0x5A#8) (small 0x00#8 0x00#8 false)).map (fun t => (t.w)) =
      some (0x5A#8) := by decide

/-- spec/43_literal_ops.md R274, example. -/
theorem test_sublw :
    (after (.sublw 0x02#8) (small 0x03#8 0x00#8 false)).map (fun t => (t.w, t.status)) =
      some (0xFF#8, flags true false false false false) := by decide

/-- spec/43_literal_ops.md R275, example. -/
theorem test_xorlw :
    (after (.xorlw 0xAF#8) (small 0xB5#8 0x00#8 false)).map (fun t => (t.w, t.status)) =
      some (0x1A#8, flags false false false false false) := by decide

/-- spec/43_literal_ops.md R278, example. -/
theorem test_mullw :
    (after (.mullw 0xC4#8) (small 0xE2#8 0x00#8 false)).map (fun t => (t.prodh, t.prodl)) =
      some (0xAD#8, 0x08#8) := by decide

/-- spec/43_literal_ops.md R280: k[7:4] has no effect. -/
theorem test_movlb :
    (after (.movlb 0xF5#8) (small 0x00#8 0x00#8 false)).map (fun t => (t.bsr)) =
      some (5#4) := by decide

/-- spec/43_literal_ops.md R276, example. -/
theorem test_lfsr :
    (after (.lfsr 2#2 0x3AB#12) (small 0x00#8 0x00#8 false)).map (fun t => (t.fsr2)) =
      some (0x3AB#12) := by decide

/-- spec/43_literal_ops.md R277, example. -/
theorem test_daw :
    (after (.daw) (small 0xCE#8 0x00#8 false)).map (fun t => (t.w, t.status.c)) =
      some (0x34#8, true) := by decide

/-- spec/44_system_ops.md R291. -/
theorem test_clrwdt :
    (after (.clrwdt) (small 0x00#8 0x00#8 false)).map (fun t => (t.trace)) =
      some ([Event.clearWdt]) := by decide

/-- spec/44_system_ops.md R292. -/
theorem test_halt :
    (after (.halt) (small 0x00#8 0x00#8 false)).map (fun t => (t.run)) =
      some (RunState.halted) := by decide

/-- spec/44_system_ops.md R294. -/
theorem test_sleep :
    (after (.sleep) (small 0x00#8 0x00#8 false)).map (fun t => (t.run, t.trace)) =
      some (RunState.sleeping, [Event.enterSleep]) := by decide

/-- spec/44_system_ops.md R293: the next instruction executed is the one at 000000h; STKOVF is kept. -/
theorem test_reset_instruction :
    (after .reset { small 0#8 0#8 false with sp := 3#5, stkovf := true }).map (fun t => (t.pc, t.sp, t.stkovf)) =
      some (0#21, 0#5, true) := rfl

/-- spec/45_branch_call_return.md R301, example. -/
theorem test_bc :
    (after (.bc 5#8) (small 0x00#8 0x00#8 true)).map (fun t => (t.pc)) =
      some (0x10C#21) := by decide

/-- spec/45_branch_call_return.md R302, example. -/
theorem test_bn :
    (after (.bn 5#8) (small 0x00#8 0x00#8 false)).map (fun t => (t.pc)) =
      some (0x102#21) := by decide

/-- spec/45_branch_call_return.md R303, example. -/
theorem test_bnc :
    (after (.bnc 0xFD#8) (small 0x00#8 0x00#8 false)).map (fun t => (t.pc)) =
      some (0xFC#21) := by decide

/-- spec/45_branch_call_return.md R304, example. -/
theorem test_bnn :
    (after (.bnn 1#8) (small 0x00#8 0x00#8 false)).map (fun t => (t.pc)) =
      some (0x104#21) := by decide

/-- spec/45_branch_call_return.md R305, example. -/
theorem test_bnv :
    (after (.bnv 4#8) ({ small 0#8 0#8 false with status := flags false true false false false })).map (fun t => (t.pc)) =
      some (0x102#21) := by decide

/-- spec/45_branch_call_return.md R306, example. -/
theorem test_bnz :
    (after (.bnz 0xFE#8) (small 0x00#8 0x00#8 false)).map (fun t => (t.pc)) =
      some (0xFE#21) := by decide

/-- spec/45_branch_call_return.md R307, example. -/
theorem test_bv :
    (after (.bv 4#8) ({ small 0#8 0#8 false with status := flags false true false false false })).map (fun t => (t.pc)) =
      some (0x10A#21) := by decide

/-- spec/45_branch_call_return.md R308, example. -/
theorem test_bz :
    (after (.bz 0xFF#8) ({ small 0#8 0#8 false with status := flags false false true false false })).map (fun t => (t.pc)) =
      some (0x100#21) := by decide

/-- spec/45_branch_call_return.md R309, example. -/
theorem test_bra :
    (after (.bra 0x7FF#11) (small 0x00#8 0x00#8 false)).map (fun t => (t.pc)) =
      some (0x100#21) := by decide

/-- spec/45_branch_call_return.md R310, example. -/
theorem test_rcall :
    (after (.rcall 3#11) (small 0x00#8 0x00#8 false)).map (fun t => (t.pc, t.tos, t.sp)) =
      some (0x108#21, 0x102#21, 1#5) := by decide

/-- spec/45_branch_call_return.md R311, example. -/
theorem test_push :
    (after (.push) ({ small 0#8 0#8 false with sp := 2#5, pc := 0x202#21 })).map (fun t => (t.sp, t.tos, t.pc)) =
      some (3#5, 0x202#21, 0x202#21) := by decide

/-- spec/10_state.md R36: the 32nd push. -/
theorem test_push_full :
    (after (.push) ({ small 0#8 0#8 false with sp := 31#5 })).map (fun t => (t.sp, t.tos, t.stkovf)) =
      some (31#5, 0x102#21, true) := by decide

/-- spec/45_branch_call_return.md R312, example. -/
theorem test_pop :
    (after (.pop) ({ small 0#8 0#8 false with sp := 3#5 })).map (fun t => (t.sp, t.pc)) =
      some (2#5, 0x102#21) := by decide

/-- spec/45_branch_call_return.md R312: an underflow. -/
theorem test_pop_empty :
    (after (.pop) (small 0x00#8 0x00#8 false)).map (fun t => (t.sp, t.stkunf, t.pc)) =
      some (0#5, true, 0x102#21) := by decide

/-- spec/45_branch_call_return.md R313, example. -/
theorem test_return :
    (after (.ret false) ({ small 0#8 0#8 false with sp := 1#5, stack := State.reset.stack.setIfInBounds 0 0x102#21, pc := 0x302#21, ws := 0x77#8, bsrs := 9#4 })).map (fun t => (t.pc, t.sp, t.w)) =
      some (0x102#21, 0#5, 0x00#8) := by decide

/-- spec/45_branch_call_return.md R314, in the manner of its example. -/
theorem test_retfie :
    (after (.retfie true) ({ small 0#8 0#8 false with sp := 1#5, stack := State.reset.stack.setIfInBounds 0 0x102#21, pc := 0x302#21, ws := 0x77#8, bsrs := 9#4 })).map (fun t => (t.pc, t.sp, t.w, t.bsr, t.gieh)) =
      some (0x102#21, 0#5, 0x77#8, 9#4, true) := by decide

/-- spec/45_branch_call_return.md R315, example. -/
theorem test_retlw :
    (after (.retlw 0x5A#8) ({ small 0#8 0#8 false with sp := 1#5, stack := State.reset.stack.setIfInBounds 0 0x102#21, pc := 0x302#21, ws := 0x77#8, bsrs := 9#4 })).map (fun t => (t.pc, t.sp, t.w)) =
      some (0x102#21, 0#5, 0x5A#8) := by decide

/-- spec/45_branch_call_return.md R320, example. -/
theorem test_call :
    (after (.call 0x091A3#20 false) ({ small 0#8 0#8 false with pc := 0x104#21 })).map (fun t => (t.tos, t.sp, t.pc, t.pclath, t.pclatu)) =
      some (0x104#21, 1#5, 0x12346#21, 0x23#8, 1#5) := by decide

/-- spec/45_branch_call_return.md R321, example. -/
theorem test_goto :
    (after (.goto 0x00100#20) (small 0x00#8 0x00#8 false)).map (fun t => (t.pc, t.pclath, t.pclatu)) =
      some (0x200#21, 2#8, 0#5) := by decide

/-- spec/46_table_ops.md R331. -/
theorem test_tblrd :
    (after (.tblrd) ({ small 0#8 0#8 false with pm := Memory.write (Memory.write [] 0x200 0x34#8) 0x201 0x12#8, tblptr := 0x200#21 })).map (fun t => (t.tablat, t.tblptr)) =
      some (0x34#8, 0x200#21) := by decide

/-- spec/46_table_ops.md R332, example. -/
theorem test_tblrd_postinc :
    (after (.tblrdPostInc) ({ small 0#8 0#8 false with pm := Memory.write (Memory.write [] 0x200 0x34#8) 0x201 0x12#8, tblptr := 0x200#21 })).map (fun t => (t.tablat, t.tblptr)) =
      some (0x34#8, 0x201#21) := by decide

/-- spec/46_table_ops.md R333, example. -/
theorem test_tblrd_postdec :
    (after (.tblrdPostDec) ({ small 0#8 0#8 false with pm := Memory.write (Memory.write [] 0x200 0x34#8) 0x201 0x12#8, tblptr := 0x201#21 })).map (fun t => (t.tablat, t.tblptr)) =
      some (0x12#8, 0x200#21) := by decide

/-- spec/46_table_ops.md R334, example. -/
theorem test_tblrd_preinc :
    (after (.tblrdPreInc) ({ small 0#8 0#8 false with pm := Memory.write (Memory.write [] 0x200 0x34#8) 0x201 0x12#8, tblptr := 0x200#21 })).map (fun t => (t.tablat, t.tblptr)) =
      some (0x12#8, 0x201#21) := by decide

/-- A state that may write program memory, with TBLPTR = 004000h and TABLAT = 5Ah. -/
def writable : State :=
  { small 0#8 0#8 false with
    dev := { Config.device with pmWritable := [{ lo := 0, hi := 0x1FFFFF }] }, tblptr := 0x4000#21, tablat := 0x5A#8 }

/-- spec/46_table_ops.md R336, example. -/
theorem test_tblwt :
    (after (.tblwt) (writable)).map (fun t => (Memory.read t.pm 0x4000, t.tblptr)) =
      some (0x5A#8, 0x4000#21) := by decide

/-- spec/46_table_ops.md R337, example. -/
theorem test_tblwt_postinc :
    (after (.tblwtPostInc) (writable)).map (fun t => (Memory.read t.pm 0x4000, t.tblptr)) =
      some (0x5A#8, 0x4001#21) := by decide

/-- spec/46_table_ops.md R338, example. -/
theorem test_tblwt_postdec :
    (after (.tblwtPostDec) (writable)).map (fun t => (Memory.read t.pm 0x4000, t.tblptr)) =
      some (0x5A#8, 0x3FFF#21) := by decide

/-- spec/46_table_ops.md R339, example. -/
theorem test_tblwt_preinc :
    (after (.tblwtPreInc) (writable)).map (fun t => (Memory.read t.pm 0x4001, t.tblptr)) =
      some (0x5A#8, 0x4001#21) := by decide

/-! ### Operand corner cases (spec/20_memory.md R86 to R96) -/

/-- spec/20_memory.md R96, the source's computed jump. -/
theorem test_addwf_pcl :
    (after (.addwf 0xF9#8 .file .virt) ({ State.reset with pc := 0x3F0#21, w := 0x30#8, pclath := 5#8, pclatu := 1#5 })).map (fun t => (t.pc)) =
      some (0x10520#21) := by decide

/-- spec/20_memory.md R86: POSTINC0. -/
theorem test_postinc_steps :
    (after (.movwf 0xEE#8 .virt) ({ small 0x4F#8 0#8 false with fsr0 := 0x020#12 })).map (fun t => (at20 t, t.fsr0)) =
      some (0x4F#8, 0x021#12) := by decide

/-- spec/20_memory.md R90: FSR0 pointing at FSR0L through POSTINC0. -/
theorem test_fsr_write_dominates :
    (after (.movwf 0xEE#8 .virt) ({ small 0x55#8 0#8 false with fsr0 := 0xFE9#12 })).map (fun t => (t.fsr0)) =
      some (0xF55#12) := by decide

/-- spec/20_memory.md R89. -/
theorem test_indf_of_indf :
    (after (.movf 0xEF#8 .w .virt) ({ small 0x55#8 0#8 true with fsr0 := 0xFE7#12 })).map (fun t => (t.w, t.status)) =
      some (0x00#8, flags false false true false true) := by decide

/-- spec/10_state.md R25: 000u u1uu. -/
theorem test_clrf_status :
    (after (.clrf 0xD8#8 .virt) ({ small 0#8 0#8 false with status := flags true true false true true })).map (fun t => (t.status)) =
      some (flags true true true true true) := by decide

/-! ### Witnesses: a state and operands that meet the hypotheses of each statement that has some -/

theorem witness_DecodeAfterEncode : (Instr.addwf 0xFF#8 .file .banked).wf = true ∧ (Instr.lfsr 2#2 0xFFF#12).wf = true := by decide

theorem witness_EncodeAfterDecode :
    decode 0x2620#16 0#16 = .ok (.addwf 0x20#8 .file .virt) ∧ isTwoWord 0x2620#16 = false ∧
    decode 0xEF00#16 0xF001#16 = .ok (.goto 0x00100#20) ∧ isTwoWord 0xEF00#16 = true := by decide

/-- The first and last word of each range, each with a second word that is accepted or refused. -/
theorem witness_SecondWordForms :
    decode 0xC000#16 0xEFFF#16 = .error .badSecondWord ∧ decode 0xCFFF#16 0xF000#16 = .ok (.movff 0xFFF#12 0x000#12) ∧
    decode 0xEC00#16 0xEFFF#16 = .error .badSecondWord ∧ decode 0xEDFF#16 0xFFFF#16 = .ok (.call 0xFFFFF#20 true) ∧
    decode 0xEF00#16 0xEFFF#16 = .error .badSecondWord ∧ decode 0xEFFF#16 0xF000#16 = .ok (.goto 0x000FF#20) ∧
    decode 0xEE00#16 0xF100#16 = .error .badSecondWord ∧ decode 0xEE2F#16 0xF0FF#16 = .ok (.lfsr 2#2 0xFFF#12) ∧
    decode 0xEE30#16 0xF000#16 = .error .reservedFsr ∧ decode 0xEE3F#16 0x0000#16 = .error .reservedFsr := by decide

theorem witness_SecondWordAloneIsNop : (encode (.goto 0x00100#20))[1]? = some 0xF001#16 := by decide

theorem witness_StepRunsDecoded :
    State.reset.run = .running ∧ State.reset.pc.getLsbD 0 = false ∧ State.reset.prefetch = none ∧
    State.reset.stackReset = none ∧ State.reset.pcHidden = false ∧ State.reset.sample.env.resetRequest = none ∧
    State.reset.sample.env.wdtTimeout = false ∧ State.reset.sample.irqTaken = none ∧
    decodeBytes [State.reset.pmRead8 0#21, State.reset.pmRead8 1#21, State.reset.pmRead8 2#21, State.reset.pmRead8 3#21] =
      .ok (.nop, [0#8, 0#8]) := by decide

theorem witness_InvariantKeptByStep :
    (small 0#8 1#8 false).pc.getLsbD 0 = false ∧ (small 0#8 1#8 false).pcHidden = false ∧
    Memory.wf (small 0#8 1#8 false).ram = true ∧ Memory.wf (small 0#8 1#8 false).pm = true ∧
    ∃ t, step (small 0#8 1#8 false) = .next t := ⟨by decide, by decide, by decide, by decide, _, rfl⟩

theorem witness_EveryInstructionCompletes :
    Instr.daw.wf = true ∧ Instr.daw ≠ .trap ∧ Instr.daw ≠ .tret ∧ Instr.trap.wf = true := by decide

/-- A state about to take one sample. -/
def sampled (s : State) (e : Inputs) : State := { s with inputs := [e] }

/-- One state for each clause. -/
theorem witness_BoundaryOrder :
    (sampled State.reset { Inputs.quiet with resetRequest := some .bor }).sample.env.resetRequest = some .bor ∧
    State.reset.sample.env.resetRequest = none ∧ State.reset.sample.env.wdtTimeout = false ∧
    State.reset.sample.env.wakeRequest = false ∧ State.reset.stackReset = none ∧ State.reset.run = .running ∧
    ({ State.reset with stackReset := some .overflow } : State).stackReset = some .overflow ∧
    ({ State.reset with stackReset := some .underflow } : State).stackReset = some .underflow ∧
    ({ State.reset with run := .halted } : State).run = .halted ∧
    ({ State.reset with run := .sleeping } : State).run = .sleeping ∧
    (sampled State.reset { Inputs.quiet with wdtTimeout := true }).sample.env.wdtTimeout = true ∧
    (sampled State.reset { Inputs.quiet with wakeRequest := true }).sample.env.wakeRequest = true := by decide

theorem witness_AccessRamIsGpr : (0x07F#12).toNat < 128 ∧ (0x7F#8).toNat < 128 := by decide

theorem witness_FileAddressForms : (0x7F#8).toNat < 128 ∧ 128 ≤ (0x80#8).toNat := by decide

theorem witness_IndirectAddressForms :
    State.reset.place 0xFEF#12 = .sfr (.ind .fsr0 .indf) ∧ State.reset.place 0xFE6#12 = .sfr (.ind .fsr1 .postinc) ∧
    State.reset.place 0xFDD#12 = .sfr (.ind .fsr2 .postdec) ∧ State.reset.place 0xFEC#12 = .sfr (.ind .fsr0 .preinc) ∧
    State.reset.place 0xFDB#12 = .sfr (.ind .fsr2 .plusw) ∧ State.reset.isInd 0x020#12 = false ∧
    State.reset.place 0xFE1#12 = .sfr (.fsrl .fsr1) ∧ State.reset.place 0x020#12 = .gpr := by decide

/-- POSTDEC2 over an ordinary location with FSR2 = 000h leaves FSR2 = FFFh (spec/20_memory.md R86). -/
theorem test_postdec_wraps :
    (operandEnd { named := 0xFDD#12, target := 0x000#12 } true State.reset).fsr .fsr2 = 0xFFF#12 := by decide

theorem witness_GprReadsLastWrite : Memory.wf (small 0#8 1#8 false).ram = true ∧ (small 0#8 1#8 false).place 0xFD7#12 = .gpr := by
  decide

/-- A register of full width, a top-of-stack byte with SP = 1, and other locations: the other byte of FSR0, a GPR. -/
theorem witness_CoreRegistersReadBack :
    State.reset.place 0xFE8#12 = .sfr .wreg ∧ Sfr.wreg ≠ .pcl ∧ (∀ n m, Sfr.wreg ≠ .ind n m) ∧
    ({ State.reset with sp := 1#5 } : State).place 0xFFF#12 = .sfr .tosu ∧
    ({ State.reset with sp := 1#5 } : State).sp ≠ 0#5 ∧ (∀ n m, Sfr.tosu ≠ .ind n m) ∧
    State.reset.place 0xFE9#12 = .sfr (.fsrl .fsr0) ∧ State.reset.place 0xFEA#12 ≠ .sfr (.fsrl .fsr0) ∧
    State.reset.place 0xFFC#12 = .sfr .stkptr ∧ State.reset.place 0x020#12 ≠ .sfr .stkptr :=
  ⟨by decide, by decide, nofun, by decide, by decide, nofun, by decide, by decide, by decide, by decide⟩

theorem witness_TopOfStackWindow : ({ State.reset with sp := 31#5 } : State).sp ≠ 0#5 ∧ State.reset.sp = 0#5 := by decide

/-- A device with a peripheral area. -/
def withPeripherals : State :=
  { State.reset with
    dev := { Config.device with dataMap := [{ lo := 0xF80, hi := 0xF9F, kind := .peripheral }] },
    env := { Inputs.quiet with periph := some 0xA5#8 } }

theorem witness_EnableByteAndPeripherals :
    withPeripherals.place 0xFF2#12 = .gie ∧ withPeripherals.place 0xF80#12 = .peripheral ∧
    withPeripherals.place 0xF9F#12 = .peripheral ∧ withPeripherals.env.periph = some 0xA5#8 ∧ State.reset.env.periph = none := by
  decide

/-- BTG of a peripheral register reads it and writes it back: two outputs, the latest first (spec/60_exceptions.md R420). -/
theorem test_peripheral_outputs :
    (after (.btg 0x80#8 0#3 .virt) withPeripherals).map (fun t => t.trace) =
      some [Event.sfrWrite 0xF80#12 0xA4#8, Event.sfrRead 0xF80#12] := by decide

/-- A table write goes out whether or not the memory takes the byte (spec/46_table_ops.md R335). -/
theorem test_table_write_outputs :
    (after .tblwt { writable with tablat := 0x5A#8 }).map (fun t => t.trace) = some [Event.tableWrite writable.tblptr 0x5A#8 true] ∧
    (after .tblwtPreInc State.reset).map (fun t => t.trace) = some [Event.tableWrite 1#21 0#8 false] := by decide

/-- FSR0 points at an unimplemented location. -/
def fsrAtHole : State := { State.reset with fsr0 := 0xFF1#12 }

theorem witness_UnimplementedReadsZero :
    State.reset.place 0xFF1#12 = .unimplemented ∧ State.reset.ea 0xF1#8 .virt = 0xFF1#12 ∧
    (operandBegin (State.reset.ea 0xF1#8 .virt) State.reset).1.target = 0xFF1#12 ∧
    (operandBegin (fsrAtHole.ea 0xEE#8 .virt) fsrAtHole).1.target = 0xFF1#12 ∧ FileUse.write ≠ .read := by decide

theorem witness_UnimplementedByEveryForm :
    fileOperand (.addwf 0xEE#8 .file .virt) = some (0xEE#8, .virt, .modify) ∧
    fsrAtHole.place (operandBegin (fsrAtHole.ea 0xEE#8 .virt) fsrAtHole).1.target = .unimplemented ∧
    fsrAtHole.place (operandBegin 0xFEE#12 fsrAtHole).1.target = .unimplemented ∧ fsrAtHole.place 0x020#12 = .gpr ∧
    fsrAtHole.place (operandBegin 0xFF1#12 (operandEnd (operandBegin 0x020#12 fsrAtHole).1 false
      (dataRead true (fsrAtHole.pc - 2#21) (operandBegin 0x020#12 fsrAtHole).1.target (operandBegin 0x020#12 fsrAtHole).2).2)).1.target =
      .unimplemented := by decide

/-- FSR0 points at POSTDEC2. -/
def indfOfIndf : State := { State.reset with fsr0 := 0xFDD#12 }

theorem witness_IndfReachedThroughIndf :
    dropped (operandBegin (indfOfIndf.ea 0xEF#8 .virt) indfOfIndf).1 indfOfIndf = true ∧
    fileOperand (.clrf 0xEF#8 .virt) = some (0xEF#8, .virt, .write) ∧ FileUse.write ≠ .read ∧
    ∃ t, exec (.clrf 0xEF#8 .virt) indfOfIndf = .next t := ⟨by decide, rfl, by decide, _, rfl⟩

/-- FSR0 points at FSR0L, FSR1 at FSR1H. -/
def fsrAtFsr : State := { State.reset with fsr0 := 0xFE9#12, fsr1 := 0xFE2#12 }

theorem witness_FsrWriteDominates :
    fsrAtFsr.place (fsrAtFsr.fsr .fsr0) = .sfr (.fsrl .fsr0) ∧ fsrAtFsr.place (fsrAtFsr.fsr .fsr1) = .sfr (.fsrh .fsr1) ∧
    fsrAtFsr.place (fsrAtFsr.ea 0xEE#8 .virt) = .sfr (.ind .fsr0 .postinc) ∧
    fsrAtFsr.place (fsrAtFsr.ea 0xE5#8 .virt) = .sfr (.ind .fsr1 .postdec) := by decide

theorem witness_StatusAsDestination :
    State.reset.place (operandBegin (State.reset.ea 0xD8#8 .virt) State.reset).1.target = .sfr .status := by decide

/-- FSR0 points at PCL. -/
def fsrAtPcl : State := { State.reset with fsr0 := 0xFF9#12 }

theorem witness_PclReadLoadsLatches :
    State.reset.place 0xFF9#12 = .sfr .pcl ∧
    State.reset.place (operandBegin (State.reset.ea 0xF9#8 .virt) State.reset).1.target = .sfr .pcl ∧
    fsrAtPcl.place (operandBegin (fsrAtPcl.ea 0xEE#8 .virt) fsrAtPcl).1.target = .sfr .pcl ∧
    fileOperand (.cpfsgt 0xEE#8 .virt) = some (0xEE#8, .virt, .read) := by decide

/-- The source's computed jump (spec/20_memory.md R96). -/
def computedJump : State := { State.reset with pc := 0x0003F0#21, w := 0x30#8, pclath := 0x05#8, pclatu := 1#5 }

theorem witness_PclWriteJumps :
    computedJump.place (operandBegin (computedJump.ea 0xF9#8 .virt) computedJump).1.target = .sfr .pcl ∧
    fsrAtPcl.place (operandBegin (fsrAtPcl.ea 0xED#8 .virt) fsrAtPcl).1.target = .sfr .pcl ∧
    fsrAtPcl.place 0x020#12 = .gpr ∧ fsrAtPcl.place (operandBegin 0xFED#12 fsrAtPcl).1.target = .sfr .pcl ∧
    computedJump.place 0xFF9#12 = .sfr .pcl ∧ computedJump.pc = 0x0003F0#21 ∧ computedJump.w = 0x30#8 ∧
    computedJump.pclath = 0x05#8 ∧ computedJump.pclatu = 1#5 := by decide

theorem witness_ClearAndSetResults :
    dropped (operandBegin (indfOfIndf.ea 0xEF#8 .virt) indfOfIndf).1 indfOfIndf = true ∧
    State.reset.place (State.reset.ea 0xD8#8 .virt) = .sfr .status ∧
    State.reset.place (State.reset.ea 0xF9#8 .virt) = .sfr .pcl ∧ State.reset.place (State.reset.ea 0x7F#8 .virt) = .gpr := by
  decide

/-- FSR0 points at 020h. -/
def fsrAt20 : State := { small 0#8 0x33#8 false with fsr0 := 0x020#12 }

theorem witness_MovffResult :
    fsrAt20.place 0x020#12 = .gpr ∧ fsrAt20.place 0x345#12 = .gpr ∧ fsrAt20.place 0xFEE#12 = .sfr (.ind .fsr0 .postinc) ∧
    fsrAt20.place (fsrAt20.fsr .fsr0) = .gpr ∧ fsrAt20.place (fsrAt20.fsr .fsr0 + 1#12) = .gpr := by decide

/-- 38 + 45 without carry leaves 7Dh with C = DC = 0, and 99 + 99 with carry leaves 33h with C = DC = 1. -/
theorem witness_DawAdjustsDecimalSums :
    (small 0x7D#8 0#8 false).w = sumByte (packBcd 38) (packBcd 45) false ∧
    some (small 0x7D#8 0#8 false).status.dc = (addFlags (packBcd 38) (packBcd 45) false).dc ∧
    some (small 0x7D#8 0#8 false).status.c = (addFlags (packBcd 38) (packBcd 45) false).c ∧
    0x33#8 = sumByte (packBcd 99) (packBcd 99) true ∧ some true = (addFlags (packBcd 99) (packBcd 99) true).dc ∧
    some true = (addFlags (packBcd 99) (packBcd 99) true).c := by decide

theorem witness_ConditionalBranches : (small 0#8 0#8 true).pc.getLsbD 0 = false := by decide

theorem witness_JumpsAndCalls : (small 0#8 0#8 false).pc.getLsbD 0 = false := by decide

theorem witness_PushAndPop :
    ({ State.reset with sp := 30#5 } : State).sp.toNat < 31 ∧ ({ State.reset with sp := 31#5 } : State).sp.toNat = 31 ∧
    ({ State.reset with sp := 1#5 } : State).sp ≠ 0#5 ∧ State.reset.sp = 0#5 := by decide

theorem witness_CallThenReturn :
    ({ State.reset with sp := 30#5 } : State).pc.getLsbD 0 = false ∧ ({ State.reset with sp := 30#5 } : State).sp.toNat < 31 := by
  decide

theorem witness_TableReads :
    tableReadPrevented writable.dev writable.tblptr = false ∧
    tableReadPrevented writable.dev (BitVec.ofNat 21 (writable.tblptr.toNat + 1)) = false := by decide

theorem witness_TableWrites :
    tableWritable writable.dev writable.tblptr = true ∧
    tableWritable writable.dev (BitVec.ofNat 21 (writable.tblptr.toNat + 1)) = true ∧
    tableWritable State.reset.dev State.reset.tblptr = false ∧
    tableWritable State.reset.dev (BitVec.ofNat 21 (State.reset.tblptr.toNat + 1)) = false := by decide

/-- A table write onto the word that follows it. -/
def ontoNext : State := { writable with tblptr := 0x102#21 }

theorem witness_SavedWordExecutesNext :
    ontoNext.pc.getLsbD 0 = false ∧ ontoNext.run = .running ∧ ontoNext.stackReset = none ∧ ontoNext.pcHidden = false ∧
    tableWritable ontoNext.dev ontoNext.tblptr = true ∧ tableWritable ontoNext.dev (ontoNext.tblptr + 1#21) = true ∧
    (∃ t, exec .tblwt ontoNext = .next t ∧ t.sample.env.resetRequest = none ∧ t.sample.env.wdtTimeout = false ∧
      t.sample.irqTaken = none ∧ decode (ontoNext.pmRead16 ontoNext.pc) (t.pmRead16 (ontoNext.pc + 2#21)) = .ok .nop) ∧
    ∃ t, exec .tblwtPreInc ontoNext = .next t ∧ t.sample.env.resetRequest = none ∧ t.sample.env.wdtTimeout = false ∧
      t.sample.irqTaken = none ∧ decode (ontoNext.pmRead16 ontoNext.pc) (t.pmRead16 (ontoNext.pc + 2#21)) = .ok .nop :=
  ⟨by decide, rfl, rfl, rfl, by decide, by decide, ⟨_, rfl, rfl, rfl, rfl, by decide⟩, _, rfl, rfl, rfl, rfl, by decide⟩

/-- The saved word is the first of GOTO 200h; its second word stands at 000002h. -/
def savedGoto : State := { State.reset with prefetch := some 0xEF00#16, pm := [(2, 0x01#8), (3, 0xF0#8)] }

theorem witness_SavedWordExecutesNext_twoWords :
    savedGoto.pc.getLsbD 0 = false ∧ savedGoto.run = .running ∧ savedGoto.stackReset = none ∧ savedGoto.pcHidden = false ∧
    savedGoto.prefetch = some 0xEF00#16 ∧ savedGoto.sample.env.resetRequest = none ∧ savedGoto.sample.env.wdtTimeout = false ∧
    savedGoto.sample.irqTaken = none ∧ decode 0xEF00#16 (savedGoto.pmRead16 (savedGoto.pc + 2#21)) = .ok (.goto 0x00100#20) := by
  decide

/-- One state for each refusal: 0002h, GOTO with a zero second word, LFSR with ff = 3, the hidden pc bit; and waking. -/
theorem witness_UndecodableWordsRefused :
    State.reset.sample.env.resetRequest = none ∧ State.reset.stackReset = none ∧ State.reset.sample.takeInterrupt.stackReset = none ∧
    State.reset.run = .running ∧ State.reset.sample.env.wdtTimeout = false ∧ State.reset.pcHidden = false ∧
    (let b := (State.reset.withFetchWord 16 0x0002).sample.takeInterrupt
     decode (b.prefetch.getD (b.pmRead16 b.pc)) (b.pmRead16 (b.pc + 2#21)) = .error .undefinedOpcode) ∧
    (let b := (State.reset.withFetchWord 16 0xEF00).sample.takeInterrupt
     decode (b.prefetch.getD (b.pmRead16 b.pc)) (b.pmRead16 (b.pc + 2#21)) = .error .badSecondWord) ∧
    (let b := (State.reset.withFetchWord 16 0xEE30).sample.takeInterrupt
     decode (b.prefetch.getD (b.pmRead16 b.pc)) (b.pmRead16 (b.pc + 2#21)) = .error .reservedFsr) ∧
    ({ State.reset with pcHidden := true } : State).pcHidden = true ∧
    (sampled { State.reset with run := .sleeping } { Inputs.quiet with wakeRequest := true }).sample.env.wakeRequest = true := by
  decide

theorem witness_FrameOfFileInstructions :
    fileOperand (.addwf 0x20#8 .file .virt) = some (0x20#8, .virt, .modify) ∧
    Memory.wf (small 1#8 2#8 false).ram = true ∧ (∃ t, exec (.addwf 0x20#8 .file .virt) (small 1#8 2#8 false) = .next t) ∧
    fileOperand (.movf 0x20#8 .w .virt) = some (0x20#8, .virt, .read) ∧
    ∃ t, exec (.movf 0x20#8 .w .virt) (small 1#8 2#8 false) = .next t := ⟨rfl, by decide, ⟨_, rfl⟩, rfl, _, rfl⟩

theorem witness_FrameOfMovff :
    Memory.wf fsrAt20.ram = true ∧ ∃ t, exec (.movff 0xFEE#12 0x345#12) fsrAt20 = .next t := ⟨by decide, _, rfl⟩

theorem witness_FrameOfOtherInstructions :
    fileOperand .tblwt = none ∧ (∀ f g, Instr.tblwt ≠ .movff f g) ∧ tableWritable writable.dev writable.tblptr = true ∧
    Memory.wf writable.pm = true ∧ (∃ t, exec .tblwt writable = .next t) ∧
    tableWritable writable.dev (writable.tblptr + 1#21) = true ∧ ∃ t, exec .tblwtPreInc writable = .next t :=
  ⟨rfl, nofun, by decide, by decide, ⟨_, rfl⟩, by decide, _, rfl⟩

/-- Both levels requested, both enabled. -/
def requested (hi : Bool) (sp : BitVec 5) : State :=
  { State.reset with
    gieh := true, giel := true, sp := sp, env := { Inputs.quiet with irqHigh := hi, irqLow := true },
    inputs := [{ Inputs.quiet with irqHigh := hi, irqLow := true }] }

theorem witness_InterruptTaken :
    (requested true 0#5).irqTaken = some .high ∧ (requested false 0#5).irqTaken = some .low ∧
    State.reset.irqTaken = none ∧ (requested true 30#5).sp.toNat < 31 ∧ (requested true 31#5).sp.toNat = 31 := by decide

theorem witness_StepEntersInterrupt :
    (requested true 30#5).run = .running ∧ (requested true 30#5).stackReset = none ∧ (requested true 30#5).pcHidden = false ∧
    (requested true 30#5).sp.toNat < 31 ∧ (requested true 30#5).sample.env.resetRequest = none ∧
    (requested true 30#5).sample.env.wdtTimeout = false ∧ (requested true 30#5).sample.irqTaken = some .high ∧
    decode ((requested true 30#5).pmRead16 IrqLevel.high.vector) ((requested true 30#5).pmRead16 (IrqLevel.high.vector + 2#21)) =
      .ok .nop := by decide

/-- A full stack, without STVRE and with it. -/
theorem witness_StepEntersInterrupt_full (stvre : Bool) :
    let s : State := { requested false 31#5 with dev := { Config.device with stvre := stvre } }
    s.run = .running ∧ s.stackReset = none ∧ s.pcHidden = false ∧ s.sp.toNat = 31 ∧ s.sample.env.resetRequest = none ∧
    s.sample.env.wdtTimeout = false ∧ s.sample.irqTaken = some .low ∧ s.dev.stvre = stvre ∧
    decode (s.pmRead16 IrqLevel.low.vector) (s.pmRead16 (IrqLevel.low.vector + 2#21)) = .ok .nop := by
  cases stvre <;> decide

theorem witness_InterruptThenReturn :
    (requested false 30#5).pc.getLsbD 0 = false ∧ (requested false 30#5).sp.toNat < 31 ∧
    (requested false 30#5).irqTaken = some .low := by decide

/-- A stack error resets this device. -/
def stackResets (sp : BitVec 5) : State := { State.reset with dev := { Config.device with stvre := true }, sp := sp }

theorem witness_StackErrorResets :
    (stackResets 31#5).dev.stvre = true ∧ (stackResets 31#5).sp.toNat = 31 ∧ (stackResets 0#5).sp = 0#5 ∧
    (∃ t, exec .push (stackResets 31#5) = .next t ∧ t.sample.env.resetRequest ≠ some .por) ∧
    (∃ t, exec .pop (stackResets 0#5) = .next t ∧ t.sample.env.resetRequest ≠ some .por) ∧
    (∃ t, exec .push (sampled (stackResets 31#5) { Inputs.quiet with resetRequest := some .por }) = .next t ∧
      t.sample.env.resetRequest = some .por) ∧
    ∃ t, exec .pop (sampled (stackResets 0#5) { Inputs.quiet with resetRequest := some .por }) = .next t ∧
      t.sample.env.resetRequest = some .por :=
  ⟨rfl, rfl, rfl, ⟨_, rfl, nofun⟩, ⟨_, rfl, nofun⟩, ⟨_, rfl, rfl⟩, _, rfl, rfl⟩

/-- Placing an instruction at the pc: the next step runs it as the first after reset (log entry 1). -/
theorem test_withFetchWord :
    (match step (State.reset.withFetchWord 16 0x0E5A) with
      | .next t => (t.w, t.pc)
      | .fault _ => (0#8, 0#21)
      | .refused _ => (0#8, 0#21)) = (0x5A#8, 2#21) := by decide

end Sys2Proof.Tests
end

section
/-! PROOFS. The statements of spec/10_state.md: the access RAM (R43) and the flags of an addition and of a subtraction
(R23, R24). -/

namespace Sys2Proof.Machine

open Sys2Proof

/-! ### The access RAM -/

/-- The first half of bank 0 is GPR whatever the device (R43). -/
theorem placeOf_eq_gpr_of_lt (dev : Device) {t : DataAddr} (h : t.toNat < 128) : placeOf dev t = .gpr :=
  if_pos h

/-- Bit 7 is the sign bit: set exactly in the bytes from 80h on. -/
theorem getLsbD_seven_eq_decide (v : Byte) : v.getLsbD 7 = decide (128 ≤ v.toNat) := by
  rw [← BitVec.msb_eq_decide v, BitVec.msb_eq_getLsbD_last]

/-- A file field below 80h with a = 0 names that very address (R84). -/
theorem State.ea_virt_toNat_of_lt (s : State) {f : Byte} (h : f.toNat < 128) : (s.ea f .virt).toNat = f.toNat := by
  have hbit : f.getLsbD 7 = false := (getLsbD_seven_eq_decide f).trans (decide_eq_false (by omega))
  have hea : s.ea f .virt = (0x0#4 ++ f).setWidth 12 := if_neg (by rw [hbit]; decide)
  rw [hea, BitVec.toNat_setWidth, BitVec.toNat_append, BitVec.toNat_ofNat, Nat.zero_mod,
    Nat.zero_shiftLeft, Nat.zero_or]
  omega

/-- Settles O13: the place rests on the address alone, and the address on the field alone. -/
theorem accessRamIsGpr : Obligations.AccessRamIsGpr := by
  refine ⟨fun dev t ht => placeOf_eq_gpr_of_lt dev ht, fun s f hf => ?_⟩
  have hea := s.ea_virt_toNat_of_lt hf
  exact ⟨hea, placeOf_eq_gpr_of_lt s.dev (hea ▸ hf)⟩

/-! ### The flags of an addition -/

/-- R23: the carries out of bits 6 and 7 differ exactly where the signed sum leaves the byte. With two clear sign bits
there is no carry out of bit 7, with two set ones there always is; with one of each the carries agree. The proof
splits on the two signs. -/
theorem carry_xor_eq_outsideByte (a b : Byte) (cin : Bool) :
    ((decide (128 ≤ a.toNat % 128 + b.toNat % 128 + cin.toNat)) ^^ (decide (256 ≤ a.toNat + b.toNat + cin.toNat))) =
      outsideByte (a.toInt + b.toInt + cin.toNat) := by
  have ha := a.isLt
  have hb := b.isLt
  have hc := cin.toNat_le
  rw [BitVec.toInt_eq_toNat_cond, BitVec.toInt_eq_toNat_cond, outsideByte, Bool.eq_iff_iff, Bool.xor_iff_ne]
  simp only [ne_eq, decide_eq_decide, decide_eq_true_eq]
  split <;> split <;> omega

/-- The zero test on the byte is the zero test on its value. -/
theorem beq_zero_eq_decide (v : Byte) : (v == 0#8) = decide (v.toNat = 0) := by
  rw [Bool.eq_iff_iff, beq_iff_eq, decide_eq_true_eq, BitVec.toNat_eq, BitVec.toNat_ofNat]

/-- `AddCore` in value terms (R23, R24). The definition tests a carry by `<`, the flags by `≤` of the successor, which
is the same by definition. -/
theorem addCore_eq (a b : Byte) (cin : Bool) :
    addCore a b cin = { val := sumByte a b cin, flags := addFlags a b cin } := by
  simp only [addCore, addFlags, ← carry_xor_eq_outsideByte, getLsbD_seven_eq_decide, beq_zero_eq_decide, sumByte]
  rfl

/-! ### A subtraction is the addition of the complement, with the borrow inverted -/

/-- Complementing a byte reflects its signed value about -1/2. -/
theorem toInt_not_byte (b : Byte) : (~~~b).toInt = -1 - b.toInt := by
  have hb := b.isLt
  rw [BitVec.toInt_eq_toNat_cond, BitVec.toInt_eq_toNat_cond, BitVec.toNat_not]
  split <;> split <;> omega

theorem toNat_bool_not (x : Bool) : (!x).toNat = 1 - x.toNat := by cases x <;> rfl

/-- `~b` is 255 - b, so the sum with the inverted borrow is the difference plus 256. -/
theorem sumByte_not_eq_diffByte (a b : Byte) (bin : Bool) : sumByte a (~~~b) (!bin) = diffByte a b bin := by
  have hb := b.isLt
  have hbin := bin.toNat_le
  rw [BitVec.toNat_eq, sumByte, diffByte, BitVec.toNat_ofNat, BitVec.toNat_ofInt, BitVec.toNat_not, toNat_bool_not]
  omega

/-- A carry of `a + ~b + (1 - bin)` out of bit 7 or 3 says that `a - b - bin` borrows nothing there. -/
theorem addFlags_not_eq_subFlags (a b : Byte) (bin : Bool) : addFlags a (~~~b) (!bin) = subFlags a b bin := by
  have hb := b.isLt
  have hbin := bin.toNat_le
  have hsigned : a.toInt + (~~~b).toInt + ((!bin).toNat : Int) = a.toInt - b.toInt - bin.toNat := by
    rw [toInt_not_byte, toNat_bool_not]; omega
  have hdc : 16 ≤ a.toNat % 16 + (~~~b).toNat % 16 + (!bin).toNat ↔ b.toNat % 16 + bin.toNat ≤ a.toNat % 16 := by
    rw [BitVec.toNat_not, toNat_bool_not]; omega
  have hc : 256 ≤ a.toNat + (~~~b).toNat + (!bin).toNat ↔ b.toNat + bin.toNat ≤ a.toNat := by
    rw [BitVec.toNat_not, toNat_bool_not]; omega
  simp only [addFlags, subFlags, sumByte_not_eq_diffByte, hsigned, hdc, hc]

/-- `SubCore` in value terms (R23, R24). -/
theorem subCore_eq (a b : Byte) (bin : Bool) :
    subCore a b bin = { val := diffByte a b bin, flags := subFlags a b bin } := by
  rw [subCore, addCore_eq, sumByte_not_eq_diffByte, addFlags_not_eq_subFlags]

/-- Settles O26: the addition by its carries, the subtraction as the addition of the complement. -/
theorem aluFlagDefinitions : Obligations.AluFlagDefinitions := by
  refine ⟨fun a b cin => ⟨addCore_eq a b cin, ?overflow, ?signOfSum⟩,
    fun a b bin => ⟨subCore_eq a b bin, ?signOfDifference⟩⟩
  case overflow => exact congrArg some (carry_xor_eq_outsideByte a b cin).symm
  case signOfSum => exact congrArg some (getLsbD_seven_eq_decide _).symm
  case signOfDifference => exact congrArg some (getLsbD_seven_eq_decide _).symm

end Sys2Proof.Machine
end

section
/-! PROOFS. The statements of spec/20_memory.md: the data address of a file operand (R84) and the unimplemented locations
(R91). -/

namespace Sys2Proof.Machine

open Sys2Proof

/-! ### The data address of a file operand -/

/-- A bank number before a file field, as a number. -/
theorem toNat_bank_append (bank : BitVec 4) (f : Byte) :
    ((bank ++ f).setWidth 12).toNat = 256 * bank.toNat + f.toNat := by
  rw [BitVec.setWidth_eq, toNat_append_add]
  omega

/-- A file field from 80h on with a = 0 names the upper half of bank 15 (R84). -/
theorem State.ea_virt_toNat_of_le (s : State) {f : Byte} (h : 128 ≤ f.toNat) : (s.ea f .virt).toNat = 0xF00 + f.toNat := by
  have hbit : f.getLsbD 7 = true := (getLsbD_seven_eq_decide f).trans (decide_eq_true h)
  have hea : s.ea f .virt = (0xF#4 ++ f).setWidth 12 := if_pos hbit
  rw [hea, toNat_bank_append, BitVec.toNat_ofNat]

/-- Settles O14: one bank number before the field, the BSR's with a = 1, 0 or 15 with a = 0. -/
theorem fileAddressForms : Obligations.FileAddressForms := fun s f =>
  ⟨toNat_bank_append s.bsr f, s.ea_virt_toNat_of_lt, s.ea_virt_toNat_of_le⟩

/-! ### The access functions at an unimplemented location (R91) -/

section Unimplemented

variable {s : State} {t : DataAddr}

theorem dataRead_of_unimplemented (h : s.place t = .unimplemented) (readClass : Bool) (pcSeen : ProgAddr) :
    dataRead readClass pcSeen t s = (0#8, s) := by
  rw [dataRead, h]

theorem dataWrite_of_unimplemented (h : s.place t = .unimplemented) (affects : Bool) (v : Byte) :
    dataWrite affects t v s = s := by
  rw [dataWrite, h]

theorem isInd_of_unimplemented (h : s.place t = .unimplemented) : s.isInd t = false := by
  rw [State.isInd, h]

/-- An unimplemented location named directly reaches itself, with no FSR to step first. -/
theorem operandBegin_of_unimplemented (h : s.place t = .unimplemented) :
    operandBegin t s = ({ named := t, target := t }, s) := by
  rw [operandBegin, h]

/-- An unimplemented location named directly leaves no FSR to step at the end. -/
theorem operandEnd_of_unimplemented {loc : Loc} (h : s.place loc.named = .unimplemented) (wrote : Bool) :
    operandEnd loc wrote s = s := by
  rw [operandEnd, h]

/-- A result stored at an unimplemented location is lost; its flags are written as usual, since R89 drops a result with its
flags only where the location reached is of the INDF family. -/
theorem storeResult_of_unimplemented {loc : Loc} (h : s.place loc.target = .unimplemented) (r : Alu) :
    storeResult loc r s = s.applyFlags r.flags := by
  have hdropped : dropped loc s = false := by rw [dropped, isInd_of_unimplemented h, Bool.and_false]
  rw [storeResult, hdropped, dataWrite_of_unimplemented h]
  rfl

end Unimplemented

/-! ### The file operand that reaches an unimplemented location, named directly or through an FSR -/

/-- Naming an operand leaves what every address denotes. -/
@[simp] theorem State.place_operandBegin (t0 t : DataAddr) (s : State) : (operandBegin t0 s).2.place t = s.place t :=
  State.place_congr _ _ _ (operandBegin_dev t0 s)

/-- `resultToFile` ends its operand as `byteDA` and `writeFile` do, by `storeResult`. -/
theorem resultToFile_eq_storeResult (u : FileUse) (f : Byte) (a : Access) (r : Byte) (fl : FlagUpdate) (s : State) :
    resultToFile u f a r fl s =
      operandEnd (operandRead u f a s).1 true
        (storeResult (operandRead u f a s).1 { val := r, flags := fl } (operandRead u f a s).2) := rfl

section Reached

variable {s : State} {f : Byte} {a : Access}

theorem operandValue_of_unimplemented (h : s.place (operandBegin (s.ea f a) s).1.target = .unimplemented) :
    operandValue f a s = 0#8 := by
  rw [← State.place_operandBegin (s.ea f a)] at h
  rw [operandValue, dataRead_of_unimplemented h]

/-- Whatever the class of the instruction, its read of the operand changes nothing. -/
theorem operandRead_of_unimplemented (h : s.place (operandBegin (s.ea f a) s).1.target = .unimplemented) (u : FileUse) :
    operandRead u f a s = operandBegin (s.ea f a) s := by
  rw [← State.place_operandBegin (s.ea f a)] at h
  cases u with
  | read => rw [operandRead, dataRead_of_unimplemented h]
  | modify => rw [operandRead, dataRead_of_unimplemented h]
  | write => rfl

theorem resultToFile_of_unimplemented (h : s.place (operandBegin (s.ea f a) s).1.target = .unimplemented)
    (u : FileUse) (r : Byte) (fl : FlagUpdate) :
    resultToFile u f a r fl s =
      operandEnd (operandBegin (s.ea f a) s).1 true ((operandBegin (s.ea f a) s).2.applyFlags fl) := by
  rw [resultToFile_eq_storeResult, operandRead_of_unimplemented h]
  rw [← State.place_operandBegin (s.ea f a)] at h
  rw [storeResult_of_unimplemented h]

theorem byteDA_file_of_unimplemented (h : s.place (operandBegin (s.ea f a) s).1.target = .unimplemented)
    (op : Byte → Byte → Bool → Alu) :
    byteDA f .file a op s =
      ((op 0#8 s.w s.status.c).val,
        operandEnd (operandBegin (s.ea f a) s).1 true
          ((operandBegin (s.ea f a) s).2.applyFlags (op 0#8 s.w s.status.c).flags)) := by
  rw [← State.place_operandBegin (s.ea f a)] at h
  simp only [byteDA, dataRead_of_unimplemented h, storeResult_of_unimplemented h]

/-- Named directly, there is no FSR to step: the flags alone change. -/
theorem byteDA_file_of_unimplemented_direct (h : s.place (s.ea f a) = .unimplemented) (op : Byte → Byte → Bool → Alu) :
    byteDA f .file a op s = ((op 0#8 s.w s.status.c).val, s.applyFlags (op 0#8 s.w s.status.c).flags) := by
  have hbegin := operandBegin_of_unimplemented h
  have hreached : s.place (operandBegin (s.ea f a) s).1.target = .unimplemented := by rw [hbegin]; exact h
  rw [byteDA_file_of_unimplemented hreached, hbegin, operandEnd_of_unimplemented]
  exact h

end Reached

/-- Settles O20: the access functions at the location, then the operand that names it and the one that reaches it. -/
theorem unimplementedReadsZero : Obligations.UnimplementedReadsZero := by
  intro s t ht
  refine ⟨dataRead_of_unimplemented ht, dataWrite_of_unimplemented ht, ?direct, ?reached⟩
  case direct =>
    rintro f a op rfl
    exact byteDA_file_of_unimplemented_direct ht op
  case reached =>
    rintro f a rfl
    exact ⟨operandValue_of_unimplemented ht, byteDA_file_of_unimplemented ht,
      fun u r fl _ => resultToFile_of_unimplemented ht u r fl⟩

end Sys2Proof.Machine
end

section
/-! PROOFS. The statements of spec/41_skip_mul_move.md: the multiplications MULWF (R248) and MULLW (R278). -/

namespace Sys2Proof

/-! ### The fields of an encoded word (R132) -/

theorem Word.low_encByteA (op : BitVec 7) (f : Byte) (a : Access) : (encByteA op f a).low = f := by
  have hf := f.isLt
  rw [BitVec.toNat_eq, Word.low_toNat, encByteA_toNat]
  omega

theorem Word.access_encByteA (op : BitVec 7) (f : Byte) (a : Access) : (encByteA op f a).access = a := by
  have hf := f.isLt
  rw [Word.access_eq, encByteA_toNat]
  cases a with
  | virt => exact if_neg (by rw [Access.bit_toNat, if_neg nofun]; omega)
  | banked => exact if_pos (by rw [Access.bit_toNat, if_pos rfl]; omega)

theorem Word.low_encLit (op k : Byte) : (encLit op k).low = k := by
  have hk := k.isLt
  rw [BitVec.toNat_eq, Word.low_toNat, encLit_toNat]
  omega

/-! ### The words of the multiplications (R135) -/

/-- A word below 1000h stands in the first row of the decode map. -/
theorem decode_eq_decodeRow0_of_lt {w1 : Word} (h : w1.toNat < 4096) (w2 : Word) : decode w1 w2 = decodeRow0 w1 := by
  have hrow : (w1.extractLsb' 12 4).toNat = 0 := by
    rw [BitVec.extractLsb'_toNat, Nat.shiftRight_eq_div_pow]
    omega
  rw [decode, hrow]
  rfl

/-- Bits 11:8 of a word, which choose the column of the first row. -/
theorem toNat_extractLsb'_eight_four (w : Word) : (w.extractLsb' 8 4).toNat = w.toNat / 256 % 16 := by
  rw [BitVec.extractLsb'_toNat, Nat.shiftRight_eq_div_pow]

/-- MULWF takes two columns of the row, one for each value of the access bit. -/
theorem decode_encByteA_mulwf (f : Byte) (a : Access) (w2 : Word) :
    decode (encByteA 0b0000001#7 f a) w2 = .ok (.mulwf f a) := by
  have hf := f.isLt
  have ha := a.bit.isLt
  have hword : (encByteA 0b0000001#7 f a).toNat = (2 + a.bit.toNat) * 256 + f.toNat := by
    rw [encByteA_toNat, BitVec.toNat_ofNat]
    omega
  have hcolumn : ((encByteA 0b0000001#7 f a).extractLsb' 8 4).toNat = 2 + a.bit.toNat := by
    rw [toNat_extractLsb'_eight_four, hword]
    omega
  rw [decode_eq_decodeRow0_of_lt (by omega), decodeRow0, hcolumn, Word.low_encByteA, Word.access_encByteA]
  cases a with
  | virt => rfl
  | banked => rfl

theorem decode_encLit_mullw (k : Byte) (w2 : Word) : decode (encLit 0b00001101#8 k) w2 = .ok (.mullw k) := by
  have hk := k.isLt
  have hword : (encLit 0b00001101#8 k).toNat = 13 * 256 + k.toNat := by
    rw [encLit_toNat, BitVec.toNat_ofNat]
  have hcolumn : ((encLit 0b00001101#8 k).extractLsb' 8 4).toNat = 13 := by
    rw [toNat_extractLsb'_eight_four, hword]
    omega
  rw [decode_eq_decodeRow0_of_lt (by omega), decodeRow0, hcolumn, Word.low_encLit]
  rfl

end Sys2Proof

namespace Sys2Proof.Machine

open Sys2Proof

/-! ### What reading an operand leaves unchanged (R87, R94, R99) -/

theorem State.eq_fsr_of_mem_fsrOf {s : State} {t : DataAddr} {r : Reg} (h : r ∈ s.fsrOf t) : ∃ n, r = .fsr n := by
  unfold State.fsrOf at h
  split at h
  case h_4 => exact absurd h List.not_mem_nil
  all_goals exact ⟨_, List.mem_singleton.mp h⟩

/-- The pieces of state that the read of a file operand may change: an FSR, the pc latches, the outputs and the count of
free values. -/
def Reg.changedByRead : List Reg :=
  [.fsr .fsr0, .fsr .fsr1, .fsr .fsr2, .pclath, .pclatu, .trace, .free]

theorem State.fsrOf_subset_changedByRead (s : State) (t : DataAddr) : s.fsrOf t ⊆ Reg.changedByRead := by
  intro r hr
  obtain ⟨n, rfl⟩ := State.eq_fsr_of_mem_fsrOf hr
  cases n <;> decide

theorem Place.reads_subset_changedByRead (u : FileUse) (p : Place) : p.reads u ⊆ Reg.changedByRead := by
  unfold Place.reads
  split
  case h_1 => cases u <;> decide
  case h_2 => decide
  case h_3 => decide
  case h_4 => exact List.nil_subset _

/-- The operand is named, read and ended; each of the three keeps its own registers and both memories. -/
theorem readNext_keeps (f : Byte) (a : Access) (s : State) :
    keepsAllBut Reg.changedByRead s (readNext f a s) ∧ (readNext f a s).ram = s.ram ∧ (readNext f a s).pm = s.pm := by
  obtain ⟨hbegin, hbeginRam, hbeginPm, -⟩ := operandBegin_keeps (s.ea f a) s
  obtain ⟨hread, hreadRam, hreadPm⟩ :=
    dataRead_keeps .read s.pc (operandBegin (s.ea f a) s).1.target (operandBegin (s.ea f a) s).2
  obtain ⟨hend, hendRam, hendPm⟩ :=
    operandEnd_keeps (operandRead .read f a s).1 false (operandRead .read f a s).2
  refine ⟨?_, hendRam.trans (hreadRam.trans hbeginRam), hendPm.trans (hreadPm.trans hbeginPm)⟩
  refine keepsAllBut_mono _ _ s _ (keepsAllBut_trans _ _ s _ _ (keepsAllBut_trans _ _ s _ _ hbegin hread) hend) ?_
  exact List.append_subset.mpr ⟨List.append_subset.mpr
    ⟨State.fsrOf_subset_changedByRead s _, Place.reads_subset_changedByRead .read _⟩,
    State.fsrOf_subset_changedByRead _ _⟩

/-- STATUS is its five flags. -/
theorem keepsAllBut.status_eq {rs : List Reg} {s t : State} (h : keepsAllBut rs s t) (hrs : ∀ r ∈ Reg.flags, r ∉ rs) :
    t.status = s.status := by
  have hn : t.status.n = s.status.n := h .flagN (hrs _ (by decide))
  have hov : t.status.ov = s.status.ov := h .flagOv (hrs _ (by decide))
  have hz : t.status.z = s.status.z := h .flagZ (hrs _ (by decide))
  have hdc : t.status.dc = s.status.dc := h .flagDc (hrs _ (by decide))
  have hc : t.status.c = s.status.c := h .flagC (hrs _ (by decide))
  cases ht : t.status
  cases hs : s.status
  simp_all

@[simp] theorem readNext_w (f : Byte) (a : Access) (s : State) : (readNext f a s).w = s.w :=
  (readNext_keeps f a s).1 .w (by decide)

@[simp] theorem readNext_status (f : Byte) (a : Access) (s : State) : (readNext f a s).status = s.status :=
  (readNext_keeps f a s).1.status_eq (by decide)

@[simp] theorem readNext_ram (f : Byte) (a : Access) (s : State) : (readNext f a s).ram = s.ram :=
  (readNext_keeps f a s).2.1

/-! ### The product (R39, R248, R278) -/

/-- The product of two bytes is below 2 ^ 16, so PRODH:PRODL holds all of it. -/
theorem State.setProduct_value (s : State) (x y : Byte) :
    256 * (s.setProduct x y).prodh.toNat + (s.setProduct x y).prodl.toNat = x.toNat * y.toNat := by
  have hfits : x.toNat * y.toNat < 2 ^ 8 * 2 ^ 8 := Nat.mul_lt_mul'' x.isLt y.isLt
  rw [State.setProduct_prodh, State.setProduct_prodl, BitVec.extractLsb'_toNat, BitVec.extractLsb'_toNat,
    BitVec.toNat_ofNat, Nat.shiftRight_eq_div_pow, Nat.shiftRight_zero]
  omega

/-- The model's read-class form is the read the statements speak of. -/
theorem readFile_eq (f : Byte) (a : Access) (s : State) : readFile f a s = (operandValue f a s, readNext f a s) := rfl

theorem exec_mulwf (f : Byte) (a : Access) (s : State) :
    exec (.mulwf f a) s = .next ((readNext f a s).setProduct s.w (operandValue f a s)) := by
  change execMulwf f a s = _
  rw [execMulwf, readFile_eq]

theorem exec_mullw (k : Byte) (s : State) : exec (.mullw k) s = .next (s.setProduct s.w k) := rfl

/-- Settles O34: the words are the encoder's; the product goes on top of the state after the operand's read, which has W,
the flags and data memory of the state before. -/
theorem multiplyResults : Obligations.MultiplyResults := by
  intro s f k a w2
  have hbit : (if a = .banked then 1#1 else 0#1) = a.bit := by cases a <;> rfl
  refine ⟨?mulwfWord, decode_encLit_mullw k w2, ?mulwf, ?mullw⟩
  case mulwfWord => rw [hbit]; exact decode_encByteA_mulwf f a w2
  case mulwf =>
    exact ⟨_, _, (readNext f a s).setProduct_value s.w (operandValue f a s), exec_mulwf f a s, readNext_w f a s,
      readNext_status f a s, readNext_ram f a s⟩
  case mullw => exact ⟨_, _, s.setProduct_value s.w k, exec_mullw k s⟩

end Sys2Proof.Machine
end

section
/-! PROOFS. The statements of spec/30_encoding.md: decode and encode agree in both directions, and which words are
rejected (R130 to R143). -/

namespace Sys2Proof

/-! ### The operand fields of an encoded word (R132) -/

theorem Word.low_encByteDA (op : BitVec 6) (f : Byte) (d : Dest) (a : Access) : (encByteDA op f d a).low = f := by
  have hf := f.isLt
  rw [BitVec.toNat_eq, Word.low_toNat, encByteDA_toNat]
  omega

theorem Word.dest_encByteDA (op : BitVec 6) (f : Byte) (d : Dest) (a : Access) : (encByteDA op f d a).dest = d := by
  have hf := f.isLt
  have ha := a.bit.isLt
  rw [Word.dest_eq, encByteDA_toNat]
  cases d with
  | w => exact if_neg (by rw [Dest.bit_toNat, if_neg nofun]; omega)
  | file => exact if_pos (by rw [Dest.bit_toNat, if_pos rfl]; omega)

theorem Word.access_encByteDA (op : BitVec 6) (f : Byte) (d : Dest) (a : Access) :
    (encByteDA op f d a).access = a := by
  have hf := f.isLt
  rw [Word.access_eq, encByteDA_toNat]
  cases a with
  | virt => exact if_neg (by rw [Access.bit_toNat, if_neg nofun]; omega)
  | banked => exact if_pos (by rw [Access.bit_toNat, if_pos rfl]; omega)

theorem Word.low_encBit (op : BitVec 4) (f : Byte) (b : BitVec 3) (a : Access) : (encBit op f b a).low = f := by
  have hf := f.isLt
  rw [BitVec.toNat_eq, Word.low_toNat, encBit_toNat]
  omega

theorem Word.bitNumber_encBit (op : BitVec 4) (f : Byte) (b : BitVec 3) (a : Access) :
    (encBit op f b a).bitNumber = b := by
  have hf := f.isLt
  have hb := b.isLt
  have ha := a.bit.isLt
  rw [BitVec.toNat_eq, Word.bitNumber_toNat, encBit_toNat]
  omega

theorem Word.access_encBit (op : BitVec 4) (f : Byte) (b : BitVec 3) (a : Access) : (encBit op f b a).access = a := by
  have hf := f.isLt
  rw [Word.access_eq, encBit_toNat]
  cases a with
  | virt => exact if_neg (by rw [Access.bit_toNat, if_neg nofun]; omega)
  | banked => exact if_pos (by rw [Access.bit_toNat, if_pos rfl]; omega)

theorem Word.low12_encLow12 (op : BitVec 4) (x : BitVec 12) : (encLow12 op x).low12 = x := by
  have hx := x.isLt
  rw [BitVec.toNat_eq, Word.low12_toNat, encLow12_toNat]
  omega

/-! ### The row and the column of a word in the decode map (R135) -/

theorem toNat_extractLsb'_twelve_four (w : Word) : (w.extractLsb' 12 4).toNat = w.toNat / 4096 := by
  have hw := w.isLt
  rw [BitVec.extractLsb'_toNat, Nat.shiftRight_eq_div_pow]
  omega

theorem toNat_extractLsb'_ten_two (w : Word) : (w.extractLsb' 10 2).toNat = w.toNat / 1024 % 4 := by
  rw [BitVec.extractLsb'_toNat, Nat.shiftRight_eq_div_pow]

theorem toNat_extractLsb'_nine_three (w : Word) : (w.extractLsb' 9 3).toNat = w.toNat / 512 % 8 := by
  rw [BitVec.extractLsb'_toNat, Nat.shiftRight_eq_div_pow]

theorem encByteDA_row (op : BitVec 6) (f : Byte) (d : Dest) (a : Access) :
    ((encByteDA op f d a).extractLsb' 12 4).toNat = op.toNat / 4 := by
  have hf := f.isLt
  have hd := d.bit.isLt
  have ha := a.bit.isLt
  rw [toNat_extractLsb'_twelve_four, encByteDA_toNat]
  omega

theorem encByteDA_column (op : BitVec 6) (f : Byte) (d : Dest) (a : Access) :
    ((encByteDA op f d a).extractLsb' 10 2).toNat = op.toNat % 4 := by
  have hf := f.isLt
  have hd := d.bit.isLt
  have ha := a.bit.isLt
  rw [toNat_extractLsb'_ten_two, encByteDA_toNat]
  omega

theorem encByteA_row (op : BitVec 7) (f : Byte) (a : Access) :
    ((encByteA op f a).extractLsb' 12 4).toNat = op.toNat / 8 := by
  have hf := f.isLt
  have ha := a.bit.isLt
  rw [toNat_extractLsb'_twelve_four, encByteA_toNat]
  omega

theorem encByteA_column (op : BitVec 7) (f : Byte) (a : Access) :
    ((encByteA op f a).extractLsb' 9 3).toNat = op.toNat % 8 := by
  have hf := f.isLt
  have ha := a.bit.isLt
  rw [toNat_extractLsb'_nine_three, encByteA_toNat]
  omega

theorem encBit_row (op : BitVec 4) (f : Byte) (b : BitVec 3) (a : Access) :
    ((encBit op f b a).extractLsb' 12 4).toNat = op.toNat := by
  have hf := f.isLt
  have hb := b.isLt
  have ha := a.bit.isLt
  rw [toNat_extractLsb'_twelve_four, encBit_toNat]
  omega

theorem encLit_row (op k : Byte) : ((encLit op k).extractLsb' 12 4).toNat = op.toNat / 16 := by
  have hk := k.isLt
  rw [toNat_extractLsb'_twelve_four, encLit_toNat]
  omega

theorem encLit_column (op k : Byte) : ((encLit op k).extractLsb' 8 4).toNat = op.toNat % 16 := by
  have hk := k.isLt
  rw [toNat_extractLsb'_eight_four, encLit_toNat]
  omega

theorem encLow12_row (op : BitVec 4) (x : BitVec 12) : ((encLow12 op x).extractLsb' 12 4).toNat = op.toNat := by
  have hx := x.isLt
  rw [toNat_extractLsb'_twelve_four, encLow12_toNat]
  omega

theorem encBr11_row (op : BitVec 5) (n : BitVec 11) : ((encBr11 op n).extractLsb' 12 4).toNat = op.toNat / 2 := by
  have hn := n.isLt
  rw [toNat_extractLsb'_twelve_four, encBr11_toNat]
  omega

/-! ### The decoder on an encoded word, format by format (R135, R136) -/

theorem decodeByteRow_encByteDA (op : BitVec 6) (f : Byte) (d : Dest) (a : Access)
    (i0 i1 i2 i3 : Byte → Dest → Access → Instr) :
    decodeByteRow (encByteDA op f d a) i0 i1 i2 i3 =
      .ok ((if op.toNat % 4 = 0 then i0 else if op.toNat % 4 = 1 then i1 else if op.toNat % 4 = 2 then i2 else i3)
        f d a) := by
  rw [decodeByteRow, encByteDA_column, Word.low_encByteDA, Word.dest_encByteDA, Word.access_encByteDA]
  split <;> simp_all

/-- DECF takes four columns of the first row, one for each value of the bits `d` and `a`. -/
theorem decode_encByteDA_decf (f : Byte) (d : Dest) (a : Access) (w2 : Word) :
    decode (encByteDA 0b000001#6 f d a) w2 = .ok (.decf f d a) := by
  have hcolumn : ((encByteDA 0b000001#6 f d a).extractLsb' 8 4).toNat = 4 + 2 * d.bit.toNat + a.bit.toNat := by
    have hf := f.isLt
    have hd := d.bit.isLt
    have ha := a.bit.isLt
    rw [toNat_extractLsb'_eight_four, encByteDA_toNat, BitVec.toNat_ofNat]
    omega
  rw [decode, encByteDA_row]
  change decodeRow0 _ = _
  rw [decodeRow0, hcolumn, Word.low_encByteDA, Word.dest_encByteDA, Word.access_encByteDA]
  cases d <;> cases a <;> rfl

theorem Word.getLsbD_eleven_encBr11 (op : BitVec 5) (n : BitVec 11) :
    (encBr11 op n).getLsbD 11 = decide (op.toNat % 2 = 1) := by
  have hn := n.isLt
  rw [BitVec.getLsbD, Nat.testBit_eq_decide_div_mod_eq, encBr11_toNat, decide_eq_decide]
  omega

theorem Word.low11_encBr11 (op : BitVec 5) (n : BitVec 11) : (encBr11 op n).extractLsb' 0 11 = n := by
  have hn := n.isLt
  rw [BitVec.toNat_eq, BitVec.extractLsb'_toNat, Nat.shiftRight_zero, encBr11_toNat]
  omega

theorem secondWordOk_encLow12 (x : BitVec 12) : secondWordOk (encLow12 0b1111#4 x) = true := by
  rw [secondWordOk, beq_iff_eq, BitVec.toNat_eq, encLow12_row]

/-- The word address of CALL and GOTO comes back from its two halves (R134). -/
theorem joinWordAddr_halves (op : Byte) (k : BitVec 20) :
    joinWordAddr (encLit op (k.extractLsb' 0 8)) (encLow12 0b1111#4 (k.extractLsb' 8 12)) = k := by
  have hk := k.isLt
  rw [joinWordAddr, Word.low12_encLow12, Word.low_encLit, BitVec.setWidth_eq, BitVec.toNat_eq, toNat_append_add,
    BitVec.extractLsb'_toNat, BitVec.extractLsb'_toNat, Nat.shiftRight_eq_div_pow, Nat.shiftRight_zero]
  omega

/-! LFSR's first word holds `ff` and the upper four bits of the literal (R132). -/

section Lfsr

variable (ff : BitVec 2) (x : BitVec 4)

theorem lfsrWord_toNat : ((0b1110111000#10 ++ ff ++ x).setWidth 16).toNat = 0xEE00 + ff.toNat * 16 + x.toNat := by
  have hff := ff.isLt
  have hx := x.isLt
  rw [BitVec.toNat_setWidth, toNat_append_add, toNat_append_add, BitVec.toNat_ofNat]
  omega

theorem lfsrWord_row : (((0b1110111000#10 ++ ff ++ x).setWidth 16).extractLsb' 12 4).toNat = 14 := by
  rw [toNat_extractLsb'_twelve_four, lfsrWord_toNat]
  omega

theorem lfsrWord_column : (((0b1110111000#10 ++ ff ++ x).setWidth 16).extractLsb' 8 4).toNat = 14 := by
  rw [toNat_extractLsb'_eight_four, lfsrWord_toNat]
  omega

theorem lfsrWord_reserved : ((0b1110111000#10 ++ ff ++ x).setWidth 16).extractLsb' 6 2 = 0#2 := by
  rw [BitVec.toNat_eq, BitVec.extractLsb'_toNat, Nat.shiftRight_eq_div_pow, lfsrWord_toNat, BitVec.toNat_ofNat]
  omega

theorem lfsrWord_ff : ((0b1110111000#10 ++ ff ++ x).setWidth 16).extractLsb' 4 2 = ff := by
  rw [BitVec.toNat_eq, BitVec.extractLsb'_toNat, Nat.shiftRight_eq_div_pow, lfsrWord_toNat]
  omega

theorem lfsrWord_high : ((0b1110111000#10 ++ ff ++ x).setWidth 16).extractLsb' 0 4 = x := by
  rw [BitVec.toNat_eq, BitVec.extractLsb'_toNat, Nat.shiftRight_zero, lfsrWord_toNat]
  omega

end Lfsr

theorem encLit_high (op k : Byte) : (encLit op k).extractLsb' 8 8 = op := by
  have hk := k.isLt
  rw [BitVec.toNat_eq, BitVec.extractLsb'_toNat, Nat.shiftRight_eq_div_pow, encLit_toNat]
  omega

theorem decodeLfsr_encode (ff : BitVec 2) (k : DataAddr) (hff : ff ≠ 3#2) :
    decodeLfsr ((0b1110111000#10 ++ ff ++ k.extractLsb' 8 4).setWidth 16) (encLit 0b11110000#8 (k.extractLsb' 0 8)) =
      .ok (.lfsr ff k) := by
  have hk := k.isLt
  have hliteral : (k.extractLsb' 8 4 ++ k.extractLsb' 0 8).setWidth 12 = k := by
    rw [BitVec.setWidth_eq, BitVec.toNat_eq, toNat_append_add, BitVec.extractLsb'_toNat, BitVec.extractLsb'_toNat,
      Nat.shiftRight_eq_div_pow, Nat.shiftRight_zero]
    omega
  rw [decodeLfsr, lfsrWord_reserved, lfsrWord_ff, lfsrWord_high, encLit_high, Word.low_encLit, hliteral]
  simp [hff]

/-- The decoder reads an instruction from its own words; a one-word instruction whatever word follows it. -/
theorem decode_encode (i : Instr) (h : i.wf = true) (w2 : Word) :
    decode ((encode i).headD 0#16) ((encode i).getD 1 w2) = .ok i := by
  cases i with
  | addwf f d a | addwfc f d a | andwf f d a | comf f d a | incf f d a | iorwf f d a | movf f d a | rlcf f d a
  | rlncf f d a | rrcf f d a | rrncf f d a | subfwb f d a | subwf f d a | subwfb f d a | swapf f d a | xorwf f d a
  | decfsz f d a | dcfsnz f d a | incfsz f d a | icfsnz f d a =>
    change decode (encByteDA _ f d a) w2 = _
    rw [decode, encByteDA_row]
    exact decodeByteRow_encByteDA _ f d a _ _ _ _
  | decf f d a => exact decode_encByteDA_decf f d a w2
  | mulwf f a => exact decode_encByteA_mulwf f a w2
  | movwf f a | clrf f a | negf f a | setf f a | cpfseq f a | cpfsgt f a | cpfslt f a | tstfsz f a =>
    change decode (encByteA _ f a) w2 = _
    rw [decode, encByteA_row]
    change decodeRow6 _ = _
    rw [decodeRow6, encByteA_column, Word.low_encByteA, Word.access_encByteA]
    rfl
  | bcf f b a | bsf f b a | btg f b a | btfsc f b a | btfss f b a =>
    change decode (encBit _ f b a) w2 = _
    rw [decode, encBit_row, Word.low_encBit, Word.bitNumber_encBit, Word.access_encBit]
    rfl
  | addlw k | andlw k | iorlw k | movlw k | sublw k | xorlw k | mullw k | movlb k | retlw k =>
    change decode (encLit _ k) w2 = _
    rw [decode, encLit_row]
    change decodeRow0 _ = _
    rw [decodeRow0, encLit_column, Word.low_encLit]
    rfl
  | bc n | bn n | bnc n | bnn n | bnv n | bnz n | bv n | bz n =>
    change decode (encLit _ n) w2 = _
    rw [decode, encLit_row]
    change decodeRow14 _ _ = _
    rw [decodeRow14, encLit_column, Word.low_encLit]
    rfl
  | bra n | rcall n =>
    change decode (encBr11 _ n) w2 = _
    rw [decode, encBr11_row, Word.getLsbD_eleven_encBr11, Word.low11_encBr11]
    rfl
  | nopx x =>
    change decode (encLow12 _ x) w2 = _
    rw [decode, encLow12_row, Word.low12_encLow12]
    rfl
  | ret fast | retfie fast => cases fast <;> rfl
  | daw | nop | clrwdt | halt | reset | sleep | trap | tret | push | pop | tblrd | tblrdPostInc | tblrdPostDec
  | tblrdPreInc | tblwt | tblwtPostInc | tblwtPostDec | tblwtPreInc => rfl
  | movff f g =>
    change decode (encLow12 _ f) (encLow12 _ g) = _
    rw [decode, encLow12_row, secondWordOk_encLow12, Word.low12_encLow12, Word.low12_encLow12]
    rfl
  | call k fast =>
    change decode (encLit (0b1110110#7 ++ BitVec.ofBool fast) (k.extractLsb' 0 8)) (encLow12 _ (k.extractLsb' 8 12)) = _
    rw [decode, encLit_row]
    cases fast <;> (change decodeRow14 _ _ = _; rw [decodeRow14, encLit_column, secondWordOk_encLow12, joinWordAddr_halves]; rfl)
  | goto k =>
    change decode (encLit _ (k.extractLsb' 0 8)) (encLow12 _ (k.extractLsb' 8 12)) = _
    rw [decode, encLit_row]
    change decodeRow14 _ _ = _
    rw [decodeRow14, encLit_column, secondWordOk_encLow12, joinWordAddr_halves]
    rfl
  | lfsr ff k =>
    have hff : ff ≠ 3#2 := by simpa [Instr.wf] using h
    change decode ((0b1110111000#10 ++ ff ++ k.extractLsb' 8 4).setWidth 16) (encLit _ (k.extractLsb' 0 8)) = _
    rw [decode, lfsrWord_row]
    change decodeRow14 _ _ = _
    rw [decodeRow14, lfsrWord_column]
    exact decodeLfsr_encode ff k hff

/-! ### A decoded word is the encoding of what it decodes to -/

/-- `i` is an instruction and `ws` are its words. -/
def EncodesTo (i : Instr) (ws : List Word) : Prop := i.wf = true ∧ encode i = ws

theorem Word.dest_bit_toNat (w : Word) : w.dest.bit.toNat = w.toNat / 512 % 2 := by
  rw [Word.dest_eq, Dest.bit_toNat]
  split <;> simp <;> omega

theorem Word.access_bit_toNat (w : Word) : w.access.bit.toNat = w.toNat / 256 % 2 := by
  rw [Word.access_eq, Access.bit_toNat]
  split <;> simp <;> omega

section Fields

variable {i : Instr} {w : Word}

theorem EncodesTo.of_encByteDA {op : BitVec 6} (hwf : i.wf = true) (henc : encode i = [encByteDA op w.low w.dest w.access])
    (h : w.toNat / 1024 = op.toNat) : EncodesTo i [w] := by
  have hword : encByteDA op w.low w.dest w.access = w := by
    rw [BitVec.toNat_eq, encByteDA_toNat, Word.low_toNat, Word.dest_bit_toNat, Word.access_bit_toNat]
    omega
  exact ⟨hwf, by rw [henc, hword]⟩

theorem EncodesTo.of_encByteA {op : BitVec 7} (hwf : i.wf = true) (henc : encode i = [encByteA op w.low w.access])
    (h : w.toNat / 512 = op.toNat) : EncodesTo i [w] := by
  have hword : encByteA op w.low w.access = w := by
    rw [BitVec.toNat_eq, encByteA_toNat, Word.low_toNat, Word.access_bit_toNat]
    omega
  exact ⟨hwf, by rw [henc, hword]⟩

theorem EncodesTo.of_encBit {op : BitVec 4} (hwf : i.wf = true)
    (henc : encode i = [encBit op w.low w.bitNumber w.access]) (h : w.toNat / 4096 = op.toNat) : EncodesTo i [w] := by
  have hword : encBit op w.low w.bitNumber w.access = w := by
    rw [BitVec.toNat_eq, encBit_toNat, Word.low_toNat, Word.bitNumber_toNat, Word.access_bit_toNat]
    omega
  exact ⟨hwf, by rw [henc, hword]⟩

theorem encLit_low {op : Byte} (h : w.toNat / 256 = op.toNat) : encLit op w.low = w := by
  rw [BitVec.toNat_eq, encLit_toNat, Word.low_toNat]
  omega

theorem encLow12_low12 {op : BitVec 4} (h : w.toNat / 4096 = op.toNat) : encLow12 op w.low12 = w := by
  rw [BitVec.toNat_eq, encLow12_toNat, Word.low12_toNat]
  omega

theorem EncodesTo.of_encLit {op : Byte} (hwf : i.wf = true) (henc : encode i = [encLit op w.low])
    (h : w.toNat / 256 = op.toNat) : EncodesTo i [w] :=
  ⟨hwf, by rw [henc, encLit_low h]⟩

theorem EncodesTo.of_const {n : Nat} (h : w.toNat = n) (hwf : i.wf = true) (henc : encode i = [BitVec.ofNat 16 n]) :
    EncodesTo i [w] :=
  ⟨hwf, by rw [henc, ← h, BitVec.ofNat_toNat, BitVec.setWidth_eq]⟩

/-- A row of four `BYTE_DA` instructions is sound where bits 15:10 of their encodings are the row and the column. -/
theorem encodesTo_of_decodeByteRow {row : BitVec 4} {i0 i1 i2 i3 : Byte → Dest → Access → Instr}
    (henc : ∀ f d a, EncodesTo (i0 f d a) [encByteDA (row ++ 0#2) f d a] ∧
      EncodesTo (i1 f d a) [encByteDA (row ++ 1#2) f d a] ∧
      EncodesTo (i2 f d a) [encByteDA (row ++ 2#2) f d a] ∧
      EncodesTo (i3 f d a) [encByteDA (row ++ 3#2) f d a])
    (hrow : w.toNat / 4096 = row.toNat) (h : decodeByteRow w i0 i1 i2 i3 = .ok i) : EncodesTo i [w] := by
  obtain ⟨⟨hwf0, henc0⟩, ⟨hwf1, henc1⟩, ⟨hwf2, henc2⟩, hwf3, henc3⟩ := henc w.low w.dest w.access
  rw [decodeByteRow, toNat_extractLsb'_ten_two] at h
  split at h <;> cases h
  · exact .of_encByteDA hwf0 henc0 (by rw [toNat_append_add, BitVec.toNat_ofNat]; omega)
  · exact .of_encByteDA hwf1 henc1 (by rw [toNat_append_add, BitVec.toNat_ofNat]; omega)
  · exact .of_encByteDA hwf2 henc2 (by rw [toNat_append_add, BitVec.toNat_ofNat]; omega)
  · simp only [imp_false] at *
    exact .of_encByteDA hwf3 henc3 (by rw [toNat_append_add, BitVec.toNat_ofNat]; omega)

theorem encodesTo_of_decodeCtrl (hrow : w.toNat / 256 = 0) (h : decodeCtrl w = .ok i) : EncodesTo i [w] := by
  have hlow : w.low.toNat = w.toNat := by rw [Word.low_toNat]; omega
  rw [decodeCtrl, hlow] at h
  split at h <;> cases h
  all_goals exact .of_const (by assumption) rfl rfl

theorem encodesTo_of_decodeRow0 (hrow : w.toNat / 4096 = 0) (h : decodeRow0 w = .ok i) : EncodesTo i [w] := by
  have hw := w.isLt
  rw [decodeRow0, toNat_extractLsb'_eight_four] at h
  split at h
  case h_1 => exact encodesTo_of_decodeCtrl (by omega) h
  case h_3 | h_4 =>
    cases h
    exact .of_encByteA rfl rfl (by rw [BitVec.toNat_ofNat]; omega)
  case h_5 | h_6 | h_7 | h_8 =>
    cases h
    exact .of_encByteDA rfl rfl (by rw [BitVec.toNat_ofNat]; omega)
  case h_16 =>
    cases h
    simp only [imp_false] at *
    exact .of_encLit rfl rfl (by rw [BitVec.toNat_ofNat]; omega)
  all_goals
    cases h
    exact .of_encLit rfl rfl (by rw [BitVec.toNat_ofNat]; omega)

theorem encodesTo_of_decodeRow6 (hrow : w.toNat / 4096 = 6) (h : decodeRow6 w = .ok i) : EncodesTo i [w] := by
  have hw := w.isLt
  rw [decodeRow6, toNat_extractLsb'_nine_three] at h
  split at h <;> cases h
  case h_8 =>
    simp only [imp_false] at *
    exact .of_encByteA rfl rfl (by rw [BitVec.toNat_ofNat]; omega)
  all_goals exact .of_encByteA rfl rfl (by rw [BitVec.toNat_ofNat]; omega)

end Fields

theorem secondWordOk_iff (w2 : Word) : secondWordOk w2 = true ↔ w2.toNat / 4096 = 15 := by
  rw [secondWordOk, beq_iff_eq, BitVec.toNat_eq, toNat_extractLsb'_twelve_four]
  rfl

/-- The halves of the word address of CALL and GOTO are the operand bits of the two words (R134). -/
theorem joinWordAddr_low (w1 w2 : Word) : (joinWordAddr w1 w2).extractLsb' 0 8 = w1.low := by
  have hw := w1.low.isLt
  rw [joinWordAddr, BitVec.setWidth_eq, BitVec.toNat_eq, BitVec.extractLsb'_toNat, Nat.shiftRight_zero, toNat_append_add]
  omega

theorem joinWordAddr_high (w1 w2 : Word) : (joinWordAddr w1 w2).extractLsb' 8 12 = w2.low12 := by
  have hw := w1.low.isLt
  have hw2 := w2.low12.isLt
  rw [joinWordAddr, BitVec.setWidth_eq, BitVec.toNat_eq, BitVec.extractLsb'_toNat, Nat.shiftRight_eq_div_pow, toNat_append_add]
  omega

theorem encodesTo_call {w1 w2 : Word} {fast : Bool} (hw1 : w1.toNat / 256 = 0xEC + fast.toNat) (hw2 : w2.toNat / 4096 = 15) :
    EncodesTo (.call (joinWordAddr w1 w2) fast) [w1, w2] := by
  have hfirst : encLit (0b1110110#7 ++ BitVec.ofBool fast) w1.low = w1 := encLit_low (by
    rw [hw1, toNat_append_add, BitVec.toNat_ofNat, BitVec.toNat_ofBool]
    omega)
  have hsecond : encLow12 0b1111#4 w2.low12 = w2 := encLow12_low12 hw2
  refine ⟨rfl, ?_⟩
  change [encLit (0b1110110#7 ++ BitVec.ofBool fast) _, _] = _
  rw [joinWordAddr_low, joinWordAddr_high, hfirst, hsecond]

theorem encodesTo_goto {w1 w2 : Word} (hw1 : w1.toNat / 256 = 0xEF) (hw2 : w2.toNat / 4096 = 15) :
    EncodesTo (.goto (joinWordAddr w1 w2)) [w1, w2] := by
  refine ⟨rfl, ?_⟩
  rw [encode, joinWordAddr_low, joinWordAddr_high, encLit_low hw1, encLow12_low12 hw2]

/-- LFSR's words are put together again from `ff` and the literal. -/
theorem encodesTo_of_decodeLfsr {w1 w2 : Word} {i : Instr} (hw1 : w1.toNat / 256 = 0xEE) (h : decodeLfsr w1 w2 = .ok i) :
    EncodesTo i [w1, w2] := by
  rw [decodeLfsr] at h
  split_ifs at h with hreserved hff hsecond
  cases h
  simp only [bne_iff_ne, ne_eq, not_not, beq_iff_eq] at hreserved hff hsecond
  have hbits : w1.toNat / 64 % 4 = 0 := by
    rw [BitVec.toNat_eq, BitVec.extractLsb'_toNat, Nat.shiftRight_eq_div_pow] at hreserved
    exact hreserved
  have hliteral : ((w1.extractLsb' 0 4 ++ w2.low).setWidth 12).toNat = w1.toNat % 16 * 256 + w2.low.toNat := by
    rw [BitVec.setWidth_eq, toNat_append_add, BitVec.extractLsb'_toNat, Nat.shiftRight_zero]
    rfl
  have hlow := w2.low.isLt
  refine ⟨by simpa [Instr.wf] using hff, ?_⟩
  rw [encode]
  congr 1
  · rw [BitVec.toNat_eq, lfsrWord_toNat, BitVec.extractLsb'_toNat, BitVec.extractLsb'_toNat, hliteral,
      Nat.shiftRight_eq_div_pow, Nat.shiftRight_eq_div_pow]
    omega
  · have hk : ((w1.extractLsb' 0 4 ++ w2.low).setWidth 12).extractLsb' 0 8 = w2.low := by
      rw [BitVec.toNat_eq, BitVec.extractLsb'_toNat, Nat.shiftRight_zero, hliteral]
      omega
    have hw2 : w2.toNat / 256 = 0xF0 := by
      have hlt := w2.isLt
      rw [BitVec.toNat_eq, BitVec.extractLsb'_toNat, Nat.shiftRight_eq_div_pow] at hsecond
      change _ = 0xF0 at hsecond
      omega
    rw [hk, encLit_low hw2]

theorem encodesTo_of_decodeRow14 {w1 w2 : Word} {i : Instr} (hrow : w1.toNat / 4096 = 14) (h : decodeRow14 w1 w2 = .ok i) :
    EncodesTo i (if isTwoWord w1 then [w1, w2] else [w1]) := by
  have hw := w1.isLt
  rw [isTwoWord_eq]
  rw [decodeRow14, toNat_extractLsb'_eight_four] at h
  split at h
  case h_9 | h_10 =>
    rw [decide_eq_true (by omega)]
    split_ifs at h with hsecond
    cases h
    exact encodesTo_call (by simp only [Bool.toNat_true, Bool.toNat_false]; omega) ((secondWordOk_iff w2).mp hsecond)
  case h_11 =>
    rw [decide_eq_true (by omega)]
    exact encodesTo_of_decodeLfsr (by omega) h
  case h_12 =>
    rw [decide_eq_true (by omega)]
    split_ifs at h with hsecond
    cases h
    exact encodesTo_goto (by omega) ((secondWordOk_iff w2).mp hsecond)
  case h_13 => cases h
  all_goals
    rw [decide_eq_false (by omega)]
    cases h
    exact .of_encLit rfl rfl (by rw [BitVec.toNat_ofNat]; omega)

theorem encodesTo_movff {w1 w2 : Word} (hw1 : w1.toNat / 4096 = 0xC) (hw2 : w2.toNat / 4096 = 15) :
    EncodesTo (.movff w1.low12 w2.low12) [w1, w2] := by
  refine ⟨rfl, ?_⟩
  rw [encode, encLow12_low12 hw1, encLow12_low12 hw2]

/-- The row `1101`: bit 11 chooses between BRA and RCALL. -/
theorem encodesTo_of_decodeRow13 {w : Word} (hw1 : w.toNat / 4096 = 13) :
    EncodesTo (if w.getLsbD 11 then .rcall (w.extractLsb' 0 11) else .bra (w.extractLsb' 0 11)) [w] := by
  have hbit : w.getLsbD 11 = decide (w.toNat / 2048 % 2 = 1) := by
    rw [BitVec.getLsbD, Nat.testBit_eq_decide_div_mod_eq]
  have hword : ∀ op : BitVec 5, w.toNat / 2048 = op.toNat → encBr11 op (w.extractLsb' 0 11) = w := by
    intro op hop
    rw [BitVec.toNat_eq, encBr11_toNat, BitVec.extractLsb'_toNat, Nat.shiftRight_zero]
    omega
  rw [hbit]
  split_ifs with hset
  · rw [decide_eq_true_eq] at hset
    exact ⟨rfl, by rw [encode, hword 0b11011#5 (by rw [BitVec.toNat_ofNat]; omega)]⟩
  · rw [decide_eq_true_eq] at hset
    exact ⟨rfl, by rw [encode, hword 0b11010#5 (by rw [BitVec.toNat_ofNat]; omega)]⟩

/-- The row is bits 15:12 of the first word; only the rows `1100` and `1110` hold two-word instructions. -/
theorem encodesTo_of_decode {w1 w2 : Word} {i : Instr} (h : decode w1 w2 = .ok i) :
    EncodesTo i (if isTwoWord w1 then [w1, w2] else [w1]) := by
  have hw := w1.isLt
  by_cases hrow14 : w1.toNat / 4096 = 14
  · rw [decode, toNat_extractLsb'_twelve_four, hrow14] at h
    exact encodesTo_of_decodeRow14 hrow14 h
  by_cases hrow12 : w1.toNat / 4096 = 12
  · rw [decode, toNat_extractLsb'_twelve_four, hrow12] at h
    change (if secondWordOk w2 then _ else _) = _ at h
    split_ifs at h with hsecond
    cases h
    rw [isTwoWord_eq, decide_eq_true (.inl hrow12)]
    exact encodesTo_movff hrow12 ((secondWordOk_iff w2).mp hsecond)
  rw [isTwoWord_eq, decide_eq_false (by omega)]
  rw [decode, toNat_extractLsb'_twelve_four] at h
  split at h
  case h_1 hrow => exact encodesTo_of_decodeRow0 hrow h
  case h_2 hrow =>
    exact encodesTo_of_decodeByteRow (row := 1#4) (fun _ _ _ => ⟨⟨rfl, rfl⟩, ⟨rfl, rfl⟩, ⟨rfl, rfl⟩, rfl, rfl⟩) hrow h
  case h_3 hrow =>
    exact encodesTo_of_decodeByteRow (row := 2#4) (fun _ _ _ => ⟨⟨rfl, rfl⟩, ⟨rfl, rfl⟩, ⟨rfl, rfl⟩, rfl, rfl⟩) hrow h
  case h_4 hrow =>
    exact encodesTo_of_decodeByteRow (row := 3#4) (fun _ _ _ => ⟨⟨rfl, rfl⟩, ⟨rfl, rfl⟩, ⟨rfl, rfl⟩, rfl, rfl⟩) hrow h
  case h_5 hrow =>
    exact encodesTo_of_decodeByteRow (row := 4#4) (fun _ _ _ => ⟨⟨rfl, rfl⟩, ⟨rfl, rfl⟩, ⟨rfl, rfl⟩, rfl, rfl⟩) hrow h
  case h_6 hrow =>
    exact encodesTo_of_decodeByteRow (row := 5#4) (fun _ _ _ => ⟨⟨rfl, rfl⟩, ⟨rfl, rfl⟩, ⟨rfl, rfl⟩, rfl, rfl⟩) hrow h
  case h_7 hrow => exact encodesTo_of_decodeRow6 hrow h
  case h_8 | h_9 | h_10 | h_11 | h_12 =>
    cases h
    exact .of_encBit rfl rfl (by rw [BitVec.toNat_ofNat]; omega)
  case h_13 hrow => exact absurd hrow hrow12
  case h_14 hrow =>
    cases h
    exact encodesTo_of_decodeRow13 hrow
  case h_15 hrow => exact absurd hrow hrow14
  case h_16 =>
    cases h
    refine ⟨rfl, ?_⟩
    simp only [imp_false] at *
    rw [if_neg nofun, encode, encLow12_low12]
    rw [BitVec.toNat_ofNat]
    omega

/-- Settles O2, row by row of the decode map. -/
theorem encodeAfterDecode : Obligations.EncodeAfterDecode := fun _ _ _ h => encodesTo_of_decode h

/-! ### Bytes -/

theorem decodeBytes_bytesOfWord_append {w1 : Word} {i : Instr} (hone : isTwoWord w1 = false)
    (h : decode w1 0#16 = .ok i) (rest : List Byte) : decodeBytes (bytesOfWord w1 ++ rest) = .ok (i, rest) := by
  simp [bytesOfWord, decodeBytes, wordOfBytes_bytesOfWord, hone, h]

theorem decodeBytes_bytesOfWord_two {w1 w2 : Word} {i : Instr} (htwo : isTwoWord w1 = true)
    (h : decode w1 w2 = .ok i) (rest : List Byte) :
    decodeBytes (bytesOfWord w1 ++ (bytesOfWord w2 ++ rest)) = .ok (i, rest) := by
  simp [bytesOfWord, decodeBytes, wordOfBytes_bytesOfWord, htwo, h]

/-- Settles O1: the decoder reads the words back, and by the converse (O2) those words are all the instruction's. -/
theorem decodeAfterEncode : Obligations.DecodeAfterEncode := by
  intro i rest hwf
  have hdec := decode_encode i hwf 0#16
  obtain ⟨-, henc⟩ := encodesTo_of_decode hdec
  generalize (encode i).headD 0#16 = w1 at hdec henc
  cases htwo : isTwoWord w1 with
  | false =>
    rw [htwo, if_neg nofun] at henc
    rw [henc] at hdec
    rw [encodeBytes, henc, List.flatMap_cons, List.flatMap_nil, List.append_nil]
    exact decodeBytes_bytesOfWord_append htwo hdec rest
  | true =>
    rw [htwo, if_pos rfl] at henc
    generalize (encode i).getD 1 0#16 = w2 at hdec henc
    rw [encodeBytes, henc, List.flatMap_cons, List.flatMap_cons, List.flatMap_nil, List.append_nil, List.append_assoc]
    exact decodeBytes_bytesOfWord_two htwo hdec rest

/-- Settles O3: each of the ten examples is a closed evaluation of the decoder. -/
theorem decodesWrittenOutWords : Obligations.DecodesWrittenOutWords := by
  unfold Obligations.DecodesWrittenOutWords
  decide

/-! ### Rejected words (R141 to R143) -/

theorem decodeByteRow_ne_error (w : Word) (i0 i1 i2 i3 : Byte → Dest → Access → Instr) (e : DecodeError) :
    decodeByteRow w i0 i1 i2 i3 ≠ .error e := by
  rw [decodeByteRow]
  split <;> nofun

theorem decodeRow6_ne_error (w : Word) (e : DecodeError) : decodeRow6 w ≠ .error e := by
  rw [decodeRow6]
  split <;> nofun

theorem decodeCtrl_undefined_iff (w : Word) :
    decodeCtrl w = .error .undefinedOpcode ↔
      (w.low.toNat = 0x02 ∨ (0x14 ≤ w.low.toNat ∧ w.low.toNat ≤ 0xDF) ∨ (0xE2 ≤ w.low.toNat ∧ w.low.toNat ≤ 0xFE)) := by
  have hlow := w.low.isLt
  rw [decodeCtrl]
  split
  case h_23 =>
    refine iff_of_true rfl ?_
    simp only [imp_false] at *
    omega
  all_goals exact iff_of_false nofun (by omega)

theorem decodeRow0_undefined_iff (w : Word) (hrow : w.toNat / 4096 = 0) :
    decodeRow0 w = .error .undefinedOpcode ↔
      (w.toNat = 0x0002 ∨ (0x0014 ≤ w.toNat ∧ w.toNat ≤ 0x00DF) ∨ (0x00E2 ≤ w.toNat ∧ w.toNat ≤ 0x00FE)) := by
  rw [decodeRow0, toNat_extractLsb'_eight_four]
  split
  case h_1 =>
    have hlow : w.low.toNat = w.toNat := by rw [Word.low_toNat]; omega
    rw [decodeCtrl_undefined_iff, hlow]
  case h_16 =>
    refine iff_of_false nofun ?_
    simp only [imp_false] at *
    omega
  all_goals exact iff_of_false nofun (by omega)

theorem lfsrReserved_iff (w1 : Word) : (w1.extractLsb' 6 2 != 0#2) = true ↔ w1.toNat / 64 % 4 ≠ 0 := by
  rw [bne_iff_ne, ne_eq, BitVec.toNat_eq, BitVec.extractLsb'_toNat, Nat.shiftRight_eq_div_pow]
  rfl

theorem lfsrFf_iff (w1 : Word) : (w1.extractLsb' 4 2 == 3#2) = true ↔ w1.toNat / 16 % 4 = 3 := by
  rw [beq_iff_eq, BitVec.toNat_eq, BitVec.extractLsb'_toNat, Nat.shiftRight_eq_div_pow]
  rfl

theorem lfsrSecond_iff (w2 : Word) : (w2.extractLsb' 8 8 != 0xF0#8) = true ↔ w2.toNat / 256 ≠ 0xF0 := by
  have hw := w2.isLt
  rw [bne_iff_ne, ne_eq, BitVec.toNat_eq, BitVec.extractLsb'_toNat, Nat.shiftRight_eq_div_pow,
    Nat.mod_eq_of_lt (by omega)]
  rfl

theorem decodeLfsr_undefined_iff (w1 w2 : Word) :
    decodeLfsr w1 w2 = .error .undefinedOpcode ↔ w1.toNat / 64 % 4 ≠ 0 := by
  rw [decodeLfsr, ← lfsrReserved_iff]
  split_ifs with hreserved <;> simp [hreserved]

theorem decodeRow14_undefined_iff (w1 w2 : Word) (hrow : w1.toNat / 4096 = 14) :
    decodeRow14 w1 w2 = .error .undefinedOpcode ↔
      ((0xE800 ≤ w1.toNat ∧ w1.toNat ≤ 0xEBFF) ∨ (0xEE40 ≤ w1.toNat ∧ w1.toNat ≤ 0xEEFF)) := by
  rw [decodeRow14, toNat_extractLsb'_eight_four]
  split
  case h_9 | h_10 | h_12 =>
    refine iff_of_false ?_ (by omega)
    split <;> nofun
  case h_11 =>
    rw [decodeLfsr_undefined_iff]
    omega
  case h_13 =>
    refine iff_of_true rfl ?_
    simp only [imp_false] at *
    omega
  all_goals exact iff_of_false nofun (by omega)

/-- Settles O4: only the rows `0000` and `1110` of the decode map have undefined columns. -/
theorem undefinedFirstWords : Obligations.UndefinedFirstWords := by
  intro w1 w2
  have hw := w1.isLt
  by_cases hrow0 : w1.toNat / 4096 = 0
  · rw [decode_eq_decodeRow0_of_lt (by omega), decodeRow0_undefined_iff w1 hrow0]
    omega
  by_cases hrow14 : w1.toNat / 4096 = 14
  · rw [decode, toNat_extractLsb'_twelve_four, hrow14]
    exact (decodeRow14_undefined_iff w1 w2 hrow14).trans (by omega)
  refine iff_of_false ?_ (by omega)
  rw [decode, toNat_extractLsb'_twelve_four]
  split
  case h_1 hrow => exact absurd hrow hrow0
  case h_2 | h_3 | h_4 | h_5 | h_6 => exact decodeByteRow_ne_error _ _ _ _ _ _
  case h_7 => exact decodeRow6_ne_error _ _
  case h_13 => split <;> nofun
  case h_15 hrow => exact absurd hrow hrow14
  all_goals nofun

theorem decode_eq_decodeLfsr {w1 : Word} (h : w1.toNat / 256 = 0xEE) (w2 : Word) : decode w1 w2 = decodeLfsr w1 w2 := by
  have hcolumn : (w1.extractLsb' 8 4).toNat = 14 := by rw [toNat_extractLsb'_eight_four]; omega
  have hrow : w1.toNat / 4096 = 14 := by omega
  rw [decode, toNat_extractLsb'_twelve_four, hrow]
  change decodeRow14 w1 w2 = _
  rw [decodeRow14, hcolumn]
  rfl

theorem secondWordOk_eq_decide (w2 : Word) : secondWordOk w2 = decide (¬ w2.toNat < 0xF000) := by
  have hw := w2.isLt
  rw [Bool.eq_iff_iff, secondWordOk_iff, decide_eq_true_eq]
  omega

/-- A decoder that takes one instruction where the second word has its form. -/
theorem second_word_rejected_iff (w2 : Word) (i : Instr) :
    ((if secondWordOk w2 then .ok i else .error .badSecondWord : Except DecodeError Instr) = .error .badSecondWord) ↔
      w2.toNat < 0xF000 := by
  rw [secondWordOk_eq_decide]
  split_ifs with h <;> simp_all

/-- Settles O5. -/
theorem secondWordForms : Obligations.SecondWordForms := by
  intro w1 w2
  refine ⟨?movffCallGoto, ?lfsr, ?lfsrThree⟩
  case movffCallGoto =>
    intro h
    by_cases hrow12 : w1.toNat / 4096 = 12
    · rw [decode, toNat_extractLsb'_twelve_four, hrow12]
      exact second_word_rejected_iff w2 _
    have hrow14 : w1.toNat / 4096 = 14 := by omega
    rw [decode, toNat_extractLsb'_twelve_four, hrow14]
    change decodeRow14 w1 w2 = _ ↔ _
    rw [decodeRow14, toNat_extractLsb'_eight_four]
    split
    case h_9 | h_10 | h_12 => exact second_word_rejected_iff w2 _
    case h_13 =>
      simp only [imp_false] at *
      omega
    all_goals omega
  case lfsr =>
    intro h
    rw [decode_eq_decodeLfsr (by omega), decodeLfsr, if_neg (by rw [lfsrReserved_iff]; omega),
      if_neg (by rw [lfsrFf_iff]; omega)]
    split_ifs with hsecond <;> rw [lfsrSecond_iff] at hsecond
    · exact iff_of_true rfl (by omega)
    · exact iff_of_false nofun (by omega)
  case lfsrThree =>
    intro h
    rw [decode_eq_decodeLfsr (by omega), decodeLfsr, if_neg (by rw [lfsrReserved_iff]; omega),
      if_pos (by rw [lfsrFf_iff]; omega)]

/-! ### The second word met as a first word (R140) -/

theorem decode_nopx {w : Word} (h : w.toNat / 4096 = 15) (w2 : Word) : decode w w2 = .ok (.nopx w.low12) := by
  rw [decode, toNat_extractLsb'_twelve_four, h]
  rfl

theorem encLow12_high (x : BitVec 12) : (encLow12 0b1111#4 x).toNat / 4096 = 15 := by
  rw [← toNat_extractLsb'_twelve_four, encLow12_row]
  rfl

/-- The second words of the four two-word instructions all begin with 1111. -/
theorem second_word_high {i : Instr} {w : Word} (h : (encode i)[1]? = some w) : w.toNat / 4096 = 15 := by
  cases i with
  | movff f g | call k fast | goto k =>
    cases h
    exact encLow12_high _
  | lfsr ff k =>
    cases h
    rw [← toNat_extractLsb'_twelve_four, encLit_row]
    rfl
  | _ => simp [encode] at h

/-- Settles O6. -/
theorem secondWordAloneIsNop : Obligations.SecondWordAloneIsNop := fun _ _ w2 _ h =>
  ⟨_, decode_nopx (second_word_high h) w2, rfl⟩

end Sys2Proof
end

section
/-! PROOFS. The results of the instructions with one file operand, of the literal instructions and of MOVFF
(spec/40_byte_file_ops.md, 41_skip_mul_move.md, 42_bit_ops.md, 43_literal_ops.md). -/

namespace Sys2Proof.Machine

open Sys2Proof

/-! ### The shared procedures in the words of the statements (R201, R219, R244) -/

/-- `ByteDA`: the operation is applied to the operand's value, and its result goes where `byteNext` says. -/
theorem byteDA_eq (f : Byte) (d : Dest) (a : Access) (op : Byte → Byte → Bool → Alu) (s : State) :
    byteDA f d a op s =
      ((op (operandValue f a s) s.w s.status.c).val,
        byteNext f d a (op (operandValue f a s) s.w s.status.c).val (op (operandValue f a s) s.w s.status.c).flags s) := by
  cases d with
  | w => rfl
  | file =>
    have hval : (dataRead (Dest.file == .w) s.pc (operandBegin (s.ea f a) s).1.target (operandBegin (s.ea f a) s).2).1 =
        operandValue f a s := dataRead_val _ _ _ _
    simp only [byteDA, hval]
    rfl

theorem writeFile_eq (f : Byte) (a : Access) (r : Alu) (s : State) :
    writeFile f a r s = resultToFile .write f a r.val r.flags s := rfl

/-- An instruction that is `ByteDA` of an operation, with the operation's result known. -/
theorem exec_eq_byteNext {i : Instr} {f : Byte} {d : Dest} {a : Access} {op : Byte → Byte → Bool → Alu} {s : State}
    {r : Byte} {fl : FlagUpdate} (hexec : exec i s = .next (byteDA f d a op s).2)
    (hop : op (operandValue f a s) s.w s.status.c = { val := r, flags := fl }) :
    exec i s = .next (byteNext f d a r fl s) := by
  rw [hexec, byteDA_eq, hop]

/-- A skip on a test is a skip where the tested condition holds (R146). -/
theorem State.skipIf_eq_skipNext {b : Bool} {p : Prop} [Decidable p] (s : State) (h : b = true ↔ p) :
    s.skipIf b = skipNext p s := by
  rw [State.skipIf_eq, skipNext]
  exact if_congr h rfl rfl

theorem exec_eq_skipNext_byteNext {i : Instr} {f : Byte} {d : Dest} {a : Access} {op : Byte → Byte → Bool → Alu}
    {test : Byte → Bool} {s : State} {r : Byte} {p : Prop} [Decidable p]
    (hexec : exec i s = .next (byteDASkip f d a op test s))
    (hop : op (operandValue f a s) s.w s.status.c = noFlags r) (htest : test r = true ↔ p) :
    exec i s = .next (skipNext p (byteNext f d a r FlagUpdate.nothing s)) := by
  rw [hexec, byteDASkip, byteDA_eq, hop]
  exact congrArg _ (State.skipIf_eq_skipNext _ htest)

theorem exec_eq_skipNext_readNext {i : Instr} {f : Byte} {a : Access} {test : Byte → Bool} {s : State} {p : Prop}
    [Decidable p] (hexec : exec i s = .next (readSkip f a test s)) (htest : test (operandValue f a s) = true ↔ p) :
    exec i s = .next (skipNext p (readNext f a s)) := by
  rw [hexec, readSkip, readFile_eq, State.skipIf_eq_skipNext _ htest]

/-! ### Results in value terms (R24) -/

theorem withNZ_eq (r : Byte) : withNZ r = { val := r, flags := logicFlags r } := by
  rw [withNZ, getLsbD_seven_eq_decide, beq_zero_eq_decide]
  rfl

theorem withCNZ_eq (r : Byte) (c : Bool) : withCNZ r c = { val := r, flags := { logicFlags r with c := some c } } := by
  rw [withCNZ, getLsbD_seven_eq_decide, beq_zero_eq_decide]
  rfl

/-! ### The arithmetic instructions -/

/-- Settles O27. -/
theorem addInstructionResults : Obligations.AddInstructionResults := fun _ _ _ _ =>
  ⟨exec_eq_byteNext rfl (addCore_eq _ _ _), exec_eq_byteNext rfl (addCore_eq _ _ _),
    exec_eq_byteNext rfl (addCore_eq _ _ _)⟩

/-- Settles O28. -/
theorem subtractInstructionResults : Obligations.SubtractInstructionResults := fun _ _ _ _ =>
  ⟨exec_eq_byteNext rfl (subCore_eq _ _ _), exec_eq_byteNext rfl (subCore_eq _ _ _),
    exec_eq_byteNext rfl (subCore_eq _ _ _), exec_eq_byteNext rfl (subCore_eq _ _ _),
    exec_eq_byteNext rfl (subCore_eq _ _ _)⟩

/-! ### The logic instructions, the moves and the nibble swap -/

theorem swapNibbles_eq (v : Byte) :
    (v.extractLsb' 0 4 ++ v.extractLsb' 4 4).setWidth 8 = BitVec.ofNat 8 (v.toNat % 16 * 16 + v.toNat / 16) := by
  have hv := v.isLt
  have hfits : v.toNat % 16 * 16 + v.toNat / 16 < 2 ^ 8 := by omega
  rw [BitVec.setWidth_eq, BitVec.toNat_eq, toNat_append_add, BitVec.extractLsb'_toNat, BitVec.extractLsb'_toNat,
    Nat.shiftRight_zero, Nat.shiftRight_eq_div_pow, BitVec.toNat_ofNat, Nat.mod_eq_of_lt hfits]
  omega

/-- Settles O29. -/
theorem logicAndMoveResults : Obligations.LogicAndMoveResults := fun s f _ a =>
  ⟨exec_eq_byteNext rfl (withNZ_eq _), exec_eq_byteNext rfl (withNZ_eq _), exec_eq_byteNext rfl (withNZ_eq _),
    exec_eq_byteNext rfl (withNZ_eq _), exec_eq_byteNext rfl (withNZ_eq _),
    exec_eq_byteNext rfl (congrArg noFlags (swapNibbles_eq (operandValue f a s))), rfl⟩

/-! ### The rotates: 2v with a bit from the right, v / 2 with a bit from the left -/

theorem rotateLeft_eq (v : Byte) (x : BitVec 1) :
    (v.extractLsb' 0 7 ++ x).setWidth 8 = BitVec.ofNat 8 (2 * v.toNat + x.toNat) := by
  have hv := v.isLt
  have hx := x.isLt
  rw [BitVec.setWidth_eq, BitVec.toNat_eq, toNat_append_add, BitVec.extractLsb'_toNat, Nat.shiftRight_zero,
    BitVec.toNat_ofNat]
  omega

theorem rotateRight_eq (v : Byte) (x : BitVec 1) :
    (x ++ v.extractLsb' 1 7).setWidth 8 = BitVec.ofNat 8 (v.toNat / 2 + 128 * x.toNat) := by
  have hv := v.isLt
  have hx := x.isLt
  rw [BitVec.setWidth_eq, BitVec.toNat_eq, toNat_append_add, BitVec.extractLsb'_toNat, Nat.shiftRight_eq_div_pow,
    BitVec.toNat_ofNat]
  omega

theorem topBit_toNat (v : Byte) : (v.extractLsb' 7 1).toNat = v.toNat / 128 := by
  have hv := v.isLt
  rw [BitVec.extractLsb'_toNat, Nat.shiftRight_eq_div_pow]
  omega

theorem lowBit_toNat (v : Byte) : (v.extractLsb' 0 1).toNat = v.toNat % 2 := by
  rw [BitVec.extractLsb'_toNat, Nat.shiftRight_zero]

theorem getLsbD_eq_decide (v : Byte) (j : Nat) : v.getLsbD j = decide (v.toNat / 2 ^ j % 2 = 1) := by
  rw [BitVec.getLsbD, Nat.testBit_eq_decide_div_mod_eq]

/-- Settles O30. -/
theorem rotateInstructionResults : Obligations.RotateInstructionResults := by
  intro s f d a
  refine ⟨exec_eq_byteNext rfl ?rlcf, exec_eq_byteNext rfl ?rrcf, exec_eq_byteNext rfl ?rlncf,
    exec_eq_byteNext rfl ?rrncf⟩
  case rlcf => rw [aluRlcf, rotateLeft_eq, BitVec.toNat_ofBool, getLsbD_seven_eq_decide, withCNZ_eq]
  case rrcf =>
    rw [aluRrcf, rotateRight_eq, BitVec.toNat_ofBool, getLsbD_eq_decide, Nat.pow_zero, Nat.div_one, withCNZ_eq]
  case rlncf => rw [aluRlncf, rotateLeft_eq, topBit_toNat, withNZ_eq]
  case rrncf => rw [aluRrncf, rotateRight_eq, lowBit_toNat, withNZ_eq]

/-! ### The skips -/

theorem sub_one_eq_diffByte (v : Byte) : v - 1#8 = diffByte v 1#8 false := by
  have hv := v.isLt
  rw [BitVec.toNat_eq, BitVec.toNat_sub, diffByte, BitVec.toNat_ofInt, BitVec.toNat_ofNat]
  simp only [Bool.toNat_false]
  omega

theorem add_one_eq_sumByte (v : Byte) : v + 1#8 = sumByte v 1#8 false := by
  rw [BitVec.toNat_eq, BitVec.toNat_add, sumByte, BitVec.toNat_ofNat, BitVec.toNat_ofNat]
  rfl

theorem beq_zero_iff (r : Byte) : (r == 0#8) = true ↔ r.toNat = 0 := by
  rw [beq_zero_eq_decide, decide_eq_true_eq]

theorem bne_zero_iff (r : Byte) : (r != 0#8) = true ↔ r.toNat ≠ 0 := by
  rw [bne, Bool.not_eq_true', beq_zero_eq_decide, decide_eq_false_iff_not]

/-- Settles O32. -/
theorem skipOnResult : Obligations.SkipOnResult := fun _ _ _ _ =>
  ⟨exec_eq_skipNext_byteNext rfl (congrArg noFlags (sub_one_eq_diffByte _)) (beq_zero_iff _),
    exec_eq_skipNext_byteNext rfl (congrArg noFlags (sub_one_eq_diffByte _)) (bne_zero_iff _),
    exec_eq_skipNext_byteNext rfl (congrArg noFlags (add_one_eq_sumByte _)) (beq_zero_iff _),
    exec_eq_skipNext_byteNext rfl (congrArg noFlags (add_one_eq_sumByte _)) (bne_zero_iff _)⟩

/-- Settles O33. -/
theorem compareAndTestSkips : Obligations.CompareAndTestSkips := by
  intro s f a b
  have hset : (operandValue f a s).getLsbD b.toNat = true ↔ (operandValue f a s).toNat / 2 ^ b.toNat % 2 = 1 := by
    rw [getLsbD_eq_decide, decide_eq_true_eq]
  refine ⟨exec_eq_skipNext_readNext rfl (beq_iff_eq.trans BitVec.toNat_eq),
    exec_eq_skipNext_readNext rfl decide_eq_true_iff, exec_eq_skipNext_readNext rfl decide_eq_true_iff,
    exec_eq_skipNext_readNext rfl (beq_zero_iff _), exec_eq_skipNext_readNext rfl ?clear,
    exec_eq_skipNext_readNext rfl hset⟩
  rw [Bool.not_eq_true', ← Bool.not_eq_true, hset]
  omega

/-! ### The bit changes -/

theorem getLsbD_bitMask (b : BitVec 3) {j : Nat} (hj : j < 8) : (bitMask b).getLsbD j = decide (j = b.toNat) := by
  have hb := b.isLt
  rw [bitMask, BitVec.getLsbD_shiftLeft, BitVec.getLsbD_one, Bool.eq_iff_iff]
  simp only [Bool.and_eq_true, Bool.not_eq_true', decide_eq_true_eq, decide_eq_false_iff_not]
  omega

theorem bitRMW_eq (f : Byte) (a : Access) (op : Byte → Byte) (s : State) :
    bitRMW f a op s = resultToFile .modify f a (op (operandValue f a s)) FlagUpdate.nothing s := by
  rw [bitRMW, byteDA_eq]
  rfl

theorem exec_bcf (f : Byte) (b : BitVec 3) (a : Access) (s : State) :
    exec (.bcf f b a) s =
      .next (resultToFile .modify f a (operandValue f a s &&& ~~~bitMask b) FlagUpdate.nothing s) :=
  congrArg Host.Outcome.next (bitRMW_eq f a _ s)

theorem exec_bsf (f : Byte) (b : BitVec 3) (a : Access) (s : State) :
    exec (.bsf f b a) s = .next (resultToFile .modify f a (operandValue f a s ||| bitMask b) FlagUpdate.nothing s) :=
  congrArg Host.Outcome.next (bitRMW_eq f a _ s)

theorem exec_btg (f : Byte) (b : BitVec 3) (a : Access) (s : State) :
    exec (.btg f b a) s = .next (resultToFile .modify f a (operandValue f a s ^^^ bitMask b) FlagUpdate.nothing s) :=
  congrArg Host.Outcome.next (bitRMW_eq f a _ s)

/-- Settles O36: the mask has bit b alone, so each change is one operation on that bit. -/
theorem bitChangeResults : Obligations.BitChangeResults := by
  intro s f b a
  refine ⟨_, _, _, fun j hj => ?bits, exec_bcf f b a s, exec_bsf f b a s, exec_btg f b a s⟩
  rw [BitVec.getLsbD_and, BitVec.getLsbD_or, BitVec.getLsbD_xor, BitVec.getLsbD_not, getLsbD_bitMask b hj]
  by_cases hjb : j = b.toNat
  · subst hjb
    simp [hj]
  · simp [hjb, hj]

/-! ### The literal instructions -/

/-- Settles O37. -/
theorem literalArithmetic : Obligations.LiteralArithmetic := by
  intro s k
  refine ⟨?addlw, ?sublw⟩
  case addlw =>
    change Host.Outcome.next (s.setWFlags (addCore s.w k false)) = _
    rw [addCore_eq]
    rfl
  case sublw =>
    change Host.Outcome.next (s.setWFlags (subCore k s.w false)) = _
    rw [subCore_eq]
    rfl

theorem setWFlags_withNZ (s : State) (r : Byte) :
    s.setWFlags (withNZ r) = { s with w := r, status := s.status.update (logicFlags r) } := by
  rw [withNZ_eq]
  rfl

/-- Settles O38. -/
theorem literalLogicAndMoves : Obligations.LiteralLogicAndMoves := by
  intro s k a
  refine ⟨congrArg _ (setWFlags_withNZ s _), congrArg _ (setWFlags_withNZ s _), congrArg _ (setWFlags_withNZ s _), rfl,
    ?movlb, rfl, rfl, rfl, rfl⟩
  have hbank : k.extractLsb' 0 4 = BitVec.ofNat 4 (k.toNat % 16) := by
    rw [BitVec.toNat_eq, BitVec.extractLsb'_toNat, Nat.shiftRight_zero, BitVec.toNat_ofNat]
    omega
  change Host.Outcome.next { s with bsr := k.extractLsb' 0 4 } = _
  rw [hbank]

/-! ### DAW -/

/-- The decimal adjust as two conditional additions. -/
theorem dawSum_eq (w : Byte) (dc c : Bool) :
    dawSum w dc c =
      (w.toNat + (if 9 < w.toNat % 16 ∨ dc = true then 6 else 0)) +
        (if 9 < (w.toNat + (if 9 < w.toNat % 16 ∨ dc = true then 6 else 0)) / 16 ∨ c = true then 96 else 0) := by
  have hones : (if 9 < w.toNat % 16 || dc then w.toNat + 6 else w.toNat) =
      w.toNat + (if 9 < w.toNat % 16 ∨ dc = true then 6 else 0) := by
    simp only [Bool.or_eq_true, decide_eq_true_eq]
    split_ifs <;> rfl
  rw [dawSum, hones]
  simp only [Bool.or_eq_true, decide_eq_true_eq]
  generalize w.toNat + (if 9 < w.toNat % 16 ∨ dc = true then 6 else 0) = t
  split_ifs <;> rfl

/-- DAW never clears C: it writes it only to set it. -/
theorem exec_daw (s : State) :
    exec .daw s = .next { s with
      w := BitVec.ofNat 8 (dawSum s.w s.status.dc s.status.c),
      status := { s.status with c := s.status.c || decide (255 < dawSum s.w s.status.dc s.status.c) } } := by
  change Host.Outcome.next (s.setWFlags (aluDaw s.w s.status.dc s.status.c)) = _
  rw [aluDaw]
  by_cases hcarry : 255 < dawSum s.w s.status.dc s.status.c
  · rw [if_pos hcarry, decide_eq_true hcarry, Bool.or_true]
    rfl
  · rw [if_neg hcarry, decide_eq_false hcarry, Bool.or_false]
    rfl

theorem packBcd_toNat {x : Nat} (hx : x < 100) : (packBcd x).toNat = x / 10 * 16 + x % 10 := by
  have htens : x / 10 % 10 = x / 10 := by omega
  rw [packBcd, BitVec.toNat_ofNat, htens]
  exact Nat.mod_eq_of_lt (by omega)

/-- The adjust on the sum of two packed decimals, `hi` the sum of the tens and `lo` that of the ones with the carry: each
digit is raised by 6 exactly where the decimal digit sum, with the carry from the right, is 10 or more. -/
theorem dawSum_of_digits {w : Byte} {dc c : Bool} {hi lo : Nat} (hhi : hi ≤ 18) (hlo : lo ≤ 19)
    (hw : w.toNat = (hi * 16 + lo) % 256) (hdc : dc = true ↔ 16 ≤ lo) (hc : c = true ↔ 256 ≤ hi * 16 + lo) :
    dawSum w dc c % 256 = (hi + lo / 10) % 10 * 16 + lo % 10 ∧
    (c = true ∨ 255 < dawSum w dc c ↔ 100 ≤ 10 * hi + lo) := by
  have hones : (9 < w.toNat % 16 ∨ dc = true) ↔ 10 ≤ lo := by rw [hdc]; omega
  rw [dawSum_eq, if_congr hones rfl rfl]
  have htens : (9 < (w.toNat + (if 10 ≤ lo then 6 else 0)) / 16 ∨ c = true) ↔ 10 ≤ hi + lo / 10 := by
    rw [hc]
    split_ifs <;> omega
  rw [if_congr htens rfl rfl, hc, hw]
  split_ifs <;> omega

/-- DAW on the W, DC and C of an addition of packed decimals. -/
theorem dawSum_packBcd {x y : Nat} {cin dc c : Bool} (hx : x < 100) (hy : y < 100)
    (hdc : some dc = (addFlags (packBcd x) (packBcd y) cin).dc) (hc : some c = (addFlags (packBcd x) (packBcd y) cin).c) :
    BitVec.ofNat 8 (dawSum (sumByte (packBcd x) (packBcd y) cin) dc c) = packBcd (x + y + cin.toNat) ∧
    (c || decide (255 < dawSum (sumByte (packBcd x) (packBcd y) cin) dc c)) = decide (100 ≤ x + y + cin.toNat) := by
  have hcin := cin.toNat_le
  have hsum : (sumByte (packBcd x) (packBcd y) cin).toNat =
      ((x / 10 + y / 10) * 16 + (x % 10 + y % 10 + cin.toNat)) % 256 := by
    rw [sumByte, BitVec.toNat_ofNat, packBcd_toNat hx, packBcd_toNat hy]
    congr 1
    omega
  have hdc' : dc = true ↔ 16 ≤ x % 10 + y % 10 + cin.toNat := by
    rw [Option.some.inj hdc, decide_eq_true_eq, packBcd_toNat hx, packBcd_toNat hy]
    omega
  have hc' : c = true ↔ 256 ≤ (x / 10 + y / 10) * 16 + (x % 10 + y % 10 + cin.toNat) := by
    rw [Option.some.inj hc, decide_eq_true_eq, packBcd_toNat hx, packBcd_toNat hy]
    omega
  obtain ⟨hval, hcarry⟩ := dawSum_of_digits (by omega) (by omega) hsum hdc' hc'
  constructor
  · change _ = BitVec.ofNat 8 _
    rw [BitVec.toNat_eq, BitVec.toNat_ofNat, BitVec.toNat_ofNat, hval]
    have htens : (x + y + cin.toNat) / 10 = x / 10 + y / 10 + (x % 10 + y % 10 + cin.toNat) / 10 := by omega
    have hones : (x + y + cin.toNat) % 10 = (x % 10 + y % 10 + cin.toNat) % 10 := by omega
    rw [htens, hones]
    exact (Nat.mod_eq_of_lt (by omega)).symm
  · rw [Bool.eq_iff_iff, Bool.or_eq_true, decide_eq_true_eq, decide_eq_true_eq, hcarry]
    omega

/-- Settles O39. -/
theorem dawAdjustsDecimalSums : Obligations.DawAdjustsDecimalSums := by
  intro s
  refine ⟨?algorithm, ?decimal⟩
  case algorithm => rw [exec_daw, dawSum_eq]
  case decimal =>
    intro x y cin hx hy hw hdc hc
    obtain ⟨hval, hcarry⟩ := dawSum_packBcd hx hy hdc hc
    rw [exec_daw, hw, hval, hcarry]

end Sys2Proof.Machine
end

section
/-! PROOFS. What an instruction with one file operand can do, once and for all, and what it leaves unchanged
(spec/20_memory.md R87 to R97; spec/40_byte_file_ops.md R200, R201). -/

namespace Sys2Proof.Machine

open Sys2Proof

/-! ### The flags of a row of R200 -/

/-- The update writes flags of the row `rs` only, and some flag exactly where the row has one. -/
def FlagUpdate.OfRow (u : FlagUpdate) (rs : List Reg) : Prop := u.regs ⊆ rs ∧ (u.affects = true ↔ rs ≠ [])

theorem addCore_ofRow (x y : Byte) (cin : Bool) : (addCore x y cin).flags.OfRow Reg.flags :=
  ⟨show [Reg.flagN, .flagOv, .flagZ, .flagDc, .flagC] ⊆ Reg.flags by decide, iff_of_true rfl (by decide)⟩

theorem withNZ_ofRow (r : Byte) : (withNZ r).flags.OfRow [.flagZ, .flagN] :=
  ⟨show [Reg.flagN, .flagZ] ⊆ _ by decide, iff_of_true rfl (by decide)⟩

theorem withCNZ_ofRow (r : Byte) (c : Bool) : (withCNZ r c).flags.OfRow [.flagC, .flagZ, .flagN] :=
  ⟨show [Reg.flagN, .flagZ, .flagC] ⊆ _ by decide, iff_of_true rfl (by decide)⟩

theorem clrfFlags_ofRow : clrfFlags.OfRow [.flagZ] :=
  ⟨show [Reg.flagZ] ⊆ _ by decide, iff_of_true rfl (by decide)⟩

theorem nothing_ofRow : FlagUpdate.nothing.OfRow [] := ⟨List.nil_subset _, iff_of_false nofun (by decide)⟩

/-! ### The five forms of an instruction with one file operand -/

/-- What `i`, with the file operand `f, a` used as `u`, may leave of the state `s`: a result written to W, a test of the
operand, a product, a result written back, or a result written without a read; `b` says that a skip is taken. -/
inductive FileForm (i : Instr) (f : Byte) (a : Access) (s : State) : FileUse → State → Prop
  | toW (r : Byte) (fl : FlagUpdate) (b : Bool) (hfl : fl.OfRow (flagRegs i)) (hw : .w ∈ ownRegs i)
      (hpc : b = true → .pc ∈ ownRegs i) : FileForm i f a s .read ((resultToW f a r fl s).skipIf b)
  | test (b : Bool) (hpc : b = true → .pc ∈ ownRegs i) : FileForm i f a s .read ((readNext f a s).skipIf b)
  | product (x y : Byte) (hprod : [.prodh, .prodl] ⊆ ownRegs i) :
      FileForm i f a s .read ((readNext f a s).setProduct x y)
  | toFile (u : FileUse) (r : Byte) (fl : FlagUpdate) (b : Bool) (hu : u ≠ .read) (hfl : fl.OfRow (flagRegs i))
      (hpc : b = true → .pc ∈ ownRegs i) : FileForm i f a s u ((resultToFile u f a r fl s).skipIf b)

theorem FileForm.of_byteDA {i : Instr} {f : Byte} {d : Dest} {a : Access} {s : State}
    (op : Byte → Byte → Bool → Alu) (b : Bool) (hfl : ∀ v w c, (op v w c).flags.OfRow (flagRegs i))
    (hw : d = .w → .w ∈ ownRegs i) (hpc : b = true → .pc ∈ ownRegs i) :
    FileForm i f a s (useOf d) ((byteDA f d a op s).2.skipIf b) := by
  rw [byteDA_eq]
  cases d with
  | w => exact .toW _ _ b (hfl _ _ _) (hw rfl) hpc
  | file => exact .toFile .modify _ _ b nofun (hfl _ _ _) hpc

/-- Every instruction with one file operand completes, in one of the forms. -/
theorem exec_fileForm {i : Instr} {f : Byte} {a : Access} {u : FileUse} (s : State)
    (h : fileOperand i = some (f, a, u)) : ∃ t, exec i s = .next t ∧ FileForm i f a s u t := by
  cases i with
  | addwf f d a | addwfc f d a | decf f d a | incf f d a | subfwb f d a | subwf f d a | subwfb f d a =>
    cases h
    exact ⟨_, rfl, .of_byteDA _ false (fun _ _ _ => addCore_ofRow _ _ _) (fun hd => by simp [ownRegs, hd]) nofun⟩
  | andwf f d a | comf f d a | iorwf f d a | movf f d a | rlncf f d a | rrncf f d a | xorwf f d a =>
    cases h
    exact ⟨_, rfl, .of_byteDA _ false (fun _ _ _ => withNZ_ofRow _) (fun hd => by simp [ownRegs, hd]) nofun⟩
  | rlcf f d a | rrcf f d a =>
    cases h
    exact ⟨_, rfl, .of_byteDA _ false (fun _ _ _ => withCNZ_ofRow _ _) (fun hd => by simp [ownRegs, hd]) nofun⟩
  | swapf f d a =>
    cases h
    exact ⟨_, rfl, .of_byteDA _ false (fun _ _ _ => nothing_ofRow) (fun hd => by simp [ownRegs, hd]) nofun⟩
  | decfsz f d a | dcfsnz f d a | incfsz f d a | icfsnz f d a =>
    cases h
    exact ⟨_, rfl, .of_byteDA _ _ (fun _ _ _ => nothing_ofRow) (fun hd => by simp [ownRegs, hd])
      (fun _ => by simp [ownRegs])⟩
  | negf f a =>
    cases h
    exact ⟨_, rfl, .of_byteDA (d := .file) _ false (fun _ _ _ => addCore_ofRow _ _ _) nofun nofun⟩
  | bcf f b a | bsf f b a | btg f b a =>
    cases h
    exact ⟨_, rfl, .of_byteDA (d := .file) _ false (fun _ _ _ => nothing_ofRow) nofun nofun⟩
  | movwf f a | setf f a =>
    cases h
    exact ⟨_, rfl, .toFile .write _ _ false nofun nothing_ofRow nofun⟩
  | clrf f a =>
    cases h
    exact ⟨_, rfl, .toFile .write _ _ false nofun clrfFlags_ofRow nofun⟩
  | cpfseq f a | cpfsgt f a | cpfslt f a | tstfsz f a | btfsc f b a | btfss f b a =>
    cases h
    exact ⟨_, rfl, .test _ (fun _ => by simp [ownRegs])⟩
  | mulwf f a =>
    cases h
    exact ⟨_, rfl, .product _ _ (List.Subset.refl _)⟩
  | _ => cases h

/-! ### Frames, one per stage of an operand -/

/-- Which FSR an address steps depends on the device only. -/
theorem State.fsrOf_congr {s t : State} (h : t.dev = s.dev) (t0 : DataAddr) : t.fsrOf t0 = s.fsrOf t0 := by
  rw [State.fsrOf, State.fsrOf, State.place_congr s t t0 h]

theorem keepsAllBut.dev_eq {rs : List Reg} {s t : State} (h : keepsAllBut rs s t) (hrs : .dev ∉ rs) : t.dev = s.dev :=
  h .dev hrs

@[simp] theorem operandRead_loc (u : FileUse) (f : Byte) (a : Access) (s : State) :
    (operandRead u f a s).1 = (operandBegin (s.ea f a) s).1 := by
  cases u <;> rfl

@[simp] theorem operandBegin_named (t0 : DataAddr) (s : State) : (operandBegin t0 s).1.named = t0 :=
  (operandBegin_keeps t0 s).2.2.2

/-- The registers that naming and reading an operand of use `u` may change. -/
def State.readRegs (s : State) (loc : Loc) (u : FileUse) : List Reg :=
  s.fsrOf loc.named ++ (if u = .write then [] else Place.reads u (s.place loc.target))

theorem State.dev_notMem_readRegs (s : State) (loc : Loc) (u : FileUse) : .dev ∉ s.readRegs loc u := by
  intro h
  rw [State.readRegs, List.mem_append] at h
  rcases h with h | h
  · obtain ⟨n, hn⟩ := State.eq_fsr_of_mem_fsrOf h
    cases hn
  · split at h
    · cases h
    · exact absurd (Place.reads_subset_changedByRead u _ h) (by decide)

/-- An operand is named and, unless it is only written, read. -/
theorem operandRead_keeps (u : FileUse) (f : Byte) (a : Access) (s : State) :
    keepsAllBut (s.readRegs (operandBegin (s.ea f a) s).1 u) s (operandRead u f a s).2 ∧
    (operandRead u f a s).2.ram = s.ram ∧ (operandRead u f a s).2.pm = s.pm := by
  obtain ⟨hbegin, hbeginRam, hbeginPm, -⟩ := operandBegin_keeps (s.ea f a) s
  have hread := fun u => dataRead_keeps u s.pc (operandBegin (s.ea f a) s).1.target (operandBegin (s.ea f a) s).2
  simp only [State.place_operandBegin] at hread
  unfold State.readRegs
  rw [operandBegin_named]
  cases u with
  | read =>
    obtain ⟨hkeeps, hram, hpm⟩ := hread .read
    exact ⟨keepsAllBut_trans _ _ _ _ _ hbegin hkeeps, hram.trans hbeginRam, hpm.trans hbeginPm⟩
  | modify =>
    obtain ⟨hkeeps, hram, hpm⟩ := hread .modify
    exact ⟨keepsAllBut_trans _ _ _ _ _ hbegin hkeeps, hram.trans hbeginRam, hpm.trans hbeginPm⟩
  | write =>
    rw [if_pos rfl, List.append_nil]
    exact ⟨hbegin, hbeginRam, hbeginPm⟩

@[simp] theorem operandRead_dev (u : FileUse) (f : Byte) (a : Access) (s : State) : (operandRead u f a s).2.dev = s.dev :=
  (operandRead_keeps u f a s).1.dev_eq (State.dev_notMem_readRegs _ _ _)

@[simp] theorem State.place_operandRead (u : FileUse) (f : Byte) (a : Access) (s : State) (t : DataAddr) :
    (operandRead u f a s).2.place t = s.place t :=
  State.place_congr _ _ _ (operandRead_dev u f a s)

/-- The registers that writing a result with the flags `rs` to `loc` may change: STATUS takes the flags alone. -/
def State.storeRegs (s : State) (loc : Loc) (rs : List Reg) : List Reg :=
  rs ++ (if s.place loc.target = .sfr .status ∧ rs ≠ [] then [] else Place.writes (s.place loc.target))

/-- A result is written with its flags, or dropped with them. -/
theorem storeResult_keeps {rs : List Reg} (loc : Loc) (r : Alu) (s : State) (hfl : r.flags.OfRow rs) :
    keepsAllBut (s.storeRegs loc rs) s (storeResult loc r s) ∧
    ((storeResult loc r s).ram = s.ram ∨
      s.place loc.target = .gpr ∧ (storeResult loc r s).ram = Memory.write s.ram loc.target.toNat r.val) ∧
    (storeResult loc r s).pm = s.pm := by
  unfold storeResult
  split
  case isTrue => exact ⟨keepsAllBut_refl _ s, .inl rfl, rfl⟩
  case isFalse =>
    obtain ⟨hwrite, hram, hpm⟩ := dataWrite_keeps r.flags.affects loc.target r.val s
    obtain ⟨hrow, haffects⟩ := hfl
    rw [if_congr (and_congr_right fun _ => haffects) rfl rfl] at hwrite
    have hflags := State.applyFlags_keeps (dataWrite r.flags.affects loc.target r.val s) r.flags
    refine ⟨keepsAllBut_mono _ _ _ _ (keepsAllBut_trans _ _ _ _ _ hwrite hflags) ?_, ?_, hpm⟩
    · intro q hq
      rw [State.storeRegs, List.mem_append]
      exact (List.mem_append.mp hq).elim .inr fun h => .inl (hrow h)
    · rw [State.applyFlags_ram, hram]
      split_ifs with hgpr
      · exact .inr ⟨hgpr, rfl⟩
      · exact .inl rfl

theorem Place.dev_notMem_writes (p : Place) : .dev ∉ p.writes := by
  cases p with
  | sfr r => cases r <;> simp [Place.writes, Reg.flags]
  | _ => simp [Place.writes]

@[simp] theorem dataWrite_dev (affects : Bool) (t : DataAddr) (v : Byte) (s : State) :
    (dataWrite affects t v s).dev = s.dev := by
  refine (dataWrite_keeps affects t v s).1.dev_eq fun h => ?_
  split at h
  · cases h
  · exact Place.dev_notMem_writes _ h

@[simp] theorem storeResult_dev (loc : Loc) (r : Alu) (s : State) : (storeResult loc r s).dev = s.dev := by
  unfold storeResult
  split
  · rfl
  · exact dataWrite_dev _ _ _ s

/-- Which FSR the end of an operand steps does not depend on what was read and written. -/
theorem operandEnd_keeps_of_dev {s t : State} (h : t.dev = s.dev) (loc : Loc) (wrote : Bool) :
    keepsAllBut (s.fsrOf loc.named) t (operandEnd loc wrote t) := by
  rw [← State.fsrOf_congr h]
  exact (operandEnd_keeps loc wrote t).1

/-! ### Frames of the procedures of the statements -/

theorem readNext_keeps_readRegs (f : Byte) (a : Access) (s : State) :
    keepsAllBut (s.readRegs (operandBegin (s.ea f a) s).1 .read) s (readNext f a s) := by
  obtain ⟨hread, -, -⟩ := operandRead_keeps .read f a s
  have hend := operandEnd_keeps_of_dev (operandRead_dev .read f a s) (operandRead .read f a s).1 false
  refine keepsAllBut_mono _ _ _ _ (keepsAllBut_trans _ _ _ _ _ hread hend) ?_
  intro q hq
  rw [operandRead_loc] at hq
  refine (List.mem_append.mp hq).elim id fun h => ?_
  exact List.mem_append_left _ h

theorem resultToW_keeps {rs : List Reg} (f : Byte) (a : Access) (r : Byte) {fl : FlagUpdate} (s : State)
    (hfl : fl.OfRow rs) :
    keepsAllBut (.w :: rs ++ s.readRegs (operandBegin (s.ea f a) s).1 .read) s (resultToW f a r fl s) ∧
    (resultToW f a r fl s).ram = s.ram ∧ (resultToW f a r fl s).pm = s.pm := by
  obtain ⟨hread, hram, hpm⟩ := operandRead_keeps .read f a s
  have hw := State.setW_keeps (operandRead .read f a s).2 r
  have hflags := State.applyFlags_keeps ((operandRead .read f a s).2.setW r) fl
  have hend := operandEnd_keeps_of_dev (s := s) (t := ((operandRead .read f a s).2.setW r).applyFlags fl)
    (operandRead_dev .read f a s) (operandRead .read f a s).1 false
  obtain ⟨-, hendRam, hendPm⟩ :=
    operandEnd_keeps (operandRead .read f a s).1 false (((operandRead .read f a s).2.setW r).applyFlags fl)
  refine ⟨keepsAllBut_mono _ _ _ _ (keepsAllBut_trans _ _ _ _ _ (keepsAllBut_trans _ _ _ _ _
    (keepsAllBut_trans _ _ _ _ _ hread hw) hflags) hend) ?_, hendRam.trans hram, hendPm.trans hpm⟩
  intro q hq
  rw [operandRead_loc] at hq
  simp only [List.mem_append, List.mem_cons, List.not_mem_nil, or_false] at hq ⊢
  rcases hq with ((hq | hq) | hq) | hq
  · exact .inr hq
  · exact .inl (.inl hq)
  · exact .inl (.inr (hfl.1 hq))
  · exact .inr (List.mem_append_left _ hq)

/-- A result is stored and the operand ended, after its read left the device as it was in `s`. -/
theorem storeEnd_keeps {rs : List Reg} {s x : State} (hdev : x.dev = s.dev) (loc : Loc) (r : Alu) (hfl : r.flags.OfRow rs) :
    keepsAllBut (s.storeRegs loc rs ++ s.fsrOf loc.named) x (operandEnd loc true (storeResult loc r x)) ∧
    ((operandEnd loc true (storeResult loc r x)).ram = x.ram ∨
      s.place loc.target = .gpr ∧
        (operandEnd loc true (storeResult loc r x)).ram = Memory.write x.ram loc.target.toNat r.val) ∧
    (operandEnd loc true (storeResult loc r x)).pm = x.pm := by
  have hplace := State.place_congr s x loc.target hdev
  obtain ⟨hstore, hstoreRam, hstorePm⟩ := storeResult_keeps loc r x hfl
  rw [State.storeRegs, hplace] at hstore
  rw [hplace] at hstoreRam
  have hend := operandEnd_keeps_of_dev ((storeResult_dev loc r x).trans hdev) loc true
  obtain ⟨-, hendRam, hendPm⟩ := operandEnd_keeps loc true (storeResult loc r x)
  rw [hendRam, hendPm]
  exact ⟨keepsAllBut_trans _ _ _ _ _ hstore hend, hstoreRam, hstorePm⟩

theorem resultToFile_keeps {rs : List Reg} (u : FileUse) (f : Byte) (a : Access) (r : Byte) {fl : FlagUpdate} (s : State)
    (hfl : fl.OfRow rs) :
    keepsAllBut (s.readRegs (operandBegin (s.ea f a) s).1 u ++ s.storeRegs (operandBegin (s.ea f a) s).1 rs) s
      (resultToFile u f a r fl s) ∧
    ((resultToFile u f a r fl s).ram = s.ram ∨
      s.place (operandBegin (s.ea f a) s).1.target = .gpr ∧
        (resultToFile u f a r fl s).ram = Memory.write s.ram (operandBegin (s.ea f a) s).1.target.toNat r) ∧
    (resultToFile u f a r fl s).pm = s.pm := by
  obtain ⟨hread, hreadRam, hreadPm⟩ := operandRead_keeps u f a s
  obtain ⟨hstore, hstoreRam, hstorePm⟩ :=
    storeEnd_keeps (operandRead_dev u f a s) (operandBegin (s.ea f a) s).1 { val := r, flags := fl } hfl
  rw [hreadRam] at hstoreRam
  rw [resultToFile_eq_storeResult, operandRead_loc]
  refine ⟨keepsAllBut_mono _ _ _ _ (keepsAllBut_trans _ _ _ _ _ hread hstore) fun q hq => ?_,
    hstoreRam, hstorePm.trans hreadPm⟩
  rw [← List.append_assoc] at hq
  refine (List.mem_append.mp hq).elim id fun h => ?_
  exact List.mem_append_left _ (List.mem_append_left _ h)

/-! ### The frame of a form (O52) -/

/-- The registers of a file operand, by the stages of its use. -/
theorem State.mem_operandRegs_iff (s : State) (loc : Loc) (u : FileUse) (rs : List Reg) (q : Reg) :
    q ∈ s.operandRegs loc u rs ↔ q ∈ rs ∨ q ∈ s.readRegs loc u ∨ (u ≠ .read ∧ q ∈ s.storeRegs loc rs) := by
  simp only [State.operandRegs, State.readRegs, State.storeRegs, List.mem_append]
  by_cases hu : u = .read
  · simp [hu, or_assoc]
  · simp only [ne_eq, hu, not_false_eq_true, true_and]
    tauto

theorem FileForm.keeps {i : Instr} {f : Byte} {a : Access} {s t : State} {u : FileUse} (h : FileForm i f a s u t) :
    keepsAllBut (ownRegs i ++ s.operandRegs (operandBegin (s.ea f a) s).1 u (flagRegs i)) s t := by
  have hskip : ∀ (x : State) (b : Bool), (b = true → .pc ∈ ownRegs i) → keepsAllBut (ownRegs i) x (x.skipIf b) := by
    intro x b hpc
    cases b with
    | false => exact keepsAllBut_refl _ x
    | true => exact keepsAllBut_mono _ _ _ _ (State.skipIf_keeps x true) (by simpa using hpc rfl)
  cases h with
  | toW r fl b hfl hw hpc =>
    refine keepsAllBut_mono _ _ _ _
      (keepsAllBut_trans _ _ _ _ _ (resultToW_keeps f a r s hfl).1 (hskip _ b hpc)) fun q hq => ?_
    simp only [List.mem_append, List.mem_cons, State.mem_operandRegs_iff] at hq ⊢
    rcases hq with ((rfl | hq) | hq) | hq
    · exact .inl hw
    · exact .inr (.inl hq)
    · exact .inr (.inr (.inl hq))
    · exact .inl hq
  | test b hpc =>
    refine keepsAllBut_mono _ _ _ _
      (keepsAllBut_trans _ _ _ _ _ (readNext_keeps_readRegs f a s) (hskip _ b hpc)) fun q hq => ?_
    simp only [List.mem_append, State.mem_operandRegs_iff] at hq ⊢
    tauto
  | product x y hprod =>
    have hset : keepsAllBut [.prodh, .prodl] (readNext f a s) ((readNext f a s).setProduct x y) := by
      intro q hq
      cases q <;> simp_all [Reg.kept]
      case fsr n => cases n <;> rfl
    refine keepsAllBut_mono _ _ _ _ (keepsAllBut_trans _ _ _ _ _ (readNext_keeps_readRegs f a s) hset) fun q hq => ?_
    rw [List.mem_append, State.mem_operandRegs_iff]
    refine (List.mem_append.mp hq).elim (fun h => .inr (.inr (.inl h))) fun h => .inl (hprod h)
  | toFile _ r fl b hu hfl hpc =>
    refine keepsAllBut_mono _ _ _ _
      (keepsAllBut_trans _ _ _ _ _ (resultToFile_keeps u f a r s hfl).1 (hskip _ b hpc)) fun q hq => ?_
    simp only [List.mem_append, State.mem_operandRegs_iff] at hq ⊢
    tauto

/-- Data memory changes at the address reached alone, where that is a GPR and the instruction writes. -/
theorem FileForm.ram_eq {i : Instr} {f : Byte} {a : Access} {s t : State} {u : FileUse} (h : FileForm i f a s u t) :
    t.ram = s.ram ∨ u ≠ .read ∧ s.place (operandBegin (s.ea f a) s).1.target = .gpr ∧
      ∃ r, t.ram = Memory.write s.ram (operandBegin (s.ea f a) s).1.target.toNat r := by
  cases h with
  | toW r fl b hfl =>
    rw [State.skipIf_ram]
    exact .inl (resultToW_keeps f a r s hfl).2.1
  | test b =>
    rw [State.skipIf_ram]
    exact .inl (readNext_ram f a s)
  | product x y => exact .inl (readNext_ram f a s)
  | toFile _ r fl b hu hfl =>
    rw [State.skipIf_ram]
    refine (resultToFile_keeps u f a r s hfl).2.1.imp id fun h => ⟨hu, h.1, r, h.2⟩

theorem FileForm.pm_eq {i : Instr} {f : Byte} {a : Access} {s t : State} {u : FileUse} (h : FileForm i f a s u t) :
    t.pm = s.pm := by
  cases h with
  | toW r fl b hfl =>
    rw [State.skipIf_pm]
    exact (resultToW_keeps f a r s hfl).2.2
  | test b =>
    rw [State.skipIf_pm]
    exact (readNext_keeps f a s).2.2
  | product x y => exact (readNext_keeps f a s).2.2
  | toFile _ r fl b hu hfl =>
    rw [State.skipIf_pm]
    exact (resultToFile_keeps u f a r s hfl).2.2

/-- An instruction with one file operand that goes on, goes on in one of the forms. -/
theorem fileForm_of_exec {i : Instr} {f : Byte} {a : Access} {u : FileUse} {s t : State}
    (h : fileOperand i = some (f, a, u)) (hexec : exec i s = .next t) : FileForm i f a s u t := by
  obtain ⟨t', ht', hform⟩ := exec_fileForm s h
  rw [hexec] at ht'
  cases ht'
  exact hform

/-- Settles O52: the form of the instruction, stage by stage. -/
theorem frameOfFileInstructions : Obligations.FrameOfFileInstructions := by
  intro i f a u s t hi hexec
  have hform := fileForm_of_exec hi hexec
  refine ⟨hform.keeps, fun x => by rw [hform.pm_eq], fun x hx hwf => ?_⟩
  rcases hform.ram_eq with hram | ⟨hu, hgpr, r, hram⟩
  · rw [hram]
  · rw [hram, Memory.read_write _ _ _ _ hwf, if_neg (hx ⟨hu, hgpr⟩)]

end Sys2Proof.Machine
end

section
/-! PROOFS. The statements of spec/10_state.md and spec/20_memory.md about registers and memory: the INDF family, the
GPRs, the core registers, the top of the stack, the enable byte and the peripherals, and the reset state. -/

namespace Sys2Proof.Machine

open Sys2Proof

/-! ### The INDF family (R86, R87, R90) -/

section Indirect

variable {s : State} {t : DataAddr} {n : Fsr}

theorem isInd_eq_false_iff : s.isInd t = false ↔ ∀ n m, s.place t ≠ .sfr (.ind n m) := by
  unfold State.isInd
  split <;> simp_all

theorem operandBegin_of_direct (h : s.isInd t = false) : operandBegin t s = ({ named := t, target := t }, s) := by
  rw [isInd_eq_false_iff] at h
  unfold operandBegin
  split
  case h_6 => rfl
  all_goals exact absurd ‹_› (h _ _)

theorem operandEnd_of_direct {loc : Loc} (h : s.isInd loc.named = false) (wrote : Bool) : operandEnd loc wrote s = s := by
  rw [isInd_eq_false_iff] at h
  unfold operandEnd
  split
  case h_3 => rfl
  all_goals exact absurd ‹_› (h _ _)

theorem operandBegin_of_unstepped
    (h : s.place t = .sfr (.ind n .indf) ∨ s.place t = .sfr (.ind n .postinc) ∨ s.place t = .sfr (.ind n .postdec)) :
    operandBegin t s = ({ named := t, target := s.fsr n }, s) := by
  rcases h with h | h | h <;> rw [operandBegin, h]

theorem operandBegin_preinc (h : s.place t = .sfr (.ind n .preinc)) :
    operandBegin t s = ({ named := t, target := s.fsr n + 1#12 }, s.setFsr n (s.fsr n + 1#12)) := by
  rw [operandBegin, h]

theorem operandBegin_plusw (h : s.place t = .sfr (.ind n .plusw)) :
    operandBegin t s = ({ named := t, target := s.fsr n + s.w.signExtend 12 }, s) := by
  rw [operandBegin, h]

theorem operandEnd_postinc {loc : Loc} (h : s.place loc.named = .sfr (.ind n .postinc)) (wrote : Bool) :
    operandEnd loc wrote s = if wrote && s.isFsrByte n loc.target then s else s.setFsr n (s.fsr n + 1#12) := by
  rw [operandEnd, h]

theorem operandEnd_postdec {loc : Loc} (h : s.place loc.named = .sfr (.ind n .postdec)) (wrote : Bool) :
    operandEnd loc wrote s = if wrote && s.isFsrByte n loc.target then s else s.setFsr n (s.fsr n - 1#12) := by
  rw [operandEnd, h]

/-- Only POSTINC and POSTDEC have anything left to do at the end. -/
theorem operandEnd_of_not_post {loc : Loc}
    (h : ∀ n, s.place loc.named ≠ .sfr (.ind n .postinc) ∧ s.place loc.named ≠ .sfr (.ind n .postdec)) (wrote : Bool) :
    operandEnd loc wrote s = s := by
  unfold operandEnd
  split
  case h_1 hp => exact absurd hp (h _).1
  case h_2 hp => exact absurd hp (h _).2
  case h_3 => rfl

theorem isFsrByte_eq_true_iff : s.isFsrByte n t = true ↔ s.place t = .sfr (.fsrl n) ∨ s.place t = .sfr (.fsrh n) := by
  rw [State.isFsrByte, Bool.or_eq_true, beq_iff_eq, beq_iff_eq]

end Indirect

theorem add_one_eq_ofNat {w : Nat} (x : BitVec w) : x + 1#w = BitVec.ofNat w (x.toNat + 1) := by
  rw [BitVec.ofNat_add, BitVec.ofNat_toNat, BitVec.setWidth_eq]

theorem add_signExtend_eq_ofInt (x : DataAddr) (w : Byte) :
    x + w.signExtend 12 = BitVec.ofInt 12 (x.toNat + w.toInt) := by
  rw [BitVec.ofInt_add, BitVec.ofInt_natCast, BitVec.ofNat_toNat, BitVec.setWidth_eq, BitVec.signExtend]

/-- Settles O15: the address forms before the access, then the two that step their FSR after it. -/
theorem indirectAddressForms : Obligations.IndirectAddressForms := by
  intro s t0
  refine ⟨fun n h => operandBegin_of_unstepped h, fun n h => ?preinc, fun n h => ?plusw, operandBegin_of_direct,
    fun t wrote => ⟨fun n h => ?post, fun h => operandEnd_of_not_post h wrote⟩⟩
  case preinc => rw [operandBegin_preinc h, add_one_eq_ofNat]
  case plusw => rw [operandBegin_plusw h, add_signExtend_eq_ofInt]
  case post =>
    have hdominated : (wrote && s.isFsrByte n t) = true ↔
        wrote = true ∧ (s.place t = .sfr (.fsrl n) ∨ s.place t = .sfr (.fsrh n)) := by
      rw [Bool.and_eq_true, isFsrByte_eq_true_iff]
    have hfsr := (s.fsr n).isLt
    split_ifs with hwrote
    · rcases h with h | h
      · rw [operandEnd_postinc h, if_pos (hdominated.mpr hwrote)]
      · rw [operandEnd_postdec h, if_pos (hdominated.mpr hwrote)]
    · rcases h with h | h
      · rw [operandEnd_postinc h, if_neg (mt hdominated.mp hwrote)]
        refine ⟨fun _ => ?_, fun h' => absurd (h.symm.trans h') nofun, s.setFsr_keeps n _, by simp, by simp⟩
        rw [State.setFsr_fsr_same, BitVec.toNat_add]
        rfl
      · rw [operandEnd_postdec h, if_neg (mt hdominated.mp hwrote)]
        refine ⟨fun h' => absurd (h.symm.trans h') nofun, fun _ => ?_, s.setFsr_keeps n _, by simp, by simp⟩
        rw [State.setFsr_fsr_same, BitVec.toNat_sub]
        simp only [BitVec.toNat_ofNat]
        omega

/-! ### The access functions, place by place (R92, R93) -/

section Access

variable {s : State} {t : DataAddr} {r : Sfr}

theorem dataRead_of_gpr (h : s.place t = .gpr) (readClass : Bool) (pcSeen : ProgAddr) :
    dataRead readClass pcSeen t s = (Memory.read s.ram t.toNat, s) := by
  rw [dataRead, h]

theorem dataWrite_of_gpr (h : s.place t = .gpr) (affects : Bool) (v : Byte) :
    dataWrite affects t v s = { s with ram := Memory.write s.ram t.toNat v } := by
  rw [dataWrite, h]

theorem dataWrite_of_sfr (h : s.place t = .sfr r) (affects : Bool) (v : Byte) :
    dataWrite affects t v s = s.writeSfr affects r v := by
  rw [dataWrite, h]

/-- A core register other than PCL is read without a change of state. -/
theorem dataRead_of_sfr (h : s.place t = .sfr r) (hr : r ≠ .pcl) (readClass : Bool) (pcSeen : ProgAddr) :
    dataRead readClass pcSeen t s = (s.readSfr pcSeen r, s) := by
  unfold dataRead
  split
  case h_2 hp => exact absurd (Place.sfr.inj (h.symm.trans hp)) hr
  case h_3 hp =>
    cases h.symm.trans hp
    rfl
  case h_1 hp | h_4 hp | h_5 hp | h_6 hp => cases h.symm.trans hp

theorem dataRead_of_pcl (h : s.place t = .sfr .pcl) (readClass : Bool) (pcSeen : ProgAddr) :
    dataRead readClass pcSeen t s = (pcSeen.extractLsb' 0 8, if readClass then s.loadLatches pcSeen else s) := by
  rw [dataRead, h]
  rfl

theorem dataRead_val_of_sfr (h : s.place t = .sfr r) (readClass : Bool) (pcSeen : ProgAddr) :
    (dataRead readClass pcSeen t s).1 = s.readSfr pcSeen r := by
  by_cases hr : r = .pcl
  · subst hr
    rw [dataRead_of_pcl h]
    rfl
  · rw [dataRead_of_sfr h hr]

theorem dataRead_of_gie (h : s.place t = .gie) (readClass : Bool) (pcSeen : ProgAddr) :
    dataRead readClass pcSeen t s =
      ((BitVec.ofBool s.gieh ++ BitVec.ofBool s.giel ++ (s.periphRead t).1.extractLsb' 0 6).setWidth 8,
        (s.periphRead t).2) := by
  rw [dataRead, h]

theorem dataRead_of_peripheral (h : s.place t = .peripheral) (readClass : Bool) (pcSeen : ProgAddr) :
    dataRead readClass pcSeen t s = s.periphRead t := by
  rw [dataRead, h]

end Access

/-- The registers the byte at a place is made of; GPRs and the INDF family have none. -/
def Place.valueRegs : Place → List Reg
  | .sfr .tosu | .sfr .tosh | .sfr .tosl => [.stack, .sp]
  | .sfr .stkptr => [.stkovf, .stkunf, .sp]
  | .sfr .pclatu => [.pclatu]
  | .sfr .pclath => [.pclath]
  | .sfr .tblptru | .sfr .tblptrh | .sfr .tblptrl => [.tblptr]
  | .sfr .tablat => [.tablat]
  | .sfr .prodh => [.prodh]
  | .sfr .prodl => [.prodl]
  | .sfr (.fsrh n) | .sfr (.fsrl n) => [.fsr n]
  | .sfr .wreg => [.w]
  | .sfr .bsr => [.bsr]
  | .sfr .status => Reg.flags
  | .gie => [.gieh, .giel, .env, .free]
  | .peripheral => [.env, .free]
  | _ => []

theorem Reg.status_eq_of_flags_kept {s x : State} (h : ∀ q ∈ Reg.flags, q.kept s x) : x.status = s.status := by
  have hn : x.status.n = s.status.n := h .flagN (by decide)
  have hov : x.status.ov = s.status.ov := h .flagOv (by decide)
  have hz : x.status.z = s.status.z := h .flagZ (by decide)
  have hdc : x.status.dc = s.status.dc := h .flagDc (by decide)
  have hc : x.status.c = s.status.c := h .flagC (by decide)
  cases hx : x.status
  cases hs : s.status
  simp_all

/-- A core register reads the same in two states that agree on the registers it shows. -/
theorem State.readSfr_congr {s x : State} (r : Sfr) (pcSeen : ProgAddr) (h : ∀ q ∈ Place.valueRegs (.sfr r), q.kept s x) :
    x.readSfr pcSeen r = s.readSfr pcSeen r := by
  cases r with
  | status =>
    simp only [State.readSfr, Reg.status_eq_of_flags_kept h]
  | _ => simp_all [Place.valueRegs, Reg.kept, State.readSfr, State.tos]

/-- The byte read at a place is the same in two states that agree on what it is made of. -/
theorem dataRead_val_congr {s x : State} {u : DataAddr} (readClass : Bool) (pcSeen : ProgAddr) (hdev : x.dev = s.dev)
    (hram : s.place u = .gpr → Memory.read x.ram u.toNat = Memory.read s.ram u.toNat)
    (hregs : ∀ q ∈ (s.place u).valueRegs, q.kept s x) :
    (dataRead readClass pcSeen u x).1 = (dataRead readClass pcSeen u s).1 := by
  have hplace := State.place_congr s x u hdev
  cases hu : s.place u with
  | gpr => 
    rw [hu] at hplace
    rw [dataRead_of_gpr hu, dataRead_of_gpr hplace]
    exact hram hu
  | sfr r =>
    rw [hu] at hplace hregs
    rw [dataRead_val_of_sfr hu, dataRead_val_of_sfr hplace]
    exact State.readSfr_congr r pcSeen hregs
  | gie =>
    rw [hu] at hplace hregs
    have hgieh : x.gieh = s.gieh := hregs .gieh (by decide)
    have hgiel : x.giel = s.giel := hregs .giel (by decide)
    have henv : x.env = s.env := hregs .env (by decide)
    have hfree : x.free = s.free := hregs .free (by decide)
    rw [dataRead_of_gie hu, dataRead_of_gie hplace, State.periphRead_eq, State.periphRead_eq, hgieh, hgiel, henv, hfree]
  | peripheral =>
    rw [hu] at hplace hregs
    have henv : x.env = s.env := hregs .env (by decide)
    have hfree : x.free = s.free := hregs .free (by decide)
    rw [dataRead_of_peripheral hu, dataRead_of_peripheral hplace, State.periphRead_eq, State.periphRead_eq, henv, hfree]
  | unimplemented =>
    rw [hu] at hplace
    rw [dataRead_of_unimplemented hu, dataRead_of_unimplemented hplace]

/-! ### GPRs (R42, R113) -/

/-- Settles O16. -/
theorem gprReadsLastWrite : Obligations.GprReadsLastWrite := by
  intro s t u v affects readClass hwf ht
  rw [dataWrite_of_gpr ht]
  split_ifs with hut
  · subst hut
    rw [dataRead_of_gpr (s := { s with ram := Memory.write s.ram u.toNat v }) ht]
    exact (Memory.read_write _ _ _ _ hwf).trans (if_pos rfl)
  · refine dataRead_val_congr readClass s.pc rfl (fun _ => ?_) fun q _ => by cases q <;> rfl
    have hne : u.toNat ≠ t.toNat := fun h => hut (BitVec.eq_of_toNat_eq h)
    exact (Memory.read_write _ _ _ _ hwf).trans (if_neg hne)

/-! ### The top of the stack (R35) -/

section TopOfStack

variable {s : State}

theorem State.setTos_of_ne_zero (h : s.sp ≠ 0#5) (v : ProgAddr) :
    s.setTos v = { s with stack := s.stack.setIfInBounds (s.sp.toNat - 1) v } := if_neg h

theorem State.setTos_of_zero (h : s.sp = 0#5) (v : ProgAddr) : s.setTos v = s := if_pos h

theorem State.tos_of_zero (h : s.sp = 0#5) : s.tos = 0#21 := if_pos h

theorem State.sp_pos_of_ne_zero (h : s.sp ≠ 0#5) : 0 < s.sp.toNat := by
  rw [Nat.pos_iff_ne_zero]
  intro h0
  exact h (BitVec.eq_of_toNat_eq h0)

/-- SP is at most 31, so stack[SP] is one of the 31 words. -/
theorem State.tos_setTos (h : s.sp ≠ 0#5) (v : ProgAddr) : (s.setTos v).tos = v := by
  have hlt := s.sp.isLt
  have hpos := State.sp_pos_of_ne_zero h
  rw [State.setTos_of_ne_zero h, State.tos, if_neg h]
  simp only [Vector.getElem?_setIfInBounds, if_true]
  rw [if_pos (by omega)]
  rfl

/-- A write of the top word leaves every other stack word. -/
theorem State.setTos_stack_other (v : ProgAddr) {j : Nat} (hj : j + 1 ≠ s.sp.toNat) :
    (s.setTos v).stack[j]? = s.stack[j]? := by
  by_cases h : s.sp = 0#5
  · rw [State.setTos_of_zero h]
  · have hpos := State.sp_pos_of_ne_zero h
    rw [State.setTos_of_ne_zero h]
    simp only [Vector.getElem?_setIfInBounds]
    rw [if_neg (by omega)]

end TopOfStack

/-! ### A 21-bit word with one of its bytes replaced: TOSU, TOSH, TOSL and TBLPTRU, TBLPTRH, TBLPTRL -/

section ReplacedByte

variable (t : ProgAddr) (v : Byte)

theorem lowReplaced_toNat : ((t.extractLsb' 8 13 ++ v).setWidth 21).toNat = t.toNat / 256 * 256 + v.toNat := by
  have ht := t.isLt
  rw [BitVec.setWidth_eq, toNat_append_add, BitVec.extractLsb'_toNat, Nat.shiftRight_eq_div_pow]
  omega

theorem highReplaced_toNat :
    ((t.extractLsb' 16 5 ++ v ++ t.extractLsb' 0 8).setWidth 21).toNat =
      t.toNat / 65536 * 65536 + v.toNat * 256 + t.toNat % 256 := by
  have ht := t.isLt
  rw [BitVec.setWidth_eq, toNat_append_add, toNat_append_add, BitVec.extractLsb'_toNat, BitVec.extractLsb'_toNat,
    Nat.shiftRight_zero, Nat.shiftRight_eq_div_pow]
  omega

theorem upperReplaced_toNat :
    ((v.extractLsb' 0 5 ++ t.extractLsb' 0 16).setWidth 21).toNat = v.toNat % 32 * 65536 + t.toNat % 65536 := by
  rw [BitVec.setWidth_eq, toNat_append_add, BitVec.extractLsb'_toNat, BitVec.extractLsb'_toNat, Nat.shiftRight_zero,
    Nat.shiftRight_zero]
  rfl

theorem lowReplaced_low : ((t.extractLsb' 8 13 ++ v).setWidth 21).extractLsb' 0 8 = v := by
  have hv := v.isLt
  rw [BitVec.toNat_eq, BitVec.extractLsb'_toNat, lowReplaced_toNat, Nat.shiftRight_zero]
  omega

theorem lowReplaced_high : ((t.extractLsb' 8 13 ++ v).setWidth 21).extractLsb' 8 8 = t.extractLsb' 8 8 := by
  have hv := v.isLt
  rw [BitVec.toNat_eq, BitVec.extractLsb'_toNat, BitVec.extractLsb'_toNat, lowReplaced_toNat, Nat.shiftRight_eq_div_pow,
    Nat.shiftRight_eq_div_pow]
  omega

theorem lowReplaced_upper : ((t.extractLsb' 8 13 ++ v).setWidth 21).extractLsb' 16 5 = t.extractLsb' 16 5 := by
  have hv := v.isLt
  rw [BitVec.toNat_eq, BitVec.extractLsb'_toNat, BitVec.extractLsb'_toNat, lowReplaced_toNat, Nat.shiftRight_eq_div_pow,
    Nat.shiftRight_eq_div_pow]
  omega

theorem highReplaced_low :
    ((t.extractLsb' 16 5 ++ v ++ t.extractLsb' 0 8).setWidth 21).extractLsb' 0 8 = t.extractLsb' 0 8 := by
  rw [BitVec.toNat_eq, BitVec.extractLsb'_toNat, BitVec.extractLsb'_toNat, highReplaced_toNat, Nat.shiftRight_zero,
    Nat.shiftRight_zero]
  omega

theorem highReplaced_high : ((t.extractLsb' 16 5 ++ v ++ t.extractLsb' 0 8).setWidth 21).extractLsb' 8 8 = v := by
  have hv := v.isLt
  rw [BitVec.toNat_eq, BitVec.extractLsb'_toNat, highReplaced_toNat, Nat.shiftRight_eq_div_pow]
  omega

theorem highReplaced_upper :
    ((t.extractLsb' 16 5 ++ v ++ t.extractLsb' 0 8).setWidth 21).extractLsb' 16 5 = t.extractLsb' 16 5 := by
  have hv := v.isLt
  rw [BitVec.toNat_eq, BitVec.extractLsb'_toNat, BitVec.extractLsb'_toNat, highReplaced_toNat,
    Nat.shiftRight_eq_div_pow, Nat.shiftRight_eq_div_pow]
  omega

theorem upperReplaced_low :
    ((v.extractLsb' 0 5 ++ t.extractLsb' 0 16).setWidth 21).extractLsb' 0 8 = t.extractLsb' 0 8 := by
  rw [BitVec.toNat_eq, BitVec.extractLsb'_toNat, BitVec.extractLsb'_toNat, upperReplaced_toNat, Nat.shiftRight_zero,
    Nat.shiftRight_zero]
  omega

theorem upperReplaced_high :
    ((v.extractLsb' 0 5 ++ t.extractLsb' 0 16).setWidth 21).extractLsb' 8 8 = t.extractLsb' 8 8 := by
  rw [BitVec.toNat_eq, BitVec.extractLsb'_toNat, BitVec.extractLsb'_toNat, upperReplaced_toNat,
    Nat.shiftRight_eq_div_pow, Nat.shiftRight_eq_div_pow]
  omega

theorem upperReplaced_upper :
    ((v.extractLsb' 0 5 ++ t.extractLsb' 0 16).setWidth 21).extractLsb' 16 5 = v.extractLsb' 0 5 := by
  rw [BitVec.toNat_eq, BitVec.extractLsb'_toNat, BitVec.extractLsb'_toNat, upperReplaced_toNat, Nat.shiftRight_zero,
    Nat.shiftRight_eq_div_pow]
  omega

end ReplacedByte

/-- Settles O18. -/
theorem topOfStackWindow : Obligations.TopOfStackWindow := by
  intro s v affects
  refine ⟨fun hsp => ⟨?low, ?high, ?upper, ?frame⟩, fun hsp r hr => ?empty⟩
  case low => rw [State.writeSfr, State.tos_setTos hsp, lowReplaced_toNat]
  case high => rw [State.writeSfr, State.tos_setTos hsp, highReplaced_toNat]
  case upper => rw [State.writeSfr, State.tos_setTos hsp, upperReplaced_toNat]
  case frame =>
    have hset : ∀ x : ProgAddr, ∃ k : Vector ProgAddr 31,
        s.setTos x = { s with stack := k } ∧ ∀ j : Nat, j + 1 ≠ s.sp.toNat → k[j]? = s.stack[j]? := fun x =>
      ⟨(s.setTos x).stack, by rw [State.setTos_of_ne_zero hsp], fun _ hj => State.setTos_stack_other x hj⟩
    rintro r (rfl | rfl | rfl)
    · exact hset _
    · exact hset _
    · exact hset _
  case empty =>
    rcases hr with rfl | rfl | rfl
    all_goals
      refine ⟨State.setTos_of_zero hsp _, ?_⟩
      rw [State.readSfr, State.tos_of_zero hsp]
      rfl

/-! ### The core registers read back (R45, R92, R93) -/

theorem five_bits_kept : ∀ v : Byte, (v.extractLsb' 0 5).setWidth 8 = v &&& 0x1F#8 := by decide

theorem four_bits_kept : ∀ v : Byte, (v.extractLsb' 0 4).setWidth 8 = v &&& 0x0F#8 := by decide

theorem stkptr_bits_kept : ∀ v : Byte,
    (BitVec.ofBool (v.getLsbD 7) ++ BitVec.ofBool (v.getLsbD 6) ++ 0#1 ++ v.extractLsb' 0 5).setWidth 8 =
      v &&& 0xDF#8 := by decide

theorem Status.toByte_ofByte : ∀ v : Byte, (Status.ofByte v).toByte = v &&& 0x1F#8 := by decide

theorem all_bits_kept (v : Byte) : v = v &&& 0xFF#8 := BitVec.and_allOnes.symm

/-- What a core register that holds state reads as after a write of `v`: the bits it implements. -/
theorem State.readSfr_writeSfr_same {s : State} {r : Sfr} {affects : Bool} (v : Byte) (pcSeen : ProgAddr) (hpcl : r ≠ .pcl)
    (hind : ∀ n m, r ≠ .ind n m) (htos : r = .tosu ∨ r = .tosh ∨ r = .tosl → s.sp ≠ 0#5)
    (hstatus : r = .status → affects = false) :
    (s.writeSfr affects r v).readSfr pcSeen r = v &&& sfrMask r := by
  cases r with
  | tosu =>
    rw [State.writeSfr, State.readSfr, State.tos_setTos (htos (.inl rfl)), upperReplaced_upper]
    exact five_bits_kept v
  | tosh =>
    rw [State.writeSfr, State.readSfr, State.tos_setTos (htos (.inr (.inl rfl))), highReplaced_high]
    exact all_bits_kept v
  | tosl =>
    rw [State.writeSfr, State.readSfr, State.tos_setTos (htos (.inr (.inr rfl))), lowReplaced_low]
    exact all_bits_kept v
  | stkptr => exact stkptr_bits_kept v
  | pclatu => exact five_bits_kept v
  | tblptru =>
    refine Eq.trans ?_ (five_bits_kept v)
    exact congrArg (BitVec.setWidth 8) (upperReplaced_upper s.tblptr v)
  | tblptrh => exact (highReplaced_high s.tblptr v).trans (all_bits_kept v)
  | tblptrl => exact (lowReplaced_low s.tblptr v).trans (all_bits_kept v)
  | fsrh n =>
    rw [State.writeSfr, State.readSfr, State.setFsr_fsr_same, BitVec.setWidth_eq]
    exact (congrArg (BitVec.setWidth 8) BitVec.extractLsb'_append_eq_left).trans (four_bits_kept v)
  | fsrl n =>
    rw [State.writeSfr, State.readSfr, State.setFsr_fsr_same, BitVec.setWidth_eq]
    exact BitVec.extractLsb'_append_eq_right.trans (all_bits_kept v)
  | pclath | tablat | prodh | prodl | wreg => exact all_bits_kept v
  | bsr => exact four_bits_kept v
  | status =>
    rw [hstatus rfl]
    exact Status.toByte_ofByte v
  | pcl => exact absurd rfl hpcl
  | ind n m => exact absurd rfl (hind n m)

/-- Two core registers that share the registers they are made of: bytes of one word, or the two bytes of an FSR. -/
inductive Sfr.SharesWord : Sfr → Sfr → Prop
  | tosu_tosh : SharesWord .tosu .tosh
  | tosu_tosl : SharesWord .tosu .tosl
  | tosh_tosu : SharesWord .tosh .tosu
  | tosh_tosl : SharesWord .tosh .tosl
  | tosl_tosu : SharesWord .tosl .tosu
  | tosl_tosh : SharesWord .tosl .tosh
  | tblptru_tblptrh : SharesWord .tblptru .tblptrh
  | tblptru_tblptrl : SharesWord .tblptru .tblptrl
  | tblptrh_tblptru : SharesWord .tblptrh .tblptru
  | tblptrh_tblptrl : SharesWord .tblptrh .tblptrl
  | tblptrl_tblptru : SharesWord .tblptrl .tblptru
  | tblptrl_tblptrh : SharesWord .tblptrl .tblptrh
  | fsrh_fsrl (n : Fsr) : SharesWord (.fsrh n) (.fsrl n)
  | fsrl_fsrh (n : Fsr) : SharesWord (.fsrl n) (.fsrh n)

/-- A write of the top word leaves what the other bytes of it show; at SP = 0 it is dropped. -/
theorem State.extractLsb'_tos_setTos (s : State) {x : ProgAddr} {k n : Nat}
    (h : x.extractLsb' k n = s.tos.extractLsb' k n) : (s.setTos x).tos.extractLsb' k n = s.tos.extractLsb' k n := by
  by_cases hsp : s.sp = 0#5
  · rw [State.setTos_of_zero hsp]
  · rw [State.tos_setTos hsp, h]

/-- A write of one byte of a word leaves its other bytes. -/
theorem State.readSfr_writeSfr_shared {r q : Sfr} (h : Sfr.SharesWord r q) (s : State) (affects : Bool) (v : Byte)
    (pcSeen : ProgAddr) : (s.writeSfr affects r v).readSfr pcSeen q = s.readSfr pcSeen q := by
  cases h with
  | tosu_tosh => exact State.extractLsb'_tos_setTos s (upperReplaced_high s.tos v)
  | tosu_tosl => exact State.extractLsb'_tos_setTos s (upperReplaced_low s.tos v)
  | tosh_tosu => exact congrArg (BitVec.setWidth 8) (State.extractLsb'_tos_setTos s (highReplaced_upper s.tos v))
  | tosh_tosl => exact State.extractLsb'_tos_setTos s (highReplaced_low s.tos v)
  | tosl_tosu => exact congrArg (BitVec.setWidth 8) (State.extractLsb'_tos_setTos s (lowReplaced_upper s.tos v))
  | tosl_tosh => exact State.extractLsb'_tos_setTos s (lowReplaced_high s.tos v)
  | tblptru_tblptrh => exact upperReplaced_high s.tblptr v
  | tblptru_tblptrl => exact upperReplaced_low s.tblptr v
  | tblptrh_tblptru => exact congrArg (BitVec.setWidth 8) (highReplaced_upper s.tblptr v)
  | tblptrh_tblptrl => exact highReplaced_low s.tblptr v
  | tblptrl_tblptru => exact congrArg (BitVec.setWidth 8) (lowReplaced_upper s.tblptr v)
  | tblptrl_tblptrh => exact lowReplaced_high s.tblptr v
  | fsrh_fsrl n =>
    rw [State.writeSfr, State.readSfr, State.setFsr_fsr_same, BitVec.setWidth_eq]
    exact BitVec.extractLsb'_append_eq_right
  | fsrl_fsrh n =>
    rw [State.writeSfr, State.readSfr, State.setFsr_fsr_same, BitVec.setWidth_eq]
    exact congrArg (BitVec.setWidth 8) BitVec.extractLsb'_append_eq_left

/-- The core registers that show a register. -/
def Reg.shownBy : Reg → List Sfr
  | .stack => [.tosu, .tosh, .tosl]
  | .sp => [.tosu, .tosh, .tosl, .stkptr]
  | .stkovf | .stkunf => [.stkptr]
  | .pclatu => [.pclatu]
  | .pclath => [.pclath]
  | .tblptr => [.tblptru, .tblptrh, .tblptrl]
  | .tablat => [.tablat]
  | .prodh => [.prodh]
  | .prodl => [.prodl]
  | .fsr n => [.fsrh n, .fsrl n]
  | .w => [.wreg]
  | .bsr => [.bsr]
  | .flagN | .flagOv | .flagZ | .flagDc | .flagC => [.status]
  | _ => []

theorem Reg.mem_shownBy {x : Reg} {q : Sfr} (h : x ∈ Place.valueRegs (.sfr q)) : q ∈ x.shownBy := by
  cases q <;> simp only [Place.valueRegs, Reg.flags, List.mem_cons, List.not_mem_nil, or_false] at h
  case tosu | tosh | tosl => rcases h with rfl | rfl <;> decide
  case stkptr => rcases h with rfl | rfl | rfl <;> decide
  case status => rcases h with rfl | rfl | rfl | rfl | rfl <;> decide
  all_goals
    subst h
    simp [Reg.shownBy]

/-- Core registers that do not share a word are made of different registers; STKPTR also selects the top word. -/
theorem Sfr.disjoint_writes_valueRegs {r q : Sfr} (hne : q ≠ r) (hshare : ¬ Sfr.SharesWord r q)
    (hstkptr : r = .stkptr → q ≠ .tosu ∧ q ≠ .tosh ∧ q ≠ .tosl) :
    ∀ x ∈ Place.valueRegs (.sfr q), x ∉ Place.writes (.sfr r) := by
  intro x hx hw
  have hq := Reg.mem_shownBy hx
  cases r <;> simp only [Place.writes, Reg.flags, List.mem_cons, List.not_mem_nil, or_false] at hw
  case stkptr =>
    obtain ⟨hu, hh, hl⟩ := hstkptr rfl
    rcases hw with rfl | rfl | rfl <;> simp_all [Reg.shownBy]
  case status =>
    rcases hw with rfl | rfl | rfl | rfl | rfl <;> exact hne (List.mem_singleton.mp hq)
  case pcl =>
    subst hw
    cases hq
  all_goals
    subst hw
    simp only [Reg.shownBy, List.mem_cons, List.not_mem_nil, or_false] at hq
  case tosu => rcases hq with rfl | rfl | rfl; exacts [hne rfl, hshare .tosu_tosh, hshare .tosu_tosl]
  case tosh => rcases hq with rfl | rfl | rfl; exacts [hshare .tosh_tosu, hne rfl, hshare .tosh_tosl]
  case tosl => rcases hq with rfl | rfl | rfl; exacts [hshare .tosl_tosu, hshare .tosl_tosh, hne rfl]
  case tblptru => rcases hq with rfl | rfl | rfl; exacts [hne rfl, hshare .tblptru_tblptrh, hshare .tblptru_tblptrl]
  case tblptrh => rcases hq with rfl | rfl | rfl; exacts [hshare .tblptrh_tblptru, hne rfl, hshare .tblptrh_tblptrl]
  case tblptrl => rcases hq with rfl | rfl | rfl; exacts [hshare .tblptrl_tblptru, hshare .tblptrl_tblptrh, hne rfl]
  case fsrh n => rcases hq with rfl | rfl; exacts [hne rfl, hshare (.fsrh_fsrl n)]
  case fsrl n => rcases hq with rfl | rfl; exacts [hshare (.fsrl_fsrh n), hne rfl]
  all_goals exact hne hq

/-- No core register shows what a read of the enable byte or of a peripheral depends on. -/
theorem Sfr.env_notMem_writes (r : Sfr) {x : Reg} (h : x ∈ [Reg.gieh, .giel, .env, .free]) :
    x ∉ Place.writes (.sfr r) := by
  simp only [List.mem_cons, List.not_mem_nil, or_false] at h
  rcases h with rfl | rfl | rfl | rfl <;> cases r <;> simp [Place.writes, Reg.flags]

/-- Settles O17. -/
theorem coreRegistersReadBack : Obligations.CoreRegistersReadBack := by
  intro s t r v affects readClass ht
  obtain ⟨hkeeps, hram, -⟩ := State.writeSfr_keeps s affects r v
  have hdev : (s.writeSfr affects r v).dev = s.dev := by rw [← dataWrite_of_sfr ht, dataWrite_dev]
  rw [dataWrite_of_sfr ht]
  refine ⟨fun hpcl hind htos hstatus => ?same, fun u hu hstkptr => ?other⟩
  case same =>
    have ht' : (s.writeSfr affects r v).place t = .sfr r := (State.place_congr _ _ t hdev).trans ht
    rw [dataRead_val_of_sfr ht', State.readSfr_writeSfr_same v s.pc hpcl hind htos hstatus]
  case other =>
    have hregs : ∀ x ∉ Place.writes (.sfr r), x.kept s (s.writeSfr affects r v) := fun x hx => hkeeps x (by
      split
      · exact List.not_mem_nil
      · exact hx)
    by_cases hshare : ∃ q, s.place u = .sfr q ∧ Sfr.SharesWord r q
    · obtain ⟨q, hq, hshare⟩ := hshare
      have hq' : (s.writeSfr affects r v).place u = .sfr q := (State.place_congr _ _ u hdev).trans hq
      rw [dataRead_val_of_sfr hq, dataRead_val_of_sfr hq', State.readSfr_writeSfr_shared hshare]
    · refine dataRead_val_congr readClass s.pc hdev (fun _ => by rw [hram]) fun x hx => hregs x ?_
      cases hp : s.place u with
      | sfr q =>
        rw [hp] at hx hu hstkptr
        exact Sfr.disjoint_writes_valueRegs (fun h => hu (congrArg _ h)) (fun h => hshare ⟨q, hp, h⟩)
          (fun h => by simpa using hstkptr h) x hx
      | gie | peripheral =>
        rw [hp] at hx
        exact Sfr.env_notMem_writes r (by revert hx; simp +contextual [Place.valueRegs])
      | gpr | unimplemented =>
        rw [hp] at hx
        cases hx

/-! ### The enable byte and the peripherals (R99, R411) -/

theorem State.periphRead_snd (s : State) (t : DataAddr) :
    (s.periphRead t).2 =
      { s with trace := .sfrRead t :: s.trace, free := if s.env.periph = none then s.free + 1 else s.free } := by
  rw [State.periphRead_eq]
  cases s.env.periph <;> rfl

theorem State.periphRead_of_sampled {s : State} {e : Byte} (h : s.env.periph = some e) (t : DataAddr) :
    (s.periphRead t).1 = e := by
  rw [State.periphRead_eq, h]
  rfl

/-- The enable byte as a number: two enables above six bits of the environment's. -/
theorem enableByte_toNat (x y : Bool) (e : Byte) :
    ((BitVec.ofBool x ++ BitVec.ofBool y ++ e.extractLsb' 0 6).setWidth 8).toNat =
      (2 * x.toNat + y.toNat) * 64 + e.toNat % 64 := by
  rw [BitVec.setWidth_eq, toNat_append_add, toNat_append_add, BitVec.extractLsb'_toNat, Nat.shiftRight_zero,
    BitVec.toNat_ofBool, BitVec.toNat_ofBool, Nat.mul_comm x.toNat]
  rfl

theorem dataWrite_of_gie {s : State} {t : DataAddr} (h : s.place t = .gie) (affects : Bool) (v : Byte) :
    dataWrite affects t v s =
      { s with
        gieh := decide (128 ≤ v.toNat), giel := decide (64 ≤ v.toNat % 128),
        trace := .gieRest (BitVec.ofNat 6 v.toNat) :: s.trace } := by
  have hgiel : v.getLsbD 6 = decide (64 ≤ v.toNat % 128) := by
    rw [getLsbD_eq_decide, decide_eq_decide]
    omega
  have hrest : v.extractLsb' 0 6 = BitVec.ofNat 6 v.toNat := by
    rw [BitVec.toNat_eq, BitVec.extractLsb'_toNat, Nat.shiftRight_zero, BitVec.toNat_ofNat]
  rw [dataWrite, h, ← getLsbD_seven_eq_decide, ← hgiel, ← hrest]
  rfl

theorem dataWrite_of_peripheral {s : State} {t : DataAddr} (h : s.place t = .peripheral) (affects : Bool) (v : Byte) :
    dataWrite affects t v s = { s with trace := .sfrWrite t v :: s.trace } := by
  rw [dataWrite, h]
  rfl

/-- Settles O19. -/
theorem enableByteAndPeripherals : Obligations.EnableByteAndPeripherals := by
  intro s t v readClass affects
  refine ⟨?state, fun h => ⟨?enables, ?rest, dataWrite_of_gie h affects v⟩,
    fun h => ⟨fun e he => ?byte, dataWrite_of_peripheral h affects v⟩⟩
  case state =>
    rintro (h | h)
    · rw [dataRead_of_gie h, State.periphRead_snd]
    · rw [dataRead_of_peripheral h, State.periphRead_snd]
  case enables =>
    rw [dataRead_of_gie h, enableByte_toNat]
    omega
  case rest =>
    intro e he
    rw [dataRead_of_gie h, enableByte_toNat, State.periphRead_of_sampled he]
    omega
  case byte => rw [dataRead_of_peripheral h, State.periphRead_of_sampled he]

/-! ### The reset state (R60) -/

/-- Settles O8: every field at its value in the definition. -/
theorem stateAtReset : Obligations.StateAtReset := ⟨rfl, rfl, rfl, rfl, rfl, rfl, rfl, rfl, rfl, rfl, rfl, rfl⟩

/-- Settles O9. -/
theorem invariantAtReset : Obligations.InvariantAtReset := ⟨rfl, rfl, State.reset_wf⟩

end Sys2Proof.Machine
end

section
/-! PROOFS. The statements about the file operand that reaches STATUS, PCL, an INDF-family address, a byte of its own FSR or
an unimplemented location, CLRF and SETF, and MOVFF (spec/10_state.md R25; spec/20_memory.md R89 to R95;
spec/40_byte_file_ops.md R220, R222; spec/41_skip_mul_move.md R250). -/

namespace Sys2Proof.Machine

open Sys2Proof

/-! ### What naming, reading and ending an operand keep -/

theorem State.readRegs_subset_changedByRead (s : State) (loc : Loc) (u : FileUse) :
    s.readRegs loc u ⊆ Reg.changedByRead := by
  refine List.append_subset.mpr ⟨State.fsrOf_subset_changedByRead s _, ?_⟩
  split
  · exact List.nil_subset _
  · exact Place.reads_subset_changedByRead u _

section Kept

variable (u : FileUse) (f : Byte) (a : Access) (s : State)

theorem operandRead_changes : keepsAllBut Reg.changedByRead s (operandRead u f a s).2 :=
  keepsAllBut_mono _ _ _ _ (operandRead_keeps u f a s).1 (State.readRegs_subset_changedByRead _ _ _)

@[simp] theorem operandRead_w : (operandRead u f a s).2.w = s.w := operandRead_changes u f a s .w (by decide)

@[simp] theorem operandRead_pc : (operandRead u f a s).2.pc = s.pc := operandRead_changes u f a s .pc (by decide)

@[simp] theorem operandRead_status : (operandRead u f a s).2.status = s.status :=
  (operandRead_changes u f a s).status_eq (by decide)

@[simp] theorem operandRead_ram : (operandRead u f a s).2.ram = s.ram := (operandRead_keeps u f a s).2.1

@[simp] theorem operandBegin_status (t0 : DataAddr) : (operandBegin t0 s).2.status = s.status := by
  unfold operandBegin
  split <;> simp

@[simp] theorem operandBegin_w (t0 : DataAddr) : (operandBegin t0 s).2.w = s.w := by
  unfold operandBegin
  split <;> simp

@[simp] theorem operandBegin_pclath (t0 : DataAddr) : (operandBegin t0 s).2.pclath = s.pclath := by
  unfold operandBegin
  split <;> simp

@[simp] theorem operandBegin_pclatu (t0 : DataAddr) : (operandBegin t0 s).2.pclatu = s.pclatu := by
  unfold operandBegin
  split <;> simp

variable (loc : Loc) (wrote : Bool)

theorem operandEnd_changes : keepsAllBut Reg.changedByRead s (operandEnd loc wrote s) := by
  refine keepsAllBut_mono _ _ _ _ (operandEnd_keeps loc wrote s).1 (State.fsrOf_subset_changedByRead s _)

@[simp] theorem operandEnd_w : (operandEnd loc wrote s).w = s.w := operandEnd_changes s loc wrote .w (by decide)

@[simp] theorem operandEnd_status : (operandEnd loc wrote s).status = s.status :=
  (operandEnd_changes s loc wrote).status_eq (by decide)

@[simp] theorem operandEnd_ram : (operandEnd loc wrote s).ram = s.ram := (operandEnd_keeps loc wrote s).2.1

@[simp] theorem operandEnd_pclath : (operandEnd loc wrote s).pclath = s.pclath := by
  unfold operandEnd
  split <;> (try split_ifs) <;> simp

@[simp] theorem operandEnd_pclatu : (operandEnd loc wrote s).pclatu = s.pclatu := by
  unfold operandEnd
  split <;> (try split_ifs) <;> simp

end Kept

/-! ### A result stored where it is not dropped (R89) -/

theorem dropped_congr {s x : State} (h : x.dev = s.dev) (loc : Loc) : dropped loc x = dropped loc s := by
  rw [dropped, dropped, State.isInd, State.isInd, State.isInd, State.isInd, State.place_congr s x _ h,
    State.place_congr s x _ h]

theorem dropped_eq_false {s : State} {loc : Loc} (h : ∀ n m, s.place loc.target ≠ .sfr (.ind n m)) :
    dropped loc s = false := by
  rw [dropped, isInd_eq_false_iff.mpr h, Bool.and_false]

theorem storeResult_of_not_dropped {s : State} {loc : Loc} (h : ∀ n m, s.place loc.target ≠ .sfr (.ind n m)) (r : Alu) :
    storeResult loc r s = (dataWrite r.flags.affects loc.target r.val s).applyFlags r.flags := by
  rw [storeResult, dropped_eq_false h]
  rfl

theorem storeResult_of_dropped {s : State} {loc : Loc} (h : dropped loc s = true) (r : Alu) : storeResult loc r s = s :=
  if_pos h

theorem resultToFile_of_sfr {s : State} {f : Byte} {a : Access} {q : Sfr}
    (h : s.place (operandBegin (s.ea f a) s).1.target = .sfr q) (hq : ∀ n m, q ≠ .ind n m) (u : FileUse) (r : Byte)
    (fl : FlagUpdate) :
    resultToFile u f a r fl s =
      operandEnd (operandBegin (s.ea f a) s).1 true
        (((operandRead u f a s).2.writeSfr fl.affects q r).applyFlags fl) := by
  have hplace : (operandRead u f a s).2.place (operandBegin (s.ea f a) s).1.target = .sfr q := by
    rw [State.place_operandRead, h]
  rw [resultToFile_eq_storeResult, operandRead_loc, storeResult_of_not_dropped, dataWrite_of_sfr hplace]
  intro n m hind
  exact hq n m (Place.sfr.inj (hplace.symm.trans hind))

theorem exec_movwf (f : Byte) (a : Access) (s : State) :
    exec (.movwf f a) s = .next (resultToFile .write f a s.w FlagUpdate.nothing s) := rfl

theorem exec_clrf (f : Byte) (a : Access) (s : State) :
    exec (.clrf f a) s = .next (resultToFile .write f a 0x00#8 clrfFlags s) := rfl

theorem exec_setf (f : Byte) (a : Access) (s : State) :
    exec (.setf f a) s = .next (resultToFile .write f a 0xFF#8 FlagUpdate.nothing s) := rfl

theorem operandValue_of_sfr {s : State} {f : Byte} {a : Access} {q : Sfr}
    (h : s.place (operandBegin (s.ea f a) s).1.target = .sfr q) :
    operandValue f a s = (operandBegin (s.ea f a) s).2.readSfr s.pc q :=
  dataRead_val_of_sfr (by rw [State.place_operandBegin, h]) true s.pc

/-! ### STATUS as the destination (R25) -/

theorem Status.update_of_not_affects {fl : FlagUpdate} (h : fl.affects = false) (x : Status) : x.update fl = x := by
  obtain ⟨n, ov, z, dc, c⟩ := fl
  simp only [FlagUpdate.affects, Bool.or_eq_false_iff, Option.isSome_eq_false_iff, Option.isNone_iff_eq_none] at h
  obtain ⟨⟨⟨⟨rfl, rfl⟩, rfl⟩, rfl⟩, rfl⟩ := h
  rfl

/-- An instruction with flags writes its flags alone; one without takes the data. -/
theorem resultToFile_status {s : State} {f : Byte} {a : Access}
    (h : s.place (operandBegin (s.ea f a) s).1.target = .sfr .status) (u : FileUse) (r : Byte) (fl : FlagUpdate) :
    (resultToFile u f a r fl s).status = if fl.affects then s.status.update fl else Status.ofByte r := by
  rw [resultToFile_of_sfr h nofun, operandEnd_status, State.applyFlags_status, State.writeSfr]
  split_ifs with haffects
  · rw [operandRead_status]
  · rw [State.setStatus_status, Status.update_of_not_affects (by simpa using haffects)]

theorem Status.ofByte_clear_c : ∀ n ov z dc c : Bool,
    Status.ofByte (Status.toByte { n := n, ov := ov, z := z, dc := dc, c := c } &&& ~~~bitMask 0#3) =
      { n := n, ov := ov, z := z, dc := dc, c := false } := by decide

/-- Settles O23. -/
theorem statusAsDestination : Obligations.StatusAsDestination := by
  intro s f a h
  have hvalue : operandValue f a s = s.status.toByte := by
    rw [operandValue_of_sfr h, State.readSfr, operandBegin_status]
  refine ⟨fun op => ?byteOp, ⟨_, exec_clrf f a s, resultToFile_status h .write _ _⟩,
    ⟨_, exec_setf f a s, ?setf⟩, ⟨_, exec_movwf f a s, ?movwf⟩, ⟨_, exec_bcf f 0#3 a s, ?bcf⟩⟩
  case byteOp =>
    rw [byteDA_eq, hvalue]
    exact resultToFile_status h .modify _ _
  case setf =>
    rw [resultToFile_status h]
    exact (Status.toByte_ofByte 0xFF#8).trans (by decide)
  case movwf =>
    rw [resultToFile_status h]
    exact Status.toByte_ofByte s.w
  case bcf =>
    rw [resultToFile_status h, hvalue]
    exact Status.ofByte_clear_c _ _ _ _ _

/-! ### PCL (R94, R95) -/

theorem loadLatches_eq (s : State) (t : ProgAddr) :
    s.loadLatches t =
      { s with pclath := BitVec.ofNat 8 (t.toNat / 256), pclatu := BitVec.ofNat 5 (t.toNat / 65536) } := by
  have hhigh : t.extractLsb' 8 8 = BitVec.ofNat 8 (t.toNat / 256) := by
    rw [BitVec.toNat_eq, BitVec.extractLsb'_toNat, Nat.shiftRight_eq_div_pow, BitVec.toNat_ofNat]
  have hupper : t.extractLsb' 16 5 = BitVec.ofNat 5 (t.toNat / 65536) := by
    rw [BitVec.toNat_eq, BitVec.extractLsb'_toNat, Nat.shiftRight_eq_div_pow, BitVec.toNat_ofNat]
  rw [State.loadLatches, hhigh, hupper]

theorem dataRead_pcl_eq {s : State} {t : DataAddr} (h : s.place t = .sfr .pcl) (pcSeen : ProgAddr) :
    dataRead true pcSeen t s = (BitVec.ofNat 8 pcSeen.toNat,
      { s with pclath := BitVec.ofNat 8 (pcSeen.toNat / 256), pclatu := BitVec.ofNat 5 (pcSeen.toNat / 65536) }) ∧
    dataRead false pcSeen t s = (BitVec.ofNat 8 pcSeen.toNat, s) := by
  have hlow : pcSeen.extractLsb' 0 8 = BitVec.ofNat 8 pcSeen.toNat := rfl
  rw [dataRead_of_pcl h, dataRead_of_pcl h, hlow, ← loadLatches_eq]
  exact ⟨rfl, rfl⟩

/-- A read-class read of PCL through an operand loads both latches from the pc. -/
theorem operandRead_of_pcl {s : State} {f : Byte} {a : Access}
    (h : s.place (operandBegin (s.ea f a) s).1.target = .sfr .pcl) :
    (operandRead .read f a s).2 = (operandBegin (s.ea f a) s).2.loadLatches s.pc := by
  rw [← State.place_operandBegin (s.ea f a)] at h
  rw [operandRead, dataRead_of_pcl h]
  rfl

/-- An instruction that does not write its operand leaves the latches as the operand's read leaves them. -/
theorem FileForm.read_latches {i : Instr} {f : Byte} {a : Access} {s t : State} (h : FileForm i f a s .read t) :
    t.pclath = (operandRead .read f a s).2.pclath ∧ t.pclatu = (operandRead .read f a s).2.pclatu := by
  cases h with
  | toW r fl b => simp [resultToW]
  | test b => simp [readNext]
  | product x y => simp [readNext]
  | toFile _ r fl b hu => exact absurd rfl hu

theorem latches_toNat (s : State) (t : ProgAddr) :
    (s.loadLatches t).pclath.toNat = t.toNat / 256 % 256 ∧ (s.loadLatches t).pclatu.toNat = t.toNat / 65536 := by
  have ht := t.isLt
  rw [State.loadLatches_pclath, State.loadLatches_pclatu, BitVec.extractLsb'_toNat, BitVec.extractLsb'_toNat,
    Nat.shiftRight_eq_div_pow, Nat.shiftRight_eq_div_pow]
  omega

theorem operandValue_of_pcl {s : State} {f : Byte} {a : Access}
    (h : s.place (operandBegin (s.ea f a) s).1.target = .sfr .pcl) : operandValue f a s = s.pc.setWidth 8 := by
  rw [operandValue_of_sfr h]
  rfl

theorem exec_movf (f : Byte) (d : Dest) (a : Access) (s : State) :
    exec (.movf f d a) s = .next (byteNext f d a (operandValue f a s) (logicFlags (operandValue f a s)) s) :=
  exec_eq_byteNext rfl (withNZ_eq _)

@[simp] theorem resultToW_w (f : Byte) (a : Access) (r : Byte) (fl : FlagUpdate) (s : State) :
    (resultToW f a r fl s).w = r := by
  rw [resultToW, operandEnd_w]
  rfl

@[simp] theorem resultToW_pc (f : Byte) (a : Access) (r : Byte) (fl : FlagUpdate) (s : State) :
    (resultToW f a r fl s).pc = s.pc := by
  rw [resultToW, operandEnd_pc]
  exact operandRead_pc .read f a s

/-- Settles O24. -/
theorem pclReadLoadsLatches : Obligations.PclReadLoadsLatches := by
  refine ⟨fun s t pcSeen h => dataRead_pcl_eq h pcSeen, fun s f a h => ?reached⟩
  have hread : ∀ (i : Instr) (t : State), fileOperand i = some (f, a, .read) → exec i s = .next t →
      t.pclath.toNat = s.pc.toNat / 256 % 256 ∧ t.pclatu.toNat = s.pc.toNat / 65536 := by
    intro i t hi hexec
    obtain ⟨hpclath, hpclatu⟩ := (fileForm_of_exec hi hexec).read_latches
    rw [hpclath, hpclatu, operandRead_of_pcl h]
    exact latches_toNat _ _
  refine ⟨⟨_, exec_movf f .w a s, ?_⟩, fun i hi => ?_⟩
  · obtain ⟨hpclath, hpclatu⟩ := hread _ _ rfl (exec_movf f .w a s)
    refine ⟨?_, hpclath, hpclatu, resultToW_pc _ _ _ _ _⟩
    rw [byteNext, resultToW_w, operandValue_of_pcl h, BitVec.toNat_setWidth]
  · obtain ⟨t, hexec, -⟩ := exec_fileForm s hi
    exact ⟨t, hexec, hread i t hi hexec⟩

theorem pclTarget_toNat (s : State) (v : Byte) :
    (evenTarget (s.pclTarget v)).toNat = 65536 * s.pclatu.toNat + 256 * s.pclath.toNat + v.toNat / 2 * 2 := by
  have hv := v.isLt
  rw [evenTarget_toNat, State.pclTarget, BitVec.setWidth_eq, toNat_append_add, toNat_append_add]
  omega

theorem dataWrite_of_pcl {s : State} {t : DataAddr} (h : s.place t = .sfr .pcl) (affects : Bool) (v : Byte) :
    dataWrite affects t v s =
      { s with pc := BitVec.ofNat 21 (65536 * s.pclatu.toNat + 256 * s.pclath.toNat + v.toNat / 2 * 2) } := by
  rw [dataWrite_of_sfr h, ← pclTarget_toNat, BitVec.ofNat_toNat, BitVec.setWidth_eq]
  rfl

/-- A read that is written back, and no read, leave both latches. -/
theorem operandRead_latches {s : State} {f : Byte} {a : Access} {u : FileUse} (hu : u ≠ .read)
    (h : s.place (operandBegin (s.ea f a) s).1.target = .sfr .pcl) :
    (operandRead u f a s).2.pclath = s.pclath ∧ (operandRead u f a s).2.pclatu = s.pclatu := by
  rw [← State.place_operandBegin (s.ea f a)] at h
  cases u with
  | read => exact absurd rfl hu
  | modify =>
    rw [operandRead, dataRead_of_pcl h]
    exact ⟨operandBegin_pclath s _, operandBegin_pclatu s _⟩
  | write => exact ⟨operandBegin_pclath s _, operandBegin_pclatu s _⟩

/-- A result written to PCL jumps and leaves both latches. -/
theorem resultToFile_of_pcl {s : State} {f : Byte} {a : Access} {u : FileUse} (hu : u ≠ .read)
    (h : s.place (operandBegin (s.ea f a) s).1.target = .sfr .pcl) (r : Byte) (fl : FlagUpdate) :
    (resultToFile u f a r fl s).pc.toNat = 65536 * s.pclatu.toNat + 256 * s.pclath.toNat + r.toNat / 2 * 2 ∧
    (resultToFile u f a r fl s).pclath = s.pclath ∧ (resultToFile u f a r fl s).pclatu = s.pclatu := by
  obtain ⟨hpclath, hpclatu⟩ := operandRead_latches hu h
  rw [resultToFile_of_sfr h nofun, operandEnd_pc, operandEnd_pclath, operandEnd_pclatu, State.applyFlags_pc,
    State.applyFlags_pclath, State.applyFlags_pclatu, State.writeSfr, State.setPc_pc, pclTarget_toNat, hpclath, hpclatu]
  exact ⟨rfl, hpclath, hpclatu⟩

theorem byteDA_file_snd (f : Byte) (a : Access) (op : Byte → Byte → Bool → Alu) (s : State) :
    (byteDA f .file a op s).2 =
      resultToFile .modify f a (op (operandValue f a s) s.w s.status.c).val
        (op (operandValue f a s) s.w s.status.c).flags s := by
  rw [byteDA_eq]
  rfl

/-- MOVFF in the words of its two operands: the source's read, then the destination's write. -/
theorem exec_movff_of_gpr {f g : DataAddr} {s : State} (hf : s.place f = .gpr) :
    exec (.movff f g) s = .next (movffDest g (Memory.read s.ram f.toNat) s) := by
  have hdirect : s.isInd f = false := isInd_eq_false_iff.mpr fun n m h => by cases hf.symm.trans h
  have hsource : movffSource f s = (Memory.read s.ram f.toNat, s) := by
    rw [movffSource, operandBegin_of_direct hdirect, dataRead_of_gpr hf, operandEnd_of_direct hdirect]
  change Host.Outcome.next (movffDest g (movffSource f s).1 (movffSource f s).2) = _
  rw [hsource]

theorem movffDest_of_pcl {g : DataAddr} {s : State} (h : s.place (operandBegin g s).1.target = .sfr .pcl) (v : Byte) :
    (movffDest g v s).pc.toNat = 65536 * s.pclatu.toNat + 256 * s.pclath.toNat + v.toNat / 2 * 2 ∧
    (movffDest g v s).pclath = s.pclath ∧ (movffDest g v s).pclatu = s.pclatu := by
  rw [← State.place_operandBegin g] at h
  rw [movffDest, storeResult_of_not_dropped (fun n m hind => by cases h.symm.trans hind), dataWrite_of_sfr h,
    operandEnd_pc, operandEnd_pclath, operandEnd_pclatu, State.applyFlags_pc,
    State.applyFlags_pclath, State.applyFlags_pclatu, State.writeSfr, State.setPc_pc, pclTarget_toNat]
  simp

/-- Settles O25. -/
theorem pclWriteJumps : Obligations.PclWriteJumps := by
  refine ⟨fun s t v affects h => dataWrite_of_pcl h affects v, fun s f a h => ⟨fun op => ?byteOp, ?writes⟩,
    fun s f g hf hg => ⟨_, exec_movff_of_gpr hf, ?movff⟩, fun s h hpc hw hpclath hpclatu => ⟨_, rfl, ?specExample⟩⟩
  case byteOp =>
    rw [byteDA_file_snd, operandValue_of_pcl h]
    exact resultToFile_of_pcl (u := .modify) nofun h _ _
  case writes =>
    intro i hi
    simp only [List.mem_cons, List.not_mem_nil, or_false] at hi
    have hjump := fun r fl => resultToFile_of_pcl (u := .write) nofun h r fl
    rcases hi with rfl | rfl | rfl
    · obtain ⟨hpc, hkept⟩ := hjump s.w FlagUpdate.nothing
      exact ⟨_, exec_movwf f a s, hkept.1, hkept.2, by simpa using hpc⟩
    · obtain ⟨hpc, hkept⟩ := hjump 0x00#8 clrfFlags
      exact ⟨_, exec_clrf f a s, hkept.1, hkept.2, by simpa using hpc⟩
    · obtain ⟨hpc, hkept⟩ := hjump 0xFF#8 FlagUpdate.nothing
      exact ⟨_, exec_setf f a s, hkept.1, hkept.2, by simpa using hpc⟩
  case movff =>
    obtain ⟨hpc, hpclath, hpclatu⟩ := movffDest_of_pcl hg (Memory.read s.ram f.toNat)
    exact ⟨hpclath, hpclatu, hpc⟩
  case specExample =>
    have hea : s.ea 0xF9#8 .virt = 0xFF9#12 := rfl
    have hdirect : s.isInd 0xFF9#12 = false := isInd_eq_false_iff.mpr fun n m hind => by cases h.symm.trans hind
    have hreach : s.place (operandBegin (s.ea 0xF9#8 .virt) s).1.target = .sfr .pcl := by
      rw [hea, operandBegin_of_direct hdirect, h]
    obtain ⟨hjump, -⟩ := resultToFile_of_pcl (u := .modify) nofun hreach
      (aluAddwf (operandValue 0xF9#8 .virt s) s.w s.status.c).val (aluAddwf (operandValue 0xF9#8 .virt s) s.w s.status.c).flags
    have hsum : ∀ c : Bool, (aluAddwf ((0x0003F0#21).setWidth 8) 0x30#8 c).val.toNat = 0x20 := by decide
    rw [byteDA_file_snd, BitVec.toNat_eq, hjump, operandValue_of_pcl hreach, hpc, hw, hpclath, hpclatu, hsum]
    rfl

/-! ### The INDF family reached through the INDF family (R89) -/

section Dropped

variable {s : State} {f : Byte} {a : Access}

theorem exists_ind_of_isInd {t : DataAddr} (h : s.isInd t = true) : ∃ n m, s.place t = .sfr (.ind n m) := by
  unfold State.isInd at h
  split at h
  · exact ⟨_, _, ‹_›⟩
  · cases h

theorem target_ind_of_dropped {loc : Loc} (h : dropped loc s = true) : ∃ n m, s.place loc.target = .sfr (.ind n m) := by
  rw [dropped, Bool.and_eq_true] at h
  exact exists_ind_of_isInd h.2

theorem operandValue_of_dropped (h : dropped (operandBegin (s.ea f a) s).1 s = true) : operandValue f a s = 0#8 := by
  obtain ⟨n, m, htarget⟩ := target_ind_of_dropped h
  rw [operandValue_of_sfr htarget]
  rfl

/-- A dropped result leaves the FSR that the operand steps alone changed. -/
theorem resultToFile_of_dropped (h : dropped (operandBegin (s.ea f a) s).1 s = true) (u : FileUse) (r : Byte)
    (fl : FlagUpdate) :
    keepsAllBut (s.fsrOf (s.ea f a)) s (resultToFile u f a r fl s) ∧
    (resultToFile u f a r fl s).ram = s.ram ∧ (resultToFile u f a r fl s).pm = s.pm := by
  obtain ⟨n, m, htarget⟩ := target_ind_of_dropped h
  have hdrop : dropped (operandBegin (s.ea f a) s).1 (operandRead u f a s).2 = true :=
    (dropped_congr (operandRead_dev u f a s) _).trans h
  obtain ⟨hread, hreadRam, hreadPm⟩ := operandRead_keeps u f a s
  obtain ⟨-, hendRam, hendPm⟩ := operandEnd_keeps (operandBegin (s.ea f a) s).1 true (operandRead u f a s).2
  have hend := operandEnd_keeps_of_dev (operandRead_dev u f a s) (operandBegin (s.ea f a) s).1 true
  have hregs : s.readRegs (operandBegin (s.ea f a) s).1 u = s.fsrOf (s.ea f a) := by
    rw [State.readRegs, htarget, operandBegin_named]
    exact (congrArg _ (ite_self _)).trans (List.append_nil _)
  rw [resultToFile_eq_storeResult, operandRead_loc, storeResult_of_dropped hdrop]
  refine ⟨keepsAllBut_mono _ _ _ _ (keepsAllBut_trans _ _ _ _ _ hread hend) fun q hq => ?_,
    hendRam.trans hreadRam, hendPm.trans hreadPm⟩
  rw [hregs, operandBegin_named] at hq
  exact (List.mem_append.mp hq).elim id id

theorem FileForm.keeps_of_dropped {i : Instr} {t : State} {u : FileUse}
    (h : dropped (operandBegin (s.ea f a) s).1 s = true) (hform : FileForm i f a s u t) (hu : u ≠ .read) :
    keepsAllBut (ownRegs i ++ s.fsrOf (s.ea f a)) s t ∧ t.ram = s.ram ∧ t.pm = s.pm := by
  cases hform with
  | toW | test | product => exact absurd rfl hu
  | toFile _ r fl b _ _ hpc =>
    obtain ⟨hkeeps, hram, hpm⟩ := resultToFile_of_dropped h u r fl
    refine ⟨?_, by rw [State.skipIf_ram, hram], by rw [State.skipIf_pm, hpm]⟩
    cases b with
    | false => exact keepsAllBut_mono _ _ _ _ hkeeps fun q hq => List.mem_append_right _ hq
    | true =>
      refine keepsAllBut_mono _ _ _ _ (keepsAllBut_trans _ _ _ _ _ hkeeps (State.skipIf_keeps _ true)) fun q hq => ?_
      rw [List.mem_append, List.mem_singleton] at hq
      rcases hq with hq | rfl
      · exact List.mem_append_right _ hq
      · exact List.mem_append_left _ (hpc rfl)

end Dropped

/-- Settles O21. -/
theorem indfReachedThroughIndf : Obligations.IndfReachedThroughIndf := by
  intro s f a h
  have hvalue := operandValue_of_dropped h
  refine ⟨hvalue, ⟨_, exec_movf f .w a s, ?value, ?flags⟩,
    fun i u t hi hu hexec => (fileForm_of_exec hi hexec).keeps_of_dropped h hu⟩
  case value => rw [byteNext, resultToW_w, hvalue]
  case flags =>
    rw [byteNext, resultToW, operandEnd_status, State.applyFlags_status, State.setW_status, operandRead_status, hvalue]
    rfl

/-! ### A store through an FSR onto that FSR (R90) -/

theorem resultToFile_write_of_sfr {s : State} {f : Byte} {a : Access} {loc : Loc} {q : Sfr}
    (hbegin : operandBegin (s.ea f a) s = (loc, s)) (h : s.place loc.target = .sfr q) (hq : ∀ n m, q ≠ .ind n m)
    (r : Byte) : resultToFile .write f a r FlagUpdate.nothing s = operandEnd loc true (s.writeSfr false q r) := by
  have hplace : s.place (operandBegin (s.ea f a) s).1.target = .sfr q := by rw [hbegin, h]
  rw [resultToFile_of_sfr hplace hq, operandRead, hbegin]
  rfl

/-- The read of a core register other than PCL changes nothing, so the result and the step are all there is. -/
theorem resultToW_of_sfr {s : State} {f : Byte} {a : Access} {loc : Loc} {q : Sfr}
    (hbegin : operandBegin (s.ea f a) s = (loc, s)) (h : s.place loc.target = .sfr q) (hq : q ≠ .pcl) (r : Byte)
    (fl : FlagUpdate) : resultToW f a r fl s = operandEnd loc false ((s.setW r).applyFlags fl) := by
  rw [resultToW, operandRead, hbegin, dataRead_of_sfr h hq]

/-- Settles O22: the written byte is a byte of the FSR named, which drops the step; after a read the step is taken. -/
theorem fsrWriteDominates : Obligations.FsrWriteDominates := by
  intro s f a n r hr hreach
  have hpcl : r ≠ .pcl := by rcases hr with rfl | rfl <;> nofun
  have hind : ∀ n m, r ≠ .ind n m := by rcases hr with rfl | rfl <;> nofun
  have hdev : (s.writeSfr false r s.w).dev = s.dev := by rw [← dataWrite_of_sfr hreach, dataWrite_dev]
  have hbyte : (s.writeSfr false r s.w).isFsrByte n (s.fsr n) = true := by
    rw [isFsrByte_eq_true_iff, State.place_congr s _ _ hdev, hreach]
    exact hr.imp (congrArg _) (congrArg _)
  have hvalue : ∀ loc : Loc, loc.target = s.fsr n → operandBegin (s.ea f a) s = (loc, s) →
      operandValue f a s = s.readSfr s.pc r := by
    intro loc hloc hbegin
    rw [operandValue_of_sfr (q := r) (by rw [hbegin, hloc, hreach]), hbegin]
  have hfsr : ((s.setW (s.readSfr s.pc r)).applyFlags (logicFlags (s.readSfr s.pc r))).fsr n = s.fsr n := by
    cases n <;> rfl
  refine ⟨fun hnamed => ?postinc, fun hnamed => ?postdec⟩
  case postinc =>
    have hbegin := operandBegin_of_unstepped (.inr (.inl hnamed))
    refine ⟨congrArg Host.Outcome.next (Eq.trans (resultToFile_write_of_sfr hbegin hreach hind s.w) ?_), ?_⟩
    · rw [operandEnd_postinc (n := n) ((State.place_congr s _ _ hdev).trans hnamed), hbyte]
      rfl
    · rw [exec_movf, byteNext, hvalue _ rfl hbegin, resultToW_of_sfr hbegin hreach hpcl, operandEnd_postinc (n := n) hnamed,
        hfsr]
      rfl
  case postdec =>
    have hbegin := operandBegin_of_unstepped (.inr (.inr hnamed))
    refine ⟨congrArg Host.Outcome.next (Eq.trans (resultToFile_write_of_sfr hbegin hreach hind s.w) ?_), ?_⟩
    · rw [operandEnd_postdec (n := n) ((State.place_congr s _ _ hdev).trans hnamed), hbyte]
      rfl
    · rw [exec_movf, byteNext, hvalue _ rfl hbegin, resultToW_of_sfr hbegin hreach hpcl, operandEnd_postdec (n := n) hnamed,
        hfsr]
      rfl

/-! ### CLRF and SETF (R220, R222) -/

theorem decode_encByteA_row6 (op : BitVec 7) (f : Byte) (a : Access) (w2 : Word) (hrow : op.toNat / 8 = 6) :
    decode (encByteA op f a) w2 = decodeRow6 (encByteA op f a) := by
  rw [decode, encByteA_row, hrow]
  rfl

theorem isInd_false_of_sfr {s : State} {t : DataAddr} {q : Sfr} (h : s.place t = .sfr q) (hq : ∀ n m, q ≠ .ind n m) :
    s.isInd t = false := isInd_eq_false_iff.mpr fun n m hind => hq n m (Place.sfr.inj (h.symm.trans hind))

theorem isInd_false_of_gpr {s : State} {t : DataAddr} (h : s.place t = .gpr) : s.isInd t = false :=
  isInd_eq_false_iff.mpr fun n m hind => by cases h.symm.trans hind

/-- A result written, unread, to a location named directly that is no INDF-family address. -/
theorem resultToFile_write_direct {s : State} {f : Byte} {a : Access} (h : s.isInd (s.ea f a) = false) (r : Byte)
    (fl : FlagUpdate) :
    resultToFile .write f a r fl s = (dataWrite fl.affects (s.ea f a) r s).applyFlags fl := by
  have hend : ((dataWrite fl.affects (s.ea f a) r s).applyFlags fl).isInd (s.ea f a) = false := by
    rw [isInd_eq_false_iff] at h ⊢
    intro n m
    rw [State.place_congr s ((dataWrite fl.affects (s.ea f a) r s).applyFlags fl) _ (dataWrite_dev _ _ _ s)]
    exact h n m
  rw [resultToFile_eq_storeResult, operandRead, operandBegin_of_direct h,
    storeResult_of_not_dropped (isInd_eq_false_iff.mp h), operandEnd_of_direct hend]

/-- Settles O31. -/
theorem clearAndSetResults : Obligations.ClearAndSetResults := by
  intro s f a w2
  have hbit : (if a = .banked then 1#1 else 0#1) = a.bit := by cases a <;> rfl
  rw [hbit]
  refine ⟨decode_encode (.clrf f a) rfl w2, decode_encode (.setf f a) rfl w2, rfl, rfl, fun h => ⟨_, rfl, ?status, ?ram⟩,
    fun h => ⟨?clrfStatus, ?setfStatus⟩, fun h => ?pcl, fun h => ⟨?clrfGpr, ?setfGpr⟩⟩
  case status =>
    exact (resultToFile_of_dropped h .write 0x00#8 clrfFlags).1.status_eq fun q hq hmem => by
      obtain ⟨n, rfl⟩ := State.eq_fsr_of_mem_fsrOf hmem
      revert hq
      simp [Reg.flags]
  case ram => exact (resultToFile_of_dropped h .write 0x00#8 clrfFlags).2.1
  case clrfStatus =>
    refine congrArg Host.Outcome.next ((resultToFile_write_direct (isInd_false_of_sfr h nofun) _ _).trans ?_)
    rw [dataWrite_of_sfr h]
    rfl
  case setfStatus =>
    refine congrArg Host.Outcome.next ((resultToFile_write_direct (isInd_false_of_sfr h nofun) _ _).trans ?_)
    rw [dataWrite_of_sfr h]
    rfl
  case pcl =>
    have hreach : s.place (operandBegin (s.ea f a) s).1.target = .sfr .pcl := by
      rw [operandBegin_of_direct (isInd_false_of_sfr h nofun), h]
    have hjump := fun r fl => (resultToFile_of_pcl (u := .write) nofun hreach r fl).1
    exact ⟨_, _, rfl, rfl, hjump 0x00#8 clrfFlags, hjump 0xFF#8 FlagUpdate.nothing⟩
  case clrfGpr =>
    refine congrArg Host.Outcome.next ((resultToFile_write_direct (isInd_false_of_gpr h) _ _).trans ?_)
    rw [dataWrite_of_gpr h]
    rfl
  case setfGpr =>
    refine congrArg Host.Outcome.next ((resultToFile_write_direct (isInd_false_of_gpr h) _ _).trans ?_)
    rw [dataWrite_of_gpr h]
    rfl

/-! ### MOVFF (R250) -/

theorem movffDest_of_gpr {g : DataAddr} {s : State} (h : s.place g = .gpr) (v : Byte) :
    movffDest g v s = { s with ram := Memory.write s.ram g.toNat v } := by
  have hdirect := isInd_false_of_gpr h
  rw [movffDest, operandBegin_of_direct hdirect, storeResult_of_not_dropped (isInd_eq_false_iff.mp hdirect),
    dataWrite_of_gpr h]
  exact operandEnd_of_direct (s := { s with ram := Memory.write s.ram g.toNat v }) (loc := { named := g, target := g })
    hdirect true

/-- Through POSTINCn onto a GPR: the byte is stored there and FSRn steps. -/
theorem movffDest_of_postinc {g : DataAddr} {s : State} {n : Fsr} (h : s.place g = .sfr (.ind n .postinc))
    (hgpr : s.place (s.fsr n) = .gpr) (v : Byte) :
    movffDest g v s = { s with ram := Memory.write s.ram (s.fsr n).toNat v }.setFsr n (s.fsr n + 1#12) := by
  have hbyte : s.isFsrByte n (s.fsr n) = false := by rw [State.isFsrByte, hgpr]; rfl
  rw [movffDest, operandBegin_of_unstepped (.inr (.inl h)),
    storeResult_of_not_dropped (isInd_eq_false_iff.mp (isInd_false_of_gpr hgpr)), dataWrite_of_gpr hgpr,
    operandEnd_postinc (n := n) h]
  refine (if_neg ?_).trans ?_
  · rw [Bool.true_and]
    exact fun hx => absurd (hbyte.symm.trans hx) nofun
  · cases n <;> rfl

theorem movffSource_of_postinc {f : DataAddr} {s : State} {n : Fsr} (h : s.place f = .sfr (.ind n .postinc))
    (hgpr : s.place (s.fsr n) = .gpr) :
    movffSource f s = (Memory.read s.ram (s.fsr n).toNat, s.setFsr n (s.fsr n + 1#12)) := by
  rw [movffSource, operandBegin_of_unstepped (.inr (.inl h)), dataRead_of_gpr hgpr, operandEnd_postinc (n := n) h]
  rfl

/-- Settles O35. -/
theorem movffResult : Obligations.MovffResult := by
  intro s f g
  refine ⟨rfl, fun hf hg => ?gprs, fun n hf hfrom hto => ?postinc⟩
  case gprs => rw [exec_movff_of_gpr hf, movffDest_of_gpr hg]
  case postinc =>
    change Host.Outcome.next (movffDest f (movffSource f s).1 (movffSource f s).2) = _
    rw [movffSource_of_postinc hf hfrom, movffDest_of_postinc (n := n) (by rwa [State.place_setFsr])
      (by rwa [State.setFsr_fsr_same, State.place_setFsr])]
    have htwo : s.fsr n + 1#12 + 1#12 = s.fsr n + 2#12 := BitVec.add_assoc _ _ _
    rw [State.setFsr_fsr_same, htwo]
    cases n <;> rfl

/-! ### The frame of MOVFF -/

section MovffFrame

variable (f g : DataAddr) (v : Byte) (s : State)

@[simp] theorem dataRead_dev (readClass : Bool) (pcSeen : ProgAddr) (t : DataAddr) :
    (dataRead readClass pcSeen t s).2.dev = s.dev := by
  unfold dataRead
  split <;> (try split) <;> simp

@[simp] theorem movffSource_dev : (movffSource f s).2.dev = s.dev := by simp [movffSource]

/-- The source: resolved, read as a read-class operand, its FSR stepped. -/
theorem movffSource_keeps :
    keepsAllBut (s.readRegs (operandBegin f s).1 .read) s (movffSource f s).2 ∧
    (movffSource f s).2.ram = s.ram ∧ (movffSource f s).2.pm = s.pm := by
  obtain ⟨hbegin, hbeginRam, hbeginPm, -⟩ := operandBegin_keeps f s
  obtain ⟨hread, hreadRam, hreadPm⟩ :=
    dataRead_keeps .read (s.pc - 2#21) (operandBegin f s).1.target (operandBegin f s).2
  rw [State.place_operandBegin] at hread
  have hdev := (dataRead_dev (operandBegin f s).2 true (s.pc - 2#21) (operandBegin f s).1.target).trans
    (operandBegin_dev f s)
  have hend := operandEnd_keeps_of_dev hdev (operandBegin f s).1 false
  obtain ⟨-, hendRam, hendPm⟩ := operandEnd_keeps (operandBegin f s).1 false
    (dataRead true (s.pc - 2#21) (operandBegin f s).1.target (operandBegin f s).2).2
  refine ⟨keepsAllBut_mono _ _ _ _ (keepsAllBut_trans _ _ _ _ _ (keepsAllBut_trans _ _ _ _ _ hbegin hread) hend)
    fun q hq => ?_, hendRam.trans (hreadRam.trans hbeginRam), hendPm.trans (hreadPm.trans hbeginPm)⟩
  rw [State.readRegs, operandBegin_named]
  rw [operandBegin_named] at hq
  exact (List.mem_append.mp hq).elim id fun h => List.mem_append_left _ h

/-- The destination: resolved, written unless dropped, its FSR stepped. -/
theorem movffDest_keeps :
    keepsAllBut (s.readRegs (operandBegin g s).1 .write ++ s.storeRegs (operandBegin g s).1 []) s (movffDest g v s) ∧
    ((movffDest g v s).ram = s.ram ∨ s.place (operandBegin g s).1.target = .gpr ∧
      (movffDest g v s).ram = Memory.write s.ram (operandBegin g s).1.target.toNat v) ∧
    (movffDest g v s).pm = s.pm := by
  obtain ⟨hbegin, hbeginRam, hbeginPm, -⟩ := operandBegin_keeps g s
  obtain ⟨hstore, hstoreRam, hstorePm⟩ :=
    storeEnd_keeps (operandBegin_dev g s) (operandBegin g s).1 (noFlags v) nothing_ofRow
  rw [hbeginRam] at hstoreRam
  refine ⟨keepsAllBut_mono _ _ _ _ (keepsAllBut_trans _ _ _ _ _ hbegin hstore) fun q hq => ?_, hstoreRam,
    hstorePm.trans hbeginPm⟩
  rw [operandBegin_named] at hq
  rw [State.readRegs, operandBegin_named, List.mem_append, List.mem_append]
  rcases List.mem_append.mp hq with h | h
  · exact .inl (.inl h)
  · exact (List.mem_append.mp h).elim .inr fun h => .inl (.inl h)

end MovffFrame

/-- Settles O53: the frame of the source and that of the destination, at the state the source leaves. -/
theorem frameOfMovff : Obligations.FrameOfMovff := by
  intro f g s t hexec
  cases hexec
  obtain ⟨hsource, hsourceRam, hsourcePm⟩ := movffSource_keeps f s
  obtain ⟨hdest, hdestRam, hdestPm⟩ := movffDest_keeps g (movffSource f s).1 (movffSource f s).2
  have hdev := movffSource_dev f s
  have hplace := State.place_congr s (movffSource f s).2 (operandBegin g (movffSource f s).2).1.target hdev
  rw [State.readRegs, State.storeRegs, hplace, State.fsrOf_congr hdev] at hdest
  rw [hplace, hsourceRam] at hdestRam
  refine ⟨keepsAllBut_mono _ _ _ _ (keepsAllBut_trans _ _ _ _ _ hsource hdest) fun q hq => ?_,
    fun x => congrArg (Memory.read · x) (hdestPm.trans hsourcePm), fun x hx hwf => ?_⟩
  · rw [List.mem_append, State.mem_operandRegs_iff, State.mem_operandRegs_iff]
    rcases List.mem_append.mp hq with h | h
    · exact .inl (.inr (.inl h))
    · rcases List.mem_append.mp h with h | h
      · exact .inr (.inr (.inl h))
      · exact .inr (.inr (.inr ⟨nofun, h⟩))
  · rcases hdestRam with hram | ⟨hgpr, hram⟩
    · exact congrArg (Memory.read · x) hram
    · refine (congrArg (Memory.read · x) hram).trans ?_
      exact (Memory.read_write _ _ _ _ hwf).trans (if_neg (hx hgpr))

/-! ### Unimplemented locations (R91) -/

/-- An unimplemented location has no register to read or to write. -/
theorem State.operandRegs_of_unimplemented {s : State} {loc : Loc} (h : s.place loc.target = .unimplemented)
    (u : FileUse) (rs : List Reg) : s.operandRegs loc u rs = rs ++ s.fsrOf loc.named := by
  simp [State.operandRegs, h, Place.reads, Place.writes]

theorem clrfFlags_applied (s x : State) (h : x.status = s.status) :
    x.applyFlags clrfFlags = { x with status := { s.status with z := true } } := by
  rw [← h]
  rfl

theorem movffDest_of_unimplemented {g : DataAddr} {s : State}
    (h : s.place (operandBegin g s).1.target = .unimplemented) (v : Byte) :
    movffDest g v s = operandEnd (operandBegin g s).1 true (operandBegin g s).2 := by
  rw [← State.place_operandBegin g] at h
  rw [movffDest, storeResult_of_unimplemented h]
  rfl

/-- Settles O59. -/
theorem unimplementedByEveryForm : Obligations.UnimplementedByEveryForm := by
  intro s
  refine ⟨fun i f a u hi h => ?form, fun f a h => ⟨?movwf, ?setf, ?clrf⟩, fun f g => ⟨fun h => ?dest, fun h hg => ?source⟩⟩
  case form =>
    obtain ⟨t, hexec, hform⟩ := exec_fileForm s hi
    have hkeeps := hform.keeps
    rw [State.operandRegs_of_unimplemented h, operandBegin_named, ← List.append_assoc] at hkeeps
    refine ⟨t, hexec, hkeeps, hform.ram_eq.resolve_right ?_, hform.pm_eq⟩
    rintro ⟨-, hgpr, -⟩
    cases h.symm.trans hgpr
  case movwf => rw [exec_movwf, resultToFile_of_unimplemented h, State.applyFlags_nothing]
  case setf => rw [exec_setf, resultToFile_of_unimplemented h, State.applyFlags_nothing]
  case clrf =>
    rw [exec_clrf, resultToFile_of_unimplemented h, clrfFlags_applied s _ (operandBegin_status s _)]
  case dest =>
    rw [← State.place_congr s (movffSource f s).2 _ (movffSource_dev f s)] at h
    exact congrArg Host.Outcome.next (movffDest_of_unimplemented h _)
  case source =>
    have hsource : movffSource f s = (0#8, operandEnd (operandBegin f s).1 false (operandBegin f s).2) := by
      rw [← State.place_operandBegin f] at h
      rw [movffSource, dataRead_of_unimplemented h]
    have hg' : (movffSource f s).2.place g = .gpr := (State.place_congr _ _ g (movffSource_dev f s)).trans hg
    have hram := (movffSource_keeps f s).2.1
    refine congrArg Host.Outcome.next ((movffDest_of_gpr hg' _).trans ?_)
    rw [hram, hsource]

end Sys2Proof.Machine
end

section
/-! PROOFS. What the control, stack, system and table instructions do (spec/44_system_ops.md; spec/45_branch_call_return.md;
spec/46_table_ops.md). -/

namespace Sys2Proof.Machine

open Sys2Proof

/-! ### System instructions (O40 to O42) -/

/-- Settles O40. -/
theorem nopAndSystemEffects : Obligations.NopAndSystemEffects := fun _ _ => ⟨rfl, rfl, rfl, rfl, rfl⟩

/-- A reset clears a stack-error bit where its cause is POR. -/
theorem cleared_by_por (c : ResetCause) (b : Bool) :
    (if c = .por then false else b) = (b && decide (c ≠ .por)) := by
  by_cases h : c = .por <;> simp [h]

/-- Settles O41. -/
theorem resetInstructionAndCauses : Obligations.ResetInstructionAndCauses := fun s =>
  ⟨rfl, fun c => ⟨rfl, rfl, rfl, rfl, rfl, rfl, rfl, rfl, rfl, rfl, cleared_by_por c s.stkovf, cleared_by_por c s.stkunf⟩⟩

/-- Settles O42. -/
theorem debuggerInstructionsRefused : Obligations.DebuggerInstructionsRefused := fun _ => ⟨rfl, rfl⟩

/-! ### Relative jumps (O43, O44) -/

/-- The byte offset of a word offset is twice the signed word offset. -/
theorem signExtend_append_zero {w : Nat} (hw : w ≠ 0) (n : BitVec w) :
    BitVec.signExtend 21 (n ++ 0#1) = BitVec.ofInt 21 (2 * n.toInt) := by
  rw [BitVec.signExtend, BitVec.toInt_append]
  simp [hw]

theorem getLsbD_zero_iff {w : Nat} (x : BitVec w) : x.getLsbD 0 = false ↔ x.toNat % 2 = 0 := by
  simp [BitVec.getLsbD, Nat.testBit_zero]

theorem add_twice_eq_ofInt (pc : ProgAddr) (m : Int) :
    pc + BitVec.ofInt 21 (2 * m) = BitVec.ofInt 21 ((pc.toNat : Int) + 2 * m) := by
  rw [BitVec.ofInt_add, BitVec.ofInt_natCast, BitVec.ofNat_toNat, BitVec.setWidth_eq]

/-- From an even pc a relative jump needs no bit dropped. -/
theorem evenTarget_add_twice {pc : ProgAddr} (h : pc.getLsbD 0 = false) (m : Int) :
    evenTarget (pc + BitVec.ofInt 21 (2 * m)) = BitVec.ofInt 21 ((pc.toNat : Int) + 2 * m) := by
  rw [getLsbD_zero_iff] at h
  rw [add_twice_eq_ofInt]
  apply evenTarget_of_even
  rw [getLsbD_zero_iff, BitVec.toNat_ofInt]
  omega

theorem evenTarget_add_offset8 {pc : ProgAddr} (h : pc.getLsbD 0 = false) (n : Byte) :
    evenTarget (pc + offset8 n) = BitVec.ofInt 21 ((pc.toNat : Int) + 2 * n.toInt) := by
  rw [offset8, signExtend_append_zero (by decide), evenTarget_add_twice h]

theorem evenTarget_add_offset11 {pc : ProgAddr} (h : pc.getLsbD 0 = false) (n : BitVec 11) :
    evenTarget (pc + offset11 n) = BitVec.ofInt 21 ((pc.toNat : Int) + 2 * n.toInt) := by
  rw [offset11, signExtend_append_zero (by decide), evenTarget_add_twice h]

theorem State.branchIf_eq {s : State} (h : s.pc.getLsbD 0 = false) {b : Bool} {p : Prop} [Decidable p]
    (hp : b = true ↔ p) (n : Byte) :
    s.branchIf b n = if p then { s with pc := BitVec.ofInt 21 ((s.pc.toNat : Int) + 2 * n.toInt) } else s := by
  rw [State.branchIf, if_congr hp rfl rfl, State.setPc, evenTarget_add_offset8 h]

/-- Settles O43. -/
theorem conditionalBranches : Obligations.ConditionalBranches := by
  intro s n heven
  have hset (b : Bool) := congrArg (Host.Outcome.next : State → Result) (State.branchIf_eq heven (b := b) Iff.rfl n)
  have hclear (b : Bool) :=
    congrArg (Host.Outcome.next : State → Result) (State.branchIf_eq heven (iff_of_eq (Bool.not_eq_true' b)) n)
  exact ⟨hset _, hset _, hset _, hset _, hclear _, hclear _, hclear _, hclear _⟩

/-! ### Far jumps (O44) -/

theorem wordTarget_toNat (k : BitVec 20) : (wordTarget k).toNat = 2 * k.toNat := by
  have hk := k.isLt
  rw [wordTarget, BitVec.toNat_setWidth, toNat_append_add]
  simp only [BitVec.toNat_ofNat]
  omega

theorem wordTarget_even (k : BitVec 20) : (wordTarget k).getLsbD 0 = false := by
  rw [getLsbD_zero_iff, wordTarget_toNat]
  omega

theorem wordTarget_eq (k : BitVec 20) : wordTarget k = BitVec.ofNat 21 (2 * k.toNat) := by
  rw [← wordTarget_toNat, BitVec.ofNat_toNat, BitVec.setWidth_eq]

/-- Everything a far jump does. -/
theorem State.jumpFar_eq (s : State) (k : BitVec 20) :
    s.jumpFar (wordTarget k) = { s with
      pc := BitVec.ofNat 21 (2 * k.toNat),
      pclath := BitVec.ofNat 8 (2 * k.toNat / 256), pclatu := BitVec.ofNat 5 (2 * k.toNat / 65536) } := by
  have hpc : evenTarget (wordTarget k) = BitVec.ofNat 21 (2 * k.toNat) := by
    rw [evenTarget_of_even _ (wordTarget_even k), wordTarget_eq]
  have hh : (wordTarget k).extractLsb' 8 8 = BitVec.ofNat 8 (2 * k.toNat / 256) := by
    rw [← wordTarget_toNat]
    apply BitVec.eq_of_toNat_eq
    rw [BitVec.extractLsb'_toNat, BitVec.toNat_ofNat, Nat.shiftRight_eq_div_pow]
  have hu : (wordTarget k).extractLsb' 16 5 = BitVec.ofNat 5 (2 * k.toNat / 65536) := by
    rw [← wordTarget_toNat]
    apply BitVec.eq_of_toNat_eq
    rw [BitVec.extractLsb'_toNat, BitVec.toNat_ofNat, Nat.shiftRight_eq_div_pow]
  rw [State.jumpFar, State.setPc, State.loadLatches, hpc, hh, hu]

/-- Settles O44. -/
theorem jumpsAndCalls : Obligations.JumpsAndCalls := by
  intro s n k heven
  have hrel := evenTarget_add_offset11 heven n
  refine ⟨?_, ?_, ?_, ?_, ?_⟩
  case refine_1 =>
    exact congrArg (fun p => Host.Outcome.next { s with pc := p }) hrel
  case refine_2 =>
    exact congrArg (fun p => Host.Outcome.next { s.push s.pc with pc := p }) hrel
  case refine_3 => exact congrArg Host.Outcome.next (s.jumpFar_eq k)
  case refine_4 => exact congrArg Host.Outcome.next ((s.push s.pc).jumpFar_eq k)
  case refine_5 =>
    refine (congrArg Host.Outcome.next ((s.push s.pc).saveShadow.jumpFar_eq k)).trans ?_
    simp [State.saveShadow]

/-! ### PUSH and POP (O45) -/

section Push

variable {s : State}

theorem State.push_sp_of_room (h : s.sp.toNat < 31) (v : ProgAddr) : (s.push v).sp = s.sp + 1#5 := by
  rw [State.push_room s v h]

theorem State.push_sp_of_full (h : s.sp.toNat = 31) (v : ProgAddr) : (s.push v).sp = s.sp := by
  rw [State.push_full s v (by omega)]

theorem sp_add_one_toNat (h : s.sp.toNat < 31) : (s.sp + 1#5).toNat = s.sp.toNat + 1 := by
  rw [BitVec.toNat_add]
  simp only [BitVec.toNat_ofNat]
  omega

/-- A push writes the new top word alone. -/
theorem State.push_stack_other (v : ProgAddr) {j : Nat} (hj : j + 1 ≠ (s.push v).sp.toNat) :
    (s.push v).stack[j]? = s.stack[j]? := by
  have hlt := s.sp.isLt
  by_cases h : s.sp.toNat < 31
  · rw [State.push_sp_of_room h, sp_add_one_toNat h] at hj
    rw [State.push_room s v h]
    exact Vector.getElem?_setIfInBounds_ne (by omega)
  · rw [State.push_sp_of_full (by omega)] at hj
    rw [State.push_full s v h]
    exact Vector.getElem?_setIfInBounds_ne (by omega)

end Push

theorem sub_one_eq_ofNat {sp : BitVec 5} (h : sp ≠ 0#5) : sp - 1#5 = BitVec.ofNat 5 (sp.toNat - 1) := by
  have hpos : sp.toNat ≠ 0 := fun h0 => h (BitVec.eq_of_toNat_eq h0)
  have hlt := sp.isLt
  apply BitVec.eq_of_toNat_eq
  rw [BitVec.toNat_sub, BitVec.toNat_ofNat, BitVec.toNat_ofNat]
  omega

/-- Settles O45. -/
theorem pushAndPop : Obligations.PushAndPop := by
  intro s
  refine ⟨⟨s.push s.pc, rfl, rfl, State.push_tos s s.pc, by simp, by simp, by simp, by simp, by simp, by simp, by simp, by simp,
    by simp, fun j => State.push_stack_other s.pc, fun h => ?_, fun h => ?_⟩, fun h => ?_, fun h => ?_⟩
  case refine_1 =>
    rw [State.push_sp_of_room h, sp_add_one_toNat h, State.push_room s s.pc h]
    exact ⟨rfl, rfl, rfl⟩
  case refine_2 =>
    rw [State.push_full s s.pc (by omega)]
    exact ⟨rfl, rfl, rfl⟩
  case refine_3 =>
    change Host.Outcome.next s.pop.2 = _
    rw [State.pop_some s h, sub_one_eq_ofNat h]
  case refine_4 =>
    change Host.Outcome.next s.pop.2 = _
    rw [State.pop_empty s h]

/-! ### The returns (O46, O47) -/

theorem evenTarget_eq_ofNat (t : ProgAddr) : evenTarget t = BitVec.ofNat 21 (t.toNat / 2 * 2) := by
  rw [← evenTarget_toNat, BitVec.ofNat_toNat, BitVec.setWidth_eq]

/-- A return with s = 0, written out. -/
theorem State.returnFrom_slow (s : State) : s.returnFrom false =
    if s.sp = 0#5
    then { s with pc := 0#21, stkunf := true, stackReset := if s.dev.stvre then some .underflow else s.stackReset }
    else { s with pc := BitVec.ofNat 21 (s.tos.toNat / 2 * 2), sp := BitVec.ofNat 5 (s.sp.toNat - 1) } := by
  by_cases h : s.sp = 0#5
  · rw [if_pos h, State.returnFrom_eq, State.pop_empty s h]
    simp [evenTarget_of_even]
  · rw [if_neg h, State.returnFrom_eq, State.pop_some s h, ← evenTarget_eq_ofNat, ← sub_one_eq_ofNat h]
    rfl

/-- A return with s = 1 is one with s = 0 that restores W, STATUS and BSR besides. -/
theorem State.returnFrom_fast (s : State) :
    s.returnFrom true = { s.returnFrom false with w := s.ws, status := s.statuss, bsr := s.bsrs } := by
  rw [State.returnFrom_eq, State.returnFrom_eq]
  rfl

theorem State.reenableInterrupts_eq (s : State) :
    s.reenableInterrupts = { s with gieh := true, giel := s.giel || s.gieh } := by
  unfold State.reenableInterrupts
  split_ifs with h <;> simp [h]

@[simp] theorem State.returnFrom_gieh (s : State) (fast : Bool) : (s.returnFrom fast).gieh = s.gieh := by
  rw [State.returnFrom_eq]
  exact State.pop_snd_gieh s

@[simp] theorem State.returnFrom_giel (s : State) (fast : Bool) : (s.returnFrom fast).giel = s.giel := by
  rw [State.returnFrom_eq]
  exact State.pop_snd_giel s

/-- Settles O46. -/
theorem returnInstructions : Obligations.ReturnInstructions := by
  intro s k p
  have hslow : s.returnFrom false = p := s.returnFrom_slow
  have hfast : s.returnFrom true = { p with w := s.ws, status := s.statuss, bsr := s.bsrs } := by
    rw [State.returnFrom_fast, hslow]
  have hreenable (fast : Bool) : (s.returnFrom fast).reenableInterrupts =
      { s.returnFrom fast with gieh := true, giel := s.giel || s.gieh } := by
    rw [State.reenableInterrupts_eq, State.returnFrom_gieh, State.returnFrom_giel]
  refine ⟨congrArg Host.Outcome.next hslow, congrArg Host.Outcome.next hfast,
    congrArg Host.Outcome.next ((hreenable false).trans ?_), congrArg Host.Outcome.next ((hreenable true).trans ?_),
    congrArg (fun x : State => Host.Outcome.next (x.setW k)) hslow⟩
  · rw [hslow]
  · rw [hfast]

/-- A return from the stack that a push with room left pops the word pushed and leaves SP as before the push. -/
theorem State.returnFrom_after_push {s x : State} {v : ProgAddr} (hroom : s.sp.toNat < 31) (hv : v.getLsbD 0 = false)
    (hsp : x.sp = (s.push v).sp) (hstack : x.stack = (s.push v).stack) (fast : Bool) :
    (x.returnFrom fast).pc = v ∧ (x.returnFrom fast).sp = s.sp := by
  have htos : x.tos = v := by
    rw [← State.push_tos s v, State.tos, State.tos, hsp, hstack]
  rw [State.push_sp_of_room hroom] at hsp
  have hne : x.sp ≠ 0#5 := by
    intro h0
    have hsucc := sp_add_one_toNat hroom
    rw [← hsp, h0] at hsucc
    cases hsucc
  rw [State.returnFrom_eq, State.pop_some x hne, htos, evenTarget_of_even v hv, hsp]
  exact ⟨rfl, BitVec.add_sub_cancel s.sp 1#5⟩

/-- Settles O47. -/
theorem callThenReturn : Obligations.CallThenReturn := by
  intro s k fast w x b heven hroom
  refine ⟨_, _, rfl, rfl, ?_⟩
  cases fast with
  | false =>
    have hret := State.returnFrom_after_push (x := { (s.push s.pc).jumpFar (wordTarget k) with w := w, status := x, bsr := b })
      hroom heven rfl rfl false
    refine ⟨hret.1, hret.2, ?_, nofun⟩
    rw [State.returnFrom_eq]
    simp [State.jumpFar]
  | true =>
    have hret := State.returnFrom_after_push
      (x := { (s.push s.pc).saveShadow.jumpFar (wordTarget k) with w := w, status := x, bsr := b }) hroom heven rfl rfl true
    refine ⟨hret.1, hret.2, ?_, fun _ => ?_⟩
    · rw [State.returnFrom_eq]
      simp [State.jumpFar]
    · rw [State.returnFrom_eq]
      simp [State.jumpFar]

/-! ### Table accesses (O48 to O50) -/

theorem sub_one_eq_ofNat_add (t : ProgAddr) : t - 1#21 = BitVec.ofNat 21 (t.toNat + 2097151) := by
  apply BitVec.eq_of_toNat_eq
  rw [BitVec.toNat_sub, BitVec.toNat_ofNat, BitVec.toNat_ofNat]
  omega

/-- A table read where Table 2 allows it. -/
theorem State.tableRead_of_allowed {s : State} (h : tableReadPrevented s.dev s.tblptr = false) :
    s.tableRead = { s with tablat := s.pmRead8 s.tblptr } := by
  simp [State.tableRead, State.tableRead8, h]

/-- A table read, allowed or not, loads TABLAT with some byte. -/
theorem State.tableRead_eq (s : State) :
    s.tableRead = { s with tablat := (s.tableRead8 s.tblptr).1, free := (s.tableRead8 s.tblptr).2.free } := by
  rw [State.tableRead, State.tableRead8_state]
  split_ifs <;> rfl

/-- Settles O48. -/
theorem tableReads : Obligations.TableReads := by
  intro s up dn
  have hup : s.tblptr + 1#21 = up := add_one_eq_ofNat s.tblptr
  have hdn : s.tblptr - 1#21 = dn := sub_one_eq_ofNat_add s.tblptr
  have hpostInc : exec .tblrdPostInc s = .next { s.tableRead with tblptr := up } := by rw [← hup]; rfl
  have hpostDec : exec .tblrdPostDec s = .next { s.tableRead with tblptr := dn } := by rw [← hdn]; rfl
  have hpreInc : exec .tblrdPreInc s = .next { s with tblptr := up }.tableRead := by rw [← hup]; rfl
  rw [hpostInc, hpostDec, hpreInc]
  refine ⟨fun h => ?_, fun h => ?_, ?_⟩
  · rw [State.tableRead_of_allowed h]
    exact ⟨congrArg Host.Outcome.next (State.tableRead_of_allowed h), rfl, rfl⟩
  · rw [State.tableRead_of_allowed (s := { s with tblptr := up }) h]
    rfl
  · have hread := s.tableRead_eq
    refine ⟨_, _, _, _, congrArg Host.Outcome.next hread, ?_, ?_,
      congrArg Host.Outcome.next (State.tableRead_eq { s with tblptr := up })⟩
    · rw [hread]
    · rw [hread]

/-- Settles O49. -/
theorem tableWrites : Obligations.TableWrites := by
  intro s up dn stored notStored
  have hup : s.tblptr + 1#21 = up := add_one_eq_ofNat s.tblptr
  have hdn : s.tblptr - 1#21 = dn := sub_one_eq_ofNat_add s.tblptr
  have hpostInc : exec .tblwtPostInc s = .next { s.tableWrite with tblptr := up } := by rw [← hup]; rfl
  have hpostDec : exec .tblwtPostDec s = .next { s.tableWrite with tblptr := dn } := by rw [← hdn]; rfl
  have hpreInc : exec .tblwtPreInc s = .next { s with tblptr := up }.tableWrite := by rw [← hup]; rfl
  rw [hpostInc, hpostDec, hpreInc]
  refine ⟨fun h => ?_, fun h => ?_, fun h => ?_, fun h => ?_⟩
  · have hwrite : s.tableWrite = stored s.tblptr := if_pos h
    rw [← hwrite]
    exact ⟨rfl, rfl, rfl⟩
  · have hwrite : s.tableWrite = notStored s.tblptr := if_neg (by simp [h])
    rw [← hwrite]
    exact ⟨rfl, rfl, rfl⟩
  · exact congrArg Host.Outcome.next (if_pos h)
  · exact congrArg Host.Outcome.next (if_neg (by simp [h]))

/-- Settles O50, mode by mode. -/
theorem tableAccessByMode : Obligations.TableAccessByMode := by
  intro s a onChip writable
  refine ⟨?_, ?_, ?_⟩
  case refine_1 =>
    unfold tableReadPrevented internalPm
    cases s.dev.pmMode <;> simp [onChip]
  case refine_2 =>
    unfold tableWritable internalPm externalPm
    cases s.dev.pmMode <;> simp [onChip, writable, and_comm]
  case refine_3 =>
    rw [eq_comm, ← ite_not]
    unfold State.pmRead8 internalPm externalPm
    cases s.dev.pmMode <;> simp [onChip]

end Sys2Proof.Machine
end

section
/-! PROOFS. What the instructions without a file operand keep, that every instruction but TRAP and TRET completes, and the
invariant of the run loop (spec/10_state.md R29; spec/60_exceptions.md R430). -/

namespace Sys2Proof.Machine

open Sys2Proof

/-! ### Frames, one per operation of the control, literal and table instructions -/

section Keeps

variable (s : State)

theorem State.setWFlags_keeps {r : Alu} {rs : List Reg} (h : r.flags.regs ⊆ rs) :
    keepsAllBut ([.w] ++ rs) s (s.setWFlags r) :=
  keepsAllBut_mono _ _ _ _ (keepsAllBut_trans _ _ _ _ _ (s.setW_keeps r.val) ((s.setW r.val).applyFlags_keeps r.flags))
    fun _ hq => (List.mem_append.mp hq).elim (List.mem_append_left _) fun hq => List.mem_append_right _ (h hq)

theorem State.setProduct_keeps (x y : Byte) : keepsAllBut [.prodh, .prodl] s (s.setProduct x y) := by
  intro q hq
  cases q <;> simp_all [Reg.kept, State.fsr]

theorem State.branchIf_keeps (b : Bool) (n : Byte) : keepsAllBut [.pc] s (s.branchIf b n) := by
  unfold State.branchIf
  split
  · exact s.setPc_keeps _
  · exact keepsAllBut_refl _ s

theorem State.jumpFar_keeps (t : ProgAddr) : keepsAllBut [.pc, .pclath, .pclatu] s (s.jumpFar t) := by
  intro q hq
  cases q <;> simp_all [Reg.kept, State.fsr, State.jumpFar]

theorem State.saveShadow_keeps : keepsAllBut [.ws, .statuss, .bsrs] s s.saveShadow := by
  intro q hq
  cases q <;> simp_all [Reg.kept, State.fsr]

theorem State.restoreShadow_keeps : keepsAllBut ([.w, .bsr] ++ Reg.flags) s s.restoreShadow := by
  intro q hq
  cases q <;> simp_all [Reg.kept, State.fsr, Reg.flags]

theorem State.reenableInterrupts_keeps : keepsAllBut [.gieh, .giel] s s.reenableInterrupts := by
  rw [State.reenableInterrupts_eq]
  intro q hq
  cases q <;> simp_all [Reg.kept, State.fsr]

theorem State.setTblptr_keeps (t : ProgAddr) : keepsAllBut [.tblptr] s (s.setTblptr t) := by
  intro q hq
  cases q <;> simp_all [Reg.kept, State.fsr]

theorem State.tableRead_keeps : keepsAllBut [.tablat, .free] s s.tableRead := by
  rw [State.tableRead_eq]
  intro q hq
  cases q <;> simp_all [Reg.kept, State.fsr]

theorem State.tableWrite_keeps : keepsAllBut [.prefetch, .trace] s s.tableWrite := by
  rw [State.tableWrite, State.tableWrite8_eq]
  split <;> intro q hq <;> cases q <;> simp_all [Reg.kept, State.fsr]

theorem State.returnFrom_slow_keeps : keepsAllBut [.pc, .sp, .stkunf, .stackReset] s (s.returnFrom false) :=
  keepsAllBut_mono _ _ _ _ (keepsAllBut_trans _ _ _ _ _ s.pop_keeps (s.pop.2.setPc_keeps s.pop.1)) (by decide)

theorem State.returnFrom_fast_keeps :
    keepsAllBut ([.pc, .sp, .stkunf, .stackReset] ++ ([.w, .bsr] ++ Reg.flags)) s (s.returnFrom true) :=
  keepsAllBut_trans _ _ _ _ _ s.returnFrom_slow_keeps (s.returnFrom false).restoreShadow_keeps

theorem State.returnFrom_keeps (fast : Bool) : keepsAllBut
    ([.pc, .sp, .stkunf, .stackReset] ++ if fast then [.w, .bsr] ++ Reg.flags else []) s (s.returnFrom fast) := by
  cases fast with
  | false => exact s.returnFrom_slow_keeps
  | true => exact s.returnFrom_fast_keeps

theorem State.resetBy_keeps (c : ResetCause) (hc : c ≠ .por) :
    keepsAllBut (ownRegs .reset ++ flagRegs .reset) s (s.resetBy c) := by
  intro q hq
  cases q <;> simp_all [ownRegs, flagRegs, Reg.flags, Reg.kept, State.resetBy]
  case fsr n => cases n <;> simp_all

end Keeps

/-! ### Every instruction without a file operand, once (O54) -/

/-- The program address a table write writes. -/
def tableAddress (s : State) : Instr → Option ProgAddr
  | .tblwt | .tblwtPostInc | .tblwtPostDec => some s.tblptr
  | .tblwtPreInc => some (s.tblptr + 1#21)
  | _ => none

/-- What an instruction without a file operand may change, going from `s` to `t`, and that it leaves an even pc even. -/
structure OtherFrame (i : Instr) (s t : State) : Prop where
  keeps : keepsAllBut (ownRegs i ++ flagRegs i) s t
  ram : t.ram = s.ram ∨ i = .reset ∧ t.ram = Memory.afterReset s.free
  pm : t.pm = s.pm ∨ ∃ a, tableAddress s i = some a ∧ tableWritable s.dev a = true ∧ t.pm = Memory.write s.pm a.toNat s.tablat
  even : s.pc.getLsbD 0 = false → t.pc.getLsbD 0 = false

namespace OtherFrame

variable {i : Instr} {s t : State}

theorem of_regs {rs : List Reg} (hkeeps : keepsAllBut rs s t) (hrs : rs ⊆ ownRegs i ++ flagRegs i) (hpc : .pc ∉ rs)
    (hram : t.ram = s.ram) (hpm : t.pm = s.pm) : OtherFrame i s t where
  keeps := keepsAllBut_mono _ _ _ _ hkeeps fun _ hq => hrs hq
  ram := .inl hram
  pm := .inl hpm
  even heven := (hkeeps .pc hpc : t.pc = s.pc) ▸ heven

theorem of_jump {rs : List Reg} (hkeeps : keepsAllBut rs s t) (hrs : rs ⊆ ownRegs i ++ flagRegs i)
    (hram : t.ram = s.ram) (hpm : t.pm = s.pm) (heven : ∃ p, t.pc = evenTarget p) : OtherFrame i s t where
  keeps := keepsAllBut_mono _ _ _ _ hkeeps fun _ hq => hrs hq
  ram := .inl hram
  pm := .inl hpm
  even _ := by
    obtain ⟨p, hp⟩ := heven
    rw [hp]
    exact evenTarget_even p

end OtherFrame

theorem State.branchIf_frame {i : Instr} (s : State) (b : Bool) (n : Byte) (hrs : [.pc] ⊆ ownRegs i ++ flagRegs i) :
    OtherFrame i s (s.branchIf b n) := by
  cases b with
  | false => exact .of_regs (keepsAllBut_refl [] s) (List.nil_subset _) List.not_mem_nil rfl rfl
  | true => exact .of_jump (s.setPc_keeps _) hrs rfl rfl ⟨_, rfl⟩

theorem State.tableWrite8_pm (s : State) (a : ProgAddr) (v : Byte) :
    (s.tableWrite8 a v).pm = if tableWritable s.dev a then Memory.write s.pm a.toNat v else s.pm := by
  rw [State.tableWrite8_eq]
  split_ifs <;> rfl

theorem State.tableWrite_frame {i : Instr} (s : State) (t : State) {rs : List Reg} (hkeeps : keepsAllBut rs s t)
    (hrs : rs ⊆ ownRegs i ++ flagRegs i) (hpc : .pc ∉ rs) {a : ProgAddr} (ha : tableAddress s i = some a)
    (hram : t.ram = s.ram) (hpm : t.pm = (s.tableWrite8 a s.tablat).pm) : OtherFrame i s t where
  keeps := keepsAllBut_mono _ _ _ _ hkeeps fun _ hq => hrs hq
  ram := .inl hram
  pm := by
    rw [hpm, State.tableWrite8_pm]
    split_ifs with h
    · exact .inr ⟨a, ha, h, rfl⟩
    · exact .inl rfl
  even heven := (hkeeps .pc hpc : t.pc = s.pc) ▸ heven

@[simp] theorem State.tableWrite_ram (s : State) : s.tableWrite.ram = s.ram := by
  rw [State.tableWrite, State.tableWrite8_eq]
  split <;> rfl

theorem State.tableRead_frame {i : Instr} (s : State) (t : State) {rs : List Reg} (hkeeps : keepsAllBut rs s t)
    (hrs : rs ⊆ ownRegs i ++ flagRegs i) (hpc : .pc ∉ rs) {x : State} (hx : x.ram = s.ram ∧ x.pm = s.pm)
    (hram : t.ram = x.tableRead.ram) (hpm : t.pm = x.tableRead.pm) : OtherFrame i s t :=
  .of_regs hkeeps hrs hpc (by rw [hram, x.tableRead_eq, hx.1]) (by rw [hpm, x.tableRead_eq, hx.2])

theorem dawFlags_subset (w : Byte) (dc c : Bool) : (aluDaw w dc c).flags.regs ⊆ [.flagC] := by
  by_cases h : 255 < dawSum w dc c <;> simp [aluDaw, FlagUpdate.regs, FlagUpdate.nothing, h]

theorem State.returnFrom_memory (s : State) (fast : Bool) : (s.returnFrom fast).ram = s.ram ∧ (s.returnFrom fast).pm = s.pm := by
  rw [State.returnFrom_eq]
  exact ⟨s.pop_snd_ram, s.pop_snd_pm⟩

theorem State.returnFrom_pc (s : State) (fast : Bool) : (s.returnFrom fast).pc = evenTarget s.pop.1 := by
  rw [State.returnFrom_eq]

theorem State.reenableInterrupts_memory_pc (s : State) :
    s.reenableInterrupts.ram = s.ram ∧ s.reenableInterrupts.pm = s.pm ∧ s.reenableInterrupts.pc = s.pc := by
  rw [State.reenableInterrupts_eq]
  exact ⟨rfl, rfl, rfl⟩

/-- Stepping TBLPTR first does not bear on what a table write stores. -/
theorem State.tableWrite_pm_setTblptr (s : State) (a : ProgAddr) :
    (s.setTblptr a).tableWrite.pm = (s.tableWrite8 a s.tablat).pm := by
  rw [State.tableWrite, State.tableWrite8_pm, State.tableWrite8_pm]
  rfl

/-- LFSR loads the FSR its ff field names. -/
theorem setFsr_of_exec_lfsr {ff : BitVec 2} {k : DataAddr} {s t : State} (h : exec (.lfsr ff k) s = .next t) :
    ∃ n, ownRegs (.lfsr ff k) = [.fsr n] ∧ t = s.setFsr n k := by
  change execLfsr ff k s = .next t at h
  unfold execLfsr at h
  unfold ownRegs
  split at h
  case h_1 hff => cases h; exact ⟨.fsr0, by simp [hff], rfl⟩
  case h_2 hff => cases h; exact ⟨.fsr1, by simp [hff], rfl⟩
  case h_3 hff => cases h; exact ⟨.fsr2, by simp [hff], rfl⟩
  case h_4 => cases h

/-- Every instruction without a file operand, MOVFF apart. -/
theorem otherFrame_of_exec {i : Instr} {s t : State} (hi : fileOperand i = none) (hm : ∀ f g, i ≠ .movff f g)
    (h : exec i s = .next t) : OtherFrame i s t := by
  cases i with
  | addlw k | sublw k =>
    cases h
    exact .of_regs (s.setWFlags_keeps (addCore_ofRow _ _ _).1) (List.Subset.refl _) (by decide) rfl rfl
  | andlw k | iorlw k | xorlw k =>
    cases h
    exact .of_regs (s.setWFlags_keeps (withNZ_ofRow _).1) (List.Subset.refl _) (by decide) rfl rfl
  | movlw k =>
    cases h
    exact .of_regs (s.setWFlags_keeps (r := noFlags k) nothing_ofRow.1) (List.Subset.refl _) (by decide) rfl rfl
  | daw =>
    cases h
    exact .of_regs (s.setWFlags_keeps (dawFlags_subset _ _ _)) (List.Subset.refl _) (by decide) rfl rfl
  | mullw k =>
    cases h
    exact .of_regs (s.setProduct_keeps _ _) (List.Subset.refl _) (by decide) rfl rfl
  | movlb k =>
    cases h
    refine .of_regs (rs := [.bsr]) (fun q hq => ?_) (List.Subset.refl _) (by decide) rfl rfl
    cases q <;> simp_all [Reg.kept, State.fsr]
  | lfsr ff k =>
    obtain ⟨n, hn, ht⟩ := setFsr_of_exec_lfsr h
    rw [ht]
    exact .of_regs (s.setFsr_keeps n k) (by simp [hn]) (by simp) (by simp) (by simp)
  | nop | nopx x =>
    cases h
    exact .of_regs (keepsAllBut_refl [] s) (List.nil_subset _) List.not_mem_nil rfl rfl
  | clrwdt =>
    cases h
    refine .of_regs (rs := [.trace]) (fun q hq => ?_) (List.Subset.refl _) (by decide) rfl rfl
    cases q <;> simp_all [Reg.kept, State.fsr]
  | halt =>
    cases h
    refine .of_regs (rs := [.run]) (fun q hq => ?_) (List.Subset.refl _) (by decide) rfl rfl
    cases q <;> simp_all [Reg.kept, State.fsr]
  | sleep =>
    cases h
    refine .of_regs (rs := [.run, .trace]) (fun q hq => ?_) (List.Subset.refl _) (by decide) rfl rfl
    cases q <;> simp_all [Reg.kept, State.fsr]
  | reset =>
    cases h
    have heven : (0#21).getLsbD 0 = false := by decide
    exact { keeps := s.resetBy_keeps .mclr (by decide), ram := .inr ⟨rfl, rfl⟩, pm := .inl rfl, even := fun _ => heven }
  | trap | tret => cases h
  | bc n | bn n | bnc n | bnn n | bnv n | bnz n | bv n | bz n =>
    cases h
    exact s.branchIf_frame _ n (List.Subset.refl _)
  | bra n =>
    cases h
    exact .of_jump (s.setPc_keeps _) (List.Subset.refl _) rfl rfl ⟨_, rfl⟩
  | rcall n =>
    cases h
    exact .of_jump (keepsAllBut_trans _ _ _ _ _ (s.push_keeps s.pc) ((s.push s.pc).setPc_keeps _))
      (by simp [ownRegs])
      (by simp) (by simp) ⟨_, rfl⟩
  | push =>
    cases h
    exact .of_regs (s.push_keeps s.pc) (List.Subset.refl _) (by decide) (by simp) (by simp)
  | pop =>
    cases h
    exact .of_regs s.pop_keeps (List.Subset.refl _) (by decide) (by simp) (by simp)
  | ret fast =>
    cases h
    obtain ⟨hram, hpm⟩ := s.returnFrom_memory fast
    refine .of_jump (s.returnFrom_keeps fast) ?_ hram hpm ⟨_, s.returnFrom_pc fast⟩
    cases fast <;> decide
  | retfie fast =>
    cases h
    obtain ⟨hram, hpm⟩ := s.returnFrom_memory fast
    obtain ⟨hram', hpm', hpc'⟩ := (s.returnFrom fast).reenableInterrupts_memory_pc
    refine .of_jump (keepsAllBut_trans _ _ _ _ _ (s.returnFrom_keeps fast) (s.returnFrom fast).reenableInterrupts_keeps) ?_
      (hram'.trans hram) (hpm'.trans hpm) ⟨_, hpc'.trans (s.returnFrom_pc fast)⟩
    cases fast <;> decide
  | retlw k =>
    cases h
    obtain ⟨hram, hpm⟩ := s.returnFrom_memory false
    exact .of_jump (keepsAllBut_trans _ _ _ _ _ (s.returnFrom_keeps false) ((s.returnFrom false).setW_keeps k))
      (by simp [ownRegs]) hram hpm ⟨_, s.returnFrom_pc false⟩
  | call k fast =>
    cases h
    have hpush := s.push_keeps s.pc
    cases fast with
    | false =>
      exact .of_jump (keepsAllBut_trans _ _ _ _ _ hpush ((s.push s.pc).jumpFar_keeps _)) (by simp [ownRegs])
        (by simp [State.jumpFar]) (by simp [State.jumpFar]) ⟨_, rfl⟩
    | true =>
      exact .of_jump (keepsAllBut_trans _ _ _ _ _ (keepsAllBut_trans _ _ _ _ _ hpush (s.push s.pc).saveShadow_keeps)
        ((s.push s.pc).saveShadow.jumpFar_keeps _)) (by simp [ownRegs])
        (by simp [State.jumpFar]) (by simp [State.jumpFar]) ⟨_, rfl⟩
  | goto k =>
    cases h
    exact .of_jump (s.jumpFar_keeps _) (List.Subset.refl _) rfl rfl ⟨_, rfl⟩
  | tblrd =>
    cases h
    exact s.tableRead_frame _ s.tableRead_keeps (List.Subset.refl _) (by decide) (x := s) ⟨rfl, rfl⟩ rfl rfl
  | tblrdPostInc | tblrdPostDec =>
    cases h
    exact s.tableRead_frame _ (keepsAllBut_trans _ _ _ _ _ s.tableRead_keeps (s.tableRead.setTblptr_keeps _))
      (List.Subset.refl _) (by decide) (x := s) ⟨rfl, rfl⟩ rfl rfl
  | tblrdPreInc =>
    cases h
    exact s.tableRead_frame _ (keepsAllBut_trans _ _ _ _ _ (s.setTblptr_keeps _) (s.setTblptr _).tableRead_keeps)
      (by decide) (by decide) (x := s.setTblptr (s.tblptr + 1#21))
      ⟨rfl, rfl⟩ rfl rfl
  | tblwt =>
    cases h
    exact s.tableWrite_frame _ s.tableWrite_keeps (List.Subset.refl _) (by decide) rfl s.tableWrite_ram rfl
  | tblwtPostInc | tblwtPostDec =>
    cases h
    exact s.tableWrite_frame _ (keepsAllBut_trans _ _ _ _ _ s.tableWrite_keeps (s.tableWrite.setTblptr_keeps _))
      (List.Subset.refl _) (by decide) rfl s.tableWrite_ram rfl
  | tblwtPreInc =>
    cases h
    exact s.tableWrite_frame _ (keepsAllBut_trans _ _ _ _ _ (s.setTblptr_keeps _) (s.setTblptr _).tableWrite_keeps)
      (by decide) (by decide) rfl (s.setTblptr _).tableWrite_ram (s.tableWrite_pm_setTblptr _)
  | movff f g => exact absurd rfl (hm f g)
  | _ => cases hi

/-- Settles O54. -/
theorem frameOfOtherInstructions : Obligations.FrameOfOtherInstructions := by
  intro i s t hi hm h
  have hframe := otherFrame_of_exec hi hm h
  refine ⟨hframe.keeps, fun hreset x => ?_, fun x hpost hpre hwf => ?_⟩
  case refine_1 =>
    obtain hram | ⟨hreset', -⟩ := hframe.ram
    · rw [hram]
    · exact absurd hreset' hreset
  case refine_2 =>
    obtain hpm | ⟨a, ha, hwritable, hpm⟩ := hframe.pm
    · rw [hpm]
    · have hne : x ≠ a.toNat := by
        unfold tableAddress at ha
        split at ha
        case h_1 => cases ha; exact hpost (by simp) hwritable
        case h_2 => cases ha; exact hpost (by simp) hwritable
        case h_3 => cases ha; exact hpost (by simp) hwritable
        case h_4 => cases ha; exact hpre rfl hwritable
        case h_5 => cases ha
      rw [hpm, Memory.read_write _ _ _ _ hwf, if_neg hne]

/-! ### Every instruction completes (O11) -/

theorem ff_eq_of_ne_three : ∀ ff : BitVec 2, (ff != 3#2) = true → ff = 0#2 ∨ ff = 1#2 ∨ ff = 2#2 := by decide

/-- Settles O11. -/
theorem everyInstructionCompletes : Obligations.EveryInstructionCompletes := by
  intro i s hwf
  constructor
  · rintro ⟨t, ht⟩
    constructor
    · rintro rfl
      cases ht
    · rintro rfl
      cases ht
  · rintro ⟨htrap, htret⟩
    cases i with
    | trap => exact absurd rfl htrap
    | tret => exact absurd rfl htret
    | lfsr ff k => rcases ff_eq_of_ne_three ff hwf with rfl | rfl | rfl <;> exact ⟨_, rfl⟩
    | _ => exact ⟨_, rfl⟩

/-! ### The invariant (O10) -/

theorem State.Inv.of_keeps {s t : State} {rs : List Reg} (h : s.Inv) (hkeeps : keepsAllBut rs s t) (hpc : .pc ∉ rs)
    (hhidden : .pcHidden ∉ rs) (hram : t.ram = s.ram) (hpm : t.pm = s.pm) : t.Inv := by
  have hpc' : t.pc = s.pc := hkeeps .pc hpc
  have hhidden' : t.pcHidden = s.pcHidden := hkeeps .pcHidden hhidden
  rw [State.Inv, hpc', hhidden', hram, hpm]
  exact h

theorem State.Inv.setPc {s : State} (h : s.Inv) (t : ProgAddr) : (s.setPc t).Inv :=
  ⟨evenTarget_even t, h.2⟩

theorem State.Inv.skipIf {s : State} (h : s.Inv) (b : Bool) : (s.skipIf b).Inv := by
  cases b with
  | false => exact h
  | true => exact h.setPc _

theorem State.Inv.operandRead {s : State} (h : s.Inv) (u : FileUse) (f : Byte) (a : Access) :
    (operandRead u f a s).2.Inv :=
  h.of_keeps (operandRead_changes u f a s) (by decide) (by decide) (operandRead_keeps u f a s).2.1
    (operandRead_keeps u f a s).2.2

theorem State.Inv.operandEnd {s : State} (h : s.Inv) (loc : Loc) (wrote : Bool) : (operandEnd loc wrote s).Inv :=
  h.of_keeps (operandEnd_changes s loc wrote) (by decide) (by decide) (operandEnd_keeps loc wrote s).2.1
    (operandEnd_keeps loc wrote s).2.2

theorem State.Inv.operandBegin {s : State} (h : s.Inv) (t0 : DataAddr) : (operandBegin t0 s).2.Inv := by
  obtain ⟨hkeeps, hram, hpm, -⟩ := operandBegin_keeps t0 s
  have hchanges := keepsAllBut_mono _ _ _ _ hkeeps (State.fsrOf_subset_changedByRead s t0)
  exact h.of_keeps hchanges (by decide) (by decide) hram hpm

theorem State.Inv.movffSource {s : State} (h : s.Inv) (f : DataAddr) : (movffSource f s).2.Inv := by
  obtain ⟨hkeeps, hram, hpm⟩ := movffSource_keeps f s
  have hchanges := keepsAllBut_mono _ _ _ _ hkeeps (State.readRegs_subset_changedByRead s _ _)
  exact h.of_keeps hchanges (by decide) (by decide) hram hpm

theorem Place.pcHidden_notMem_writes (p : Place) : .pcHidden ∉ p.writes := by
  cases p with
  | sfr r => cases r <;> simp [Place.writes, Reg.flags]
  | _ => simp [Place.writes]

/-- A write of PCL moves the pc, to an even address; no write reaches the hidden bit. -/
theorem State.Inv.dataWrite {s : State} (h : s.Inv) (affects : Bool) (t : DataAddr) (v : Byte) :
    (dataWrite affects t v s).Inv := by
  obtain ⟨heven, hhidden, hram, hpm⟩ := h
  obtain ⟨hkeeps, -, hpm'⟩ := dataWrite_keeps affects t v s
  have hhidden' : (Machine.dataWrite affects t v s).pcHidden = s.pcHidden := by
    refine hkeeps .pcHidden fun hmem => ?_
    split at hmem
    · cases hmem
    · exact Place.pcHidden_notMem_writes _ hmem
  exact ⟨dataWrite_pc affects t v s heven, hhidden'.trans hhidden, dataWrite_wf affects t v s hram,
    (congrArg Memory.wf hpm').trans hpm⟩

theorem State.Inv.storeResult {s : State} (h : s.Inv) (loc : Loc) (r : Alu) : (storeResult loc r s).Inv := by
  unfold Machine.storeResult
  split
  · exact h
  · exact h.dataWrite r.flags.affects loc.target r.val

theorem State.Inv.movffDest {s : State} (h : s.Inv) (g : DataAddr) (v : Byte) : (movffDest g v s).Inv :=
  ((h.operandBegin g).storeResult _ _).operandEnd _ true

theorem FileForm.inv {i : Instr} {f : Byte} {a : Access} {s t : State} {u : FileUse} (hform : FileForm i f a s u t)
    (h : s.Inv) : t.Inv := by
  cases hform with
  | toW r fl b =>
    have hw : (((operandRead .read f a s).2.setW r).applyFlags fl).Inv := h.operandRead .read f a
    exact (hw.operandEnd _ false).skipIf b
  | test b => exact ((h.operandRead .read f a).operandEnd _ false).skipIf b
  | product x y => exact (h.operandRead .read f a).operandEnd _ false
  | toFile _ r fl b =>
    rw [resultToFile_eq_storeResult]
    exact (((h.operandRead u f a).storeResult _ _).operandEnd _ true).skipIf b

theorem pcHidden_notMem_regs {i : Instr} (h : i ≠ .reset) : .pcHidden ∉ ownRegs i ++ flagRegs i := by
  intro hmem
  cases i <;> simp [ownRegs, flagRegs, Reg.flags] at hmem
  case reset => exact h rfl

theorem OtherFrame.inv {i : Instr} {s t : State} (hframe : OtherFrame i s t) (h : s.Inv) (hhidden : t.pcHidden = s.pcHidden) :
    t.Inv := by
  obtain ⟨heven, hhidden', hram, hpm⟩ := h
  refine ⟨hframe.even heven, hhidden.trans hhidden', ?_, ?_⟩
  · obtain hram' | ⟨-, hram'⟩ := hframe.ram
    · rw [hram', hram]
    · rw [hram', Memory.wf_afterReset]
  · obtain hpm' | ⟨a, -, -, hpm'⟩ := hframe.pm
    · rw [hpm', hpm]
    · rw [hpm', Memory.wf_write _ _ _ hpm]

theorem State.Inv.resetBy {s : State} (h : s.Inv) (c : ResetCause) : (s.resetBy c).Inv := by
  obtain ⟨-, -, -, hpm⟩ := h
  exact ⟨show (0#21).getLsbD 0 = false by decide, rfl, Memory.wf_afterReset _, hpm⟩

theorem State.Inv.exec {i : Instr} {s t : State} (h : s.Inv) (hexec : exec i s = .next t) : t.Inv := by
  cases hi : fileOperand i with
  | some x => exact (fileForm_of_exec hi hexec).inv h
  | none =>
    by_cases hm : ∃ f g, i = .movff f g
    case pos =>
      obtain ⟨f, g, rfl⟩ := hm
      cases hexec
      exact (h.movffSource f).movffDest g _
    case neg =>
      by_cases hreset : i = .reset
      case pos =>
        rw [hreset] at hexec
        cases hexec
        exact h.resetBy .mclr
      case neg =>
        have hframe := otherFrame_of_exec hi (fun f g hfg => hm ⟨f, g, hfg⟩) hexec
        exact hframe.inv h (hframe.keeps .pcHidden (pcHidden_notMem_regs hreset))

theorem State.Inv.advance {s : State} (h : s.Inv) (n : Nat) : (s.advance n).Inv := h.setPc _

theorem State.Inv.push {s : State} (h : s.Inv) (v : ProgAddr) : (s.push v).Inv :=
  h.of_keeps (s.push_keeps v) (by decide) (by decide) (s.push_ram v) (s.push_pm v)

theorem IrqLevel.vector_even (l : IrqLevel) : l.vector.getLsbD 0 = false := by
  cases l <;> decide

theorem State.Inv.takeInterrupt {s : State} (h : s.Inv) : s.takeInterrupt.Inv := by
  cases hl : s.irqTaken with
  | none => rwa [State.takeInterrupt_none s hl]
  | some l =>
    obtain ⟨-, hpush⟩ := h.push s.pc
    rw [State.takeInterrupt_some s l hl, State.enterInterrupt_eq]
    exact ⟨l.vector_even, hpush⟩

theorem State.Inv.sample {s : State} (h : s.Inv) : s.sample.Inv := by
  unfold State.sample
  split <;> exact h

theorem State.Inv.boundaryRun {s t : State} (h : s.Inv) (hrun : boundaryRun s = .next t) : t.Inv := by
  rcases boundaryRun_next s t hrun with ⟨-, rfl⟩ | ⟨-, hinstr⟩
  · exact h.takeInterrupt
  · obtain ⟨-, i, -, hexec⟩ := runInstr_next _ t hinstr
    exact (h.takeInterrupt.advance i.words).exec hexec

/-- Settles O10: the branches of the boundary, each instruction by its form. -/
theorem invariantKeptByStep : Obligations.InvariantKeptByStep := by
  intro s t h hstep
  rcases step_next s t hstep with ⟨c, rfl⟩ | rfl | ⟨-, hrun | hrun⟩
  · exact h.sample.resetBy c
  · exact h.sample
  · exact h.sample.boundaryRun hrun
  · exact State.Inv.boundaryRun (s := { s.sample with run := .running }) h.sample hrun

end Sys2Proof.Machine
end

section
/-! PROOFS. The run loop: the order of the events at a boundary, the fetch, interrupts and stack-error resets
(spec/60_exceptions.md R410 to R430; spec/70_reset_and_hazards.md R450, R451; spec/30_encoding.md R141 to R148). -/

namespace Sys2Proof.Machine

open Sys2Proof

/-! ### The branches of the boundary (O12) -/

section Boundary

variable {s : State}

theorem step_of_resetRequest {c : ResetCause} (h : s.sample.env.resetRequest = some c) :
    step s = .next (s.sample.resetBy c) := by
  simp [step, boundary, h]

theorem step_of_stackReset {e : StackError} (h : s.sample.env.resetRequest = none) (hs : s.stackReset = some e) :
    step s = .next (s.sample.resetBy e.cause) := by
  simp [step, boundary, h, hs]

theorem step_of_halted (h : s.sample.env.resetRequest = none) (hs : s.stackReset = none) (hr : s.run = .halted) :
    step s = .next s.sample := by
  simp [step, boundary, h, hs, hr]

theorem step_of_sleeping (h : s.sample.env.resetRequest = none) (hs : s.stackReset = none) (hr : s.run = .sleeping) :
    step s = if s.sample.env.wdtTimeout = true ∨ s.sample.env.wakeRequest = true
      then boundaryRun { s.sample with run := .running } else .next s.sample := by
  simp [step, boundary, h, hs, hr]

theorem step_of_running (h : s.sample.env.resetRequest = none) (hs : s.stackReset = none) (hr : s.run = .running) :
    step s = if s.sample.env.wdtTimeout = true then .next (s.sample.resetBy .wdt) else boundaryRun s.sample := by
  simp [step, boundary, h, hs, hr]

end Boundary

/-- Settles O12. -/
theorem boundaryOrder : Obligations.BoundaryOrder := by
  intro s e
  refine ⟨fun c => step_of_resetRequest, fun h => ⟨step_of_stackReset h, step_of_stackReset h, fun hs =>
    ⟨step_of_halted h hs, fun hr hwdt hwake => ?_, fun hr hwake => ?_, fun hr hwdt => ?_, fun hr hwdt => ?_⟩⟩⟩
  · rw [step_of_sleeping h hs hr, if_neg (by simp [e, hwdt, hwake])]
  · rw [step_of_sleeping h hs hr, if_pos hwake]
  · rw [step_of_running h hs hr, if_pos hwdt]
  · rw [step_of_running h hs hr, if_neg (by simp [e, hwdt])]

/-! ### The fetch (O7, O51) -/

theorem State.pmRead16_congr {s t : State} (hpm : t.pm = s.pm) (hdev : t.dev = s.dev) (a : ProgAddr) :
    t.pmRead16 a = s.pmRead16 a := by
  rw [State.pmRead16, State.pmRead16, State.pmRead8, State.pmRead8, State.pmRead8, State.pmRead8, hpm, hdev]

theorem State.pmRead16_sample (s : State) (a : ProgAddr) : s.sample.pmRead16 a = s.pmRead16 a :=
  State.pmRead16_congr s.sample_pm s.sample_dev a

theorem even_add_words {pc : ProgAddr} (h : pc.getLsbD 0 = false) (n : Nat) :
    evenTarget (pc + BitVec.ofNat 21 (2 * n)) = pc + BitVec.ofNat 21 (2 * n) := by
  rw [getLsbD_zero_iff] at h
  apply evenTarget_of_even
  rw [getLsbD_zero_iff, BitVec.toNat_add, BitVec.toNat_ofNat]
  omega

/-- From an even pc the move past an instruction's words needs no bit dropped. -/
theorem State.advance_of_even {s : State} (h : s.pc.getLsbD 0 = false) (n : Nat) :
    s.advance n = { s with pc := s.pc + BitVec.ofNat 21 (2 * n), prefetch := none } := by
  rw [State.advance_eq, even_add_words h]

theorem boundaryRun_of_no_reset {s : State} (h : s.takeInterrupt.stackReset = none) :
    boundaryRun s = runInstr s.takeInterrupt := by
  rw [boundaryRun, h]
  rfl

/-- A running core with nothing due executes the words that its fetch finds. -/
theorem step_eq_exec {s : State} {i : Instr} (hrun : s.run = .running) (heven : s.pc.getLsbD 0 = false)
    (hreset : s.stackReset = none) (hhidden : s.pcHidden = false) (hrequest : s.sample.env.resetRequest = none)
    (hwdt : s.sample.env.wdtTimeout = false) (hirq : s.sample.irqTaken = none)
    (hdecode : decode s.fetchWord (s.pmRead16 (s.pc + 2#21)) = .ok i) :
    step s = exec i { s.sample with pc := s.pc + BitVec.ofNat 21 (2 * i.words), prefetch := none } := by
  have hnone := State.takeInterrupt_none s.sample hirq
  have hfetch : s.sample.fetchWord = s.fetchWord := by
    rw [State.fetchWord_eq, State.fetchWord_eq, State.pmRead16_sample, State.sample_prefetch, State.sample_pc]
  have hrunInstr : runInstr s.sample = exec i (s.sample.advance i.words) := by
    refine runInstr_ok _ i (s.sample_pcHidden.trans hhidden) ?_
    rw [hfetch, State.pmRead16_sample, State.sample_pc, hdecode]
  rw [step_of_running hrequest hreset hrun, if_neg (by simp [hwdt]),
    boundaryRun_of_no_reset (by rw [hnone, State.sample_stackReset, hreset]), hnone, hrunInstr,
    State.advance_of_even (s.sample_pc ▸ heven), State.sample_pc]

/-- A one-word instruction decodes alike whatever word follows it. -/
theorem decode_one_word {w w2 w2' : Word} {i : Instr} (hone : isTwoWord w = false) (h : decode w w2 = .ok i) :
    decode w w2' = .ok i := by
  obtain ⟨hwf, hencode⟩ := encodesTo_of_decode h
  have hdecode := decode_encode i hwf w2'
  rw [hencode, hone] at hdecode
  exact hdecode

theorem decode_of_decodeBytes {b0 b1 b2 b3 : Byte} {i : Instr} {rest : List Byte}
    (h : decodeBytes [b0, b1, b2, b3] = .ok (i, rest)) : decode (wordOfBytes b0 b1) (wordOfBytes b2 b3) = .ok i := by
  unfold decodeBytes at h
  dsimp only at h
  split_ifs at h with htwo
  · split at h
    case h_1 hdecode => cases h; exact hdecode
    case h_2 => cases h
  · split at h
    case h_1 hdecode =>
      cases h
      exact decode_one_word (Bool.eq_false_iff.mpr htwo) hdecode
    case h_2 => cases h

/-- Settles O7: the four bytes are the two words that the fetch reads. -/
theorem stepRunsDecoded : Obligations.StepRunsDecoded := by
  intro s i rest hrun heven hprefetch hreset hhidden hrequest hwdt hirq hdecode
  refine step_eq_exec hrun heven hreset hhidden hrequest hwdt hirq ?_
  have hthree : s.pc + 2#21 + 1#21 = s.pc + 3#21 := BitVec.add_assoc s.pc 2#21 1#21
  rw [State.fetchWord_none s hprefetch, State.pmRead16, State.pmRead16, hthree]
  exact decode_of_decodeBytes hdecode

/-- A table write that stores a byte saves the word at the pc, fetched before the write. -/
theorem prefetch_of_tableWrite {s t : State} {write : Instr}
    (hwrite : write = .tblwt ∨ write = .tblwtPostInc ∨ write = .tblwtPostDec ∨ write = .tblwtPreInc)
    (hstores : tableWritable s.dev (if write = .tblwtPreInc then s.tblptr + 1#21 else s.tblptr) = true)
    (h : exec write s = .next t) : t.prefetch = some (s.pmRead16 s.pc) := by
  have hsaved : ∀ x : State, tableWritable x.dev x.tblptr = true → x.tableWrite.prefetch = some (x.pmRead16 x.pc) := by
    intro x hx
    rw [State.tableWrite, State.tableWrite8_eq, if_pos hx]
  rcases hwrite with rfl | rfl | rfl | rfl
  · cases h
    exact hsaved s hstores
  · cases h
    exact hsaved s hstores
  · cases h
    exact hsaved s hstores
  · cases h
    exact hsaved (s.setTblptr (s.tblptr + 1#21)) hstores

/-- A table write keeps what the next boundary and its fetch go by. -/
theorem kept_by_tableWrite {s t : State} {write : Instr}
    (hwrite : write = .tblwt ∨ write = .tblwtPostInc ∨ write = .tblwtPostDec ∨ write = .tblwtPreInc)
    (h : exec write s = .next t) :
    t.pc = s.pc ∧ t.run = s.run ∧ t.stackReset = s.stackReset ∧ t.pcHidden = s.pcHidden := by
  have hkeeps : keepsAllBut [.prefetch, .trace, .tblptr] s t := by
    rcases hwrite with rfl | rfl | rfl | rfl <;>
      exact keepsAllBut_mono _ _ _ _ (otherFrame_of_exec rfl (by simp) h).keeps (by decide)
  exact ⟨hkeeps .pc (by decide), hkeeps .run (by decide), hkeeps .stackReset (by decide), hkeeps .pcHidden (by decide)⟩

/-- Settles O51. -/
theorem savedWordExecutesNext : Obligations.SavedWordExecutesNext := by
  constructor
  · intro s w i heven hrun hreset hhidden hprefetch hrequest hwdt hirq hdecode
    refine step_eq_exec hrun heven hreset hhidden hrequest hwdt hirq ?_
    rwa [State.fetchWord_eq, hprefetch, Option.getD_some]
  · intro s t write i hwrite heven hrun hreset hhidden hstores h hrequest hwdt hirq hdecode
    obtain ⟨hpc, hrun', hreset', hhidden'⟩ := kept_by_tableWrite hwrite h
    rw [← hpc] at heven hdecode
    rw [← hpc]
    refine step_eq_exec (hrun'.trans hrun) heven (hreset'.trans hreset) (hhidden'.trans hhidden) hrequest hwdt hirq ?_
    rwa [State.fetchWord_eq, prefetch_of_tableWrite hwrite hstores h, Option.getD_some, ← hpc]

/-! ### Interrupts (O55 to O57) -/

theorem irqTaken_high_iff (s : State) : s.irqTaken = some .high ↔ s.env.irqHigh = true ∧ s.gieh = true := by
  unfold State.irqTaken
  split_ifs <;> simp_all

theorem irqTaken_low_iff (s : State) : s.irqTaken = some .low ↔
    s.env.irqHigh = false ∧ s.env.irqLow = true ∧ s.gieh = true ∧ s.giel = true := by
  unfold State.irqTaken
  cases hgieh : s.gieh with
  | false => simp
  | true => cases s.env.irqHigh <;> simp

/-- A level is taken only where its enables are 1. -/
theorem enabled_of_irqTaken {s : State} {l : IrqLevel} (h : s.irqTaken = some l) :
    s.gieh = true ∧ (l = .low → s.giel = true) := by
  cases l with
  | high =>
    obtain ⟨-, hgieh⟩ := (irqTaken_high_iff s).mp h
    exact ⟨hgieh, nofun⟩
  | low =>
    obtain ⟨-, -, hgieh, hgiel⟩ := (irqTaken_low_iff s).mp h
    exact ⟨hgieh, fun _ => hgiel⟩

/-- Settles O55. -/
theorem interruptTaken : Obligations.InterruptTaken := by
  intro s
  refine ⟨irqTaken_high_iff s, irqTaken_low_iff s, fun l hl => ⟨_, rfl, ?_⟩, State.takeInterrupt_none s⟩
  rw [State.takeInterrupt_some s l hl, State.enterInterrupt_eq]
  refine ⟨by cases l <;> rfl, State.push_tos s s.pc, fun hroom => ?_, fun hfull => ?_, rfl, rfl, rfl,
    by cases l <;> simp, by cases l <;> simp, s.push_w _, s.push_status _, s.push_bsr _, s.push_pclath _, s.push_pclatu _,
    s.push_ram _, s.push_pm _⟩
  · rw [State.push_room s s.pc hroom]
    exact ⟨sp_add_one_toNat hroom, rfl⟩
  · rw [State.push_full s s.pc (by omega)]
    exact ⟨rfl, rfl⟩

/-- An entry's push resets the device only from a full stack with STVRE enabled. -/
theorem State.push_stackReset {s : State} (h : s.sp.toNat < 31 ∨ s.dev.stvre = false) (v : ProgAddr) :
    (s.push v).stackReset = s.stackReset := by
  by_cases hroom : s.sp.toNat < 31
  · rw [State.push_room s v hroom]
  · rw [State.push_full s v hroom]
    simp [h.resolve_left hroom]

/-- Settles O56. -/
theorem stepEntersInterrupt : Obligations.StepEntersInterrupt := by
  rintro s e l rfl hrun hreset hhidden hrequest hwdt hirq
  have hentry : s.sample.takeInterrupt = _ :=
    (State.takeInterrupt_some s.sample l hirq).trans (State.enterInterrupt_eq s.sample l)
  have hstep : step s = boundaryRun s.sample := by
    rw [step_of_running hrequest hreset hrun, if_neg (by simp [hwdt])]
  have hpc : s.sample.takeInterrupt.pc = l.vector := by rw [hentry]
  rw [hstep]
  refine ⟨fun hroom i hdecode => ?_, fun hfull => ?_⟩
  case refine_1 =>
    have hpm : s.sample.takeInterrupt.pm = s.pm := by
      rw [hentry]
      simp
    have hdev : s.sample.takeInterrupt.dev = s.dev := by
      rw [hentry]
      simp
    have hprefetch : s.sample.takeInterrupt.prefetch = none := by rw [hentry]
    have hreset' : s.sample.takeInterrupt.stackReset = none := by
      rw [hentry]
      refine (State.push_stackReset ?_ _).trans (s.sample_stackReset.trans hreset)
      rwa [State.sample_sp, State.sample_dev]
    have hhidden' : s.sample.takeInterrupt.pcHidden = false := by
      rw [hentry]
      simp [hhidden]
    have heven : s.sample.takeInterrupt.pc.getLsbD 0 = false := by
      rw [hpc]
      exact l.vector_even
    rw [boundaryRun_of_no_reset hreset', runInstr_ok _ i hhidden', State.advance_of_even heven, hpc, ← hprefetch]
    rw [State.fetchWord_none _ hprefetch, hpc, State.pmRead16_congr hpm hdev, State.pmRead16_congr hpm hdev, hdecode]
  case refine_2 =>
    have hfull' : s.sample.sp.toNat = 31 := by rw [State.sample_sp, hfull]
    have hsp : (s.sample.push s.sample.pc).sp = s.sp := (State.push_sp_of_full hfull' _).trans s.sample_sp
    have hother : ∀ j : Nat, j + 1 ≠ 31 → (s.sample.push s.sample.pc).stack[j]? = s.stack[j]? := by
      intro j hj
      rw [State.push_stack_other _ (by rw [hsp, hfull]; exact hj), State.sample_stack]
    have htos : (s.sample.push s.sample.pc).tos = s.pc := (State.push_tos _ _).trans s.sample_pc
    have hovf : (s.sample.push s.sample.pc).stkovf = true := by rw [State.push_full _ _ (by omega)]
    have hpending : s.dev.stvre = true → s.sample.takeInterrupt.stackReset = some .overflow := by
      intro hstvre
      rw [hentry, State.push_full _ _ (by omega)]
      simp [hstvre]
    refine ⟨hpc, ?_, ?_, ?_, ?_, fun hstvre => ⟨hpending hstvre, ?_⟩⟩
    · rw [hentry, ← hsp]
    · rw [hentry, ← hovf]
    · rw [hentry, ← htos]
      rfl
    · rw [hentry]
      exact hother
    · rw [boundaryRun, hpending hstvre]
      rfl

/-- Settles O57. -/
theorem interruptThenReturn : Obligations.InterruptThenReturn := by
  intro s l w x b heven hroom hl
  have hentry : s.takeInterrupt = _ := (State.takeInterrupt_some s l hl).trans (State.enterInterrupt_eq s l)
  obtain ⟨hgieh, hgiel⟩ := enabled_of_irqTaken hl
  obtain ⟨hpc, hsp⟩ := State.returnFrom_after_push (x := { s.takeInterrupt with w := w, status := x, bsr := b }) hroom heven
    (by rw [hentry]) (by rw [hentry]) true
  refine ⟨_, rfl, ?_⟩
  rw [State.reenableInterrupts_eq]
  refine ⟨hpc, hsp, ?_, ?_, ?_, hgieh.symm, ?_⟩
  · rw [State.returnFrom_eq, hentry]
    rfl
  · rw [State.returnFrom_eq, hentry]
    rfl
  · rw [State.returnFrom_eq, hentry]
    rfl
  · rw [State.returnFrom_giel, State.returnFrom_gieh, hentry]
    cases l <;> simp_all

/-! ### Stack-error resets (O58) -/

/-- With a stack-error reset pending, the next boundary resets: for the cause requested, else for the stack error. -/
theorem step_resets {t : State} {e : StackError} (h : t.stackReset = some e) :
    ∃ c, step t = .next (t.sample.resetBy c) ∧ (c = .por ↔ t.sample.env.resetRequest = some .por) := by
  cases hrequest : t.sample.env.resetRequest with
  | some c => exact ⟨c, step_of_resetRequest hrequest, Option.some_inj.symm⟩
  | none =>
    refine ⟨e.cause, step_of_stackReset hrequest h, iff_of_false ?_ nofun⟩
    cases e <;> decide

/-- Settles O58. -/
theorem stackErrorResets : Obligations.StackErrorResets := by
  intro s hstvre
  constructor
  · intro hfull
    refine ⟨_, rfl, ?_⟩
    have hfull' : ¬ s.sp.toNat < 31 := by omega
    obtain ⟨c, hstep, hc⟩ := step_resets (t := s.push s.pc) (e := .overflow) (by rw [State.push_full s _ hfull']; simp [hstvre])
    refine ⟨_, hstep, rfl, rfl, rfl, rfl, fun hpor => ?_, fun hpor => ?_⟩
    · change (if c = .por then false else (s.push s.pc).sample.stkovf) = true
      rw [if_neg (mt hc.mp hpor), State.sample_stkovf, State.push_full s _ hfull']
    · exact if_pos (hc.mpr hpor)
  · intro hempty
    refine ⟨_, rfl, ?_⟩
    obtain ⟨c, hstep, hc⟩ := step_resets (t := s.pop.2) (e := .underflow) (by rw [State.pop_empty s hempty]; simp [hstvre])
    refine ⟨_, hstep, rfl, rfl, rfl, rfl, fun hpor => ?_, fun hpor => ?_⟩
    · change (if c = .por then false else s.pop.2.sample.stkunf) = true
      rw [if_neg (mt hc.mp hpor), State.sample_stkunf, State.pop_empty s hempty]
    · exact if_pos (hc.mpr hpor)

/-! ### Words that do not decode (O60) -/

/-- The run state does not bear on the interrupt taken. -/
theorem State.takeInterrupt_run (s : State) (r : RunState) :
    { s with run := r }.takeInterrupt = { s.takeInterrupt with run := r } := by
  have hpush (v : ProgAddr) : { s with run := r }.push v = { s.push v with run := r } := by
    by_cases hroom : s.sp.toNat < 31
    · rw [State.push_room s v hroom, State.push_room { s with run := r } v hroom]
    · rw [State.push_full s v hroom, State.push_full { s with run := r } v hroom]
  have hirq : { s with run := r }.irqTaken = s.irqTaken := rfl
  cases hl : s.irqTaken with
  | none => rw [State.takeInterrupt_none s hl, State.takeInterrupt_none _ (hirq.trans hl)]
  | some l =>
    rw [State.takeInterrupt_some s l hl, State.takeInterrupt_some _ l (hirq.trans hl), State.enterInterrupt_eq,
      State.enterInterrupt_eq, hpush]

@[simp] theorem State.takeInterrupt_pcHidden (s : State) : s.takeInterrupt.pcHidden = s.pcHidden := by
  cases hl : s.irqTaken with
  | none => rw [State.takeInterrupt_none s hl]
  | some l =>
    rw [State.takeInterrupt_some s l hl, State.enterInterrupt_eq]
    exact s.push_pcHidden _

/-- A boundary that comes to the fetch runs one instruction, after the interrupt due, whatever the core did before. -/
theorem step_fetches {s : State} (hrequest : s.sample.env.resetRequest = none) (hreset : s.stackReset = none)
    (hentry : s.sample.takeInterrupt.stackReset = none)
    (hcomes : (s.run = .running ∧ s.sample.env.wdtTimeout = false) ∨
      (s.run = .sleeping ∧ (s.sample.env.wdtTimeout = true ∨ s.sample.env.wakeRequest = true))) :
    ∃ r, step s = runInstr { s.sample.takeInterrupt with run := r } := by
  rcases hcomes with ⟨hrun, hwdt⟩ | ⟨hrun, hwake⟩
  · refine ⟨s.sample.takeInterrupt.run, ?_⟩
    rw [step_of_running hrequest hreset hrun, if_neg (by simp [hwdt]), boundaryRun_of_no_reset hentry]
  · refine ⟨.running, ?_⟩
    rw [step_of_sleeping hrequest hreset hrun, if_pos hwake, boundaryRun_of_no_reset, State.takeInterrupt_run]
    rw [State.takeInterrupt_run]
    exact hentry

theorem runInstr_of_hidden {s : State} (h : s.pcHidden = true) : runInstr s = .refused .testMemory := by
  rw [runInstr, if_pos h]

/-- Settles O60. -/
theorem undecodableWordsRefused : Obligations.UndecodableWordsRefused := by
  rintro s b w1 w2 rfl hrequest hreset hentry hcomes
  obtain ⟨r, hstep⟩ := step_fetches hrequest hreset hentry hcomes
  have hhidden : s.sample.takeInterrupt.pcHidden = s.pcHidden := by simp
  rw [hstep]
  refine ⟨fun h => runInstr_of_hidden (hhidden.trans h), ?_⟩
  rintro h hw1 hw2
  have hrefused (e : DecodeError) (hdecode : decode w1 w2 = .error e) :
      runInstr { s.sample.takeInterrupt with run := r } = .refused (refusalOf e w1 w2) := by
    have hfetch : { s.sample.takeInterrupt with run := r }.fetchWord = w1 := by
      rw [State.fetchWord_eq, hw1]
      rfl
    have herror := runInstr_error { s.sample.takeInterrupt with run := r } e (hhidden.trans h)
    rw [hfetch] at herror
    rw [hw2] at hdecode ⊢
    exact herror hdecode
  exact ⟨hrefused _, hrefused _, hrefused _⟩

end Sys2Proof.Machine
end
